-- ==== Sys2Proof/Word.lean ====
section
/-! DEFINITION. The words of the machine: bytes, host addresses and lengths, host pointers and opaque host values, wire addresses. -/

namespace Sys2Proof

/-- A byte is 8 bits (00_scope.md R10). -/
abbrev Byte := BitVec 8

/-- A host-side flash address, `ADDR_W = 32` bits (R9, D4). -/
abbrev Addr := BitVec 32

/-- A host-side length, `LEN_W = 32` bits (R9, D4). -/
abbrev Len := BitVec 32

/-- A host buffer pointer; DESIGN CHOICE: 32 bits (log 2). -/
abbrev Ptr := BitVec 32

/-- A callback reference; DESIGN CHOICE: 32 bits (log 2). `none` is written with `Option`. -/
abbrev Callback := BitVec 32

/-- The caller's opaque context value; DESIGN CHOICE: 32 bits (log 2). -/
abbrev Ctx := BitVec 32

/-- The address carried by a wire frame, `WIRE_ADDR_BITS = 24` bits (R8). -/
abbrev WireAddr := BitVec 24

end Sys2Proof
end

