-- ==== Sys2Proof/Config.lean ====
section
/-! DEFINITION. What is fixed for the machine: the constants of 00_scope.md R8, the open parameters of R9 as opaque constants, and the free values (log 7, 8, 10, 11, 43). -/

namespace Sys2Proof

/-- `PROGRAM_MERGE` (R9, R204): the two admitted ways a device combines old and new bytes. -/
inductive ProgramMerge where
  | overwrite
  | and
  deriving DecidableEq, Repr

/-- `DEVICE_ADDR_MAP` (R9, R206): what a device does with a wire address at or above `CAPACITY`. -/
inductive AddrMap where
  | wrap
  | undefined
  deriving DecidableEq, Repr

/-- The settings of a bus: "clock rate, bit order, mode" (R39). Their values are open (D32); no rule reads a field. -/
structure SpiSettings where
  clockRate : Nat
  bitOrder : Bool
  mode : Nat
  deriving DecidableEq, Repr, Inhabited

namespace Config

/-! The constants the source fixes (R8). -/

def pageSize : Nat := 256
def sectorSize : Nat := 4096
def blockSize : Nat := 65536
def blocksPerChip : Nat := 16
def capacity : Nat := 1048576

def opJEDECID : Byte := 0x9F
def opRDSR : Byte := 0x05
def opWRSR : Byte := 0x01
def opWREN : Byte := 0x06
def opREAD : Byte := 0x03
def opPP : Byte := 0x02
def opSE : Byte := 0xD7
def opBE : Byte := 0xD8
def opCE : Byte := 0xC7

def sigMfr : Byte := 0x9D
def sigDev1 : Byte := 0x13
def sigDev2 : Byte := 0x44

/-- `SR_WIP`, `SR_WEL`, `SR_SRWD`: masks of the status register's named bits (R8, R31). -/
def maskWIP : Byte := 0x01
def maskWEL : Byte := 0x02
def maskSRWD : Byte := 0x80

/-! The open parameters (R9, U24): no body, so no proof can rest on a value (log 8). -/

/-- `DUMMY_TX`: the byte transmitted in a dummy position (R86, D9). -/
opaque dummyTx : Byte

/-- One less than `T_POLL_MS` (R9: greater than 0). -/
opaque tPollPred : Nat

/-- One less than `T_WREN_US` (R9: greater than 0). -/
opaque tWrenPred : Nat

/-- `T_POLL_MS`, the interval slept between status polls (D11). -/
def tPollMs : Nat := tPollPred + 1

/-- `T_WREN_US`, the delay after write enable (D11). -/
def tWrenUs : Nat := tWrenPred + 1

/-- `T_SETTLE`, the settle delay after a shared-bus reconfiguration (R9, R270, D11); its unit is open too. -/
opaque tSettle : Nat

/-- `SPI_SETTINGS`, what `Configure(i)` gives the bus (R9, R13, D32), the same for every instance `i` (DESIGN CHOICE, log 45). -/
opaque spiSettings : SpiSettings

/-- `CS_ACTIVE_LEVEL` (D8): whether an asserted chip select is electrically high. -/
opaque csActiveHigh : Bool

/-! Free values: nothing constrains them (log 7, 10, 11, 43). -/

/-- The `k`-th free byte drawn (log 7): bytes on MISO or MOSI that the spec leaves at any value. -/
opaque freeByte : Nat → Byte

/-- What the device stores for bits 7:2 when a status write of `v` over `old` finishes, at draw `k` (R200, U22; log 11). -/
opaque storedStatus (old v : Byte) (k : Nat) : Byte

/-- The contents of the array after a write or erase at or above `CAPACITY` on a device with `DEVICE_ADDR_MAP = Undefined`, at draw `k` (R206, U3; log 10). -/
opaque freeCells : Nat → List (Nat × Byte)

/-- Whether a device with protection scheme `scheme` refuses a write or erase frame while its status register reads `sr` (R65, U21, N10; log 43). -/
opaque protects (scheme : Nat) (sr : Byte) (frame : List Byte) : Bool

/-- What an address that memory does not list reads as; DESIGN CHOICE (log 9): the erased value `0xFF`. -/
def blank : Byte := 0xFF

/-- The longest stretch of atomic steps the execution unit takes in one step of the machine when no other agent is due (log 12); reaching it only pauses the unit. -/
def maxSteps : Nat := 4294967296

end Config
end Sys2Proof
end

