-- ==== Sys2Proof/Syntax.lean ====
section
/-! DEFINITION. The syntax: host operations and the request tuple (30_encoding.md R90), wire commands (R81), the instruction set (one constructor per row of opcode_table.json) and the packets that carry instructions to the machine. -/

namespace Sys2Proof

/-- The seventeen host operations, in the order of their codes (R90). -/
inductive HostOp where
  | begin
  | readStatus
  | isWriteInProgress
  | waitForWriteComplete
  | writeStatus
  | writeEnable
  | jedecIdRead
  | isValidChip
  | pageReadSync
  | pageReadAsync
  | pageWriteSync
  | pageWriteAsync
  | rangeRead
  | rangeWrite
  | sectorErase
  | blockErase
  | chipErase
  deriving DecidableEq, Repr

/-- The request tuple `(op, i, addr, len, p, status, cb, ctx)` (R36, R90). Fields an operation does not use are ignored. -/
structure Request where
  op : HostOp
  i : Nat
  addr : Addr := 0
  len : Len := 0
  p : Ptr := 0
  status : Byte := 0
  cb : Option Callback := none
  ctx : Ctx := 0
  deriving DecidableEq, Repr

/-- A wire command as the bytes of its frame give it (R81, R82): dummy bytes, a status byte, a wire address, and the MOSI bytes of the data phase. -/
inductive Wire where
  | jedecid (d1 d2 d3 : Byte)
  | rdsr (d : Byte)
  | wrsr (v : Byte)
  | wren
  | read (a : WireAddr) (out : List Byte)
  | pp (a : WireAddr) (data : List Byte)
  | se (a : WireAddr)
  | be (a : WireAddr)
  | ce
  deriving DecidableEq, Repr

/-- The instruction set: one constructor per row of opcode_table.json. Of the wire commands `i` is the instance whose chip select frames the transaction `<i: sent / received>` (R93). -/
inductive Instr where
  | begin (i : Nat)
  | readStatus (i : Nat)
  | isWriteInProgress (i : Nat)
  | waitForWriteComplete (i : Nat)
  | writeStatus (i : Nat) (status : Byte)
  | writeEnable (i : Nat)
  | jedecIdRead (i : Nat)
  | isValidChip (i : Nat)
  | pageReadSync (i : Nat) (addr : Addr) (p : Ptr) (len : Len)
  | pageReadAsync (i : Nat) (addr : Addr) (p : Ptr) (len : Len) (cb : Option Callback) (ctx : Ctx)
  | pageWriteSync (i : Nat) (addr : Addr) (p : Ptr) (len : Len)
  | pageWriteAsync (i : Nat) (addr : Addr) (p : Ptr) (len : Len) (cb : Option Callback) (ctx : Ctx)
  | rangeRead (i : Nat) (addr : Addr) (p : Ptr) (len : Len)
  | rangeWrite (i : Nat) (addr : Addr) (p : Ptr) (len : Len)
  | sectorErase (i : Nat) (addr : Addr)
  | blockErase (i : Nat) (addr : Addr)
  | chipErase (i : Nat)
  | completion
  | jedecid (i : Nat) (d1 d2 d3 : Byte)
  | rdsr (i : Nat) (d : Byte)
  | wrsr (i : Nat) (v : Byte)
  | wren (i : Nat)
  | read (i : Nat) (a : WireAddr) (out : List Byte)
  | pp (i : Nat) (a : WireAddr) (data : List Byte)
  | se (i : Nat) (a : WireAddr)
  | be (i : Nat) (a : WireAddr)
  | ce (i : Nat)
  deriving DecidableEq, Repr

/-- What arrives at one of the machine's ports and carries an instruction: the bytes of a host request (R90; the layout is log 1), the MOSI bytes of one transaction to the device of instance `i` (R80; log 17), or the engine's completion, which has no encoding (R89). -/
inductive Packet where
  | request (bytes : List Byte)
  | wire (i : Nat) (mosi : List Byte)
  | completion
  deriving DecidableEq, Repr

end Sys2Proof
end

