-- ==== Sys2Proof/WellFormed.lean ====
section
/-! DEFINITION. Which instruction terms an encoding exists for. Lengths of page operations, a missing callback and an instance that does not exist are not checked here: requests with them are encodable and are refused at acceptance (60_exceptions.md R223). -/

namespace Sys2Proof

/-- The instance index fits the index byte of the request layout (log 1). -/
def indexFits (i : Nat) : Bool := decide (i < 256)

/-- A `READ` or `PP` frame has at least one data byte (R81, R210). The sequencer sends at most 256 (R88); the device takes any number (R201, R203). -/
def dataFits (bs : List Byte) : Bool := decide (1 ≤ bs.length)

/-- A wire command for which a frame exists (R81, R88). -/
def Wire.wellFormed : Wire → Bool
  | .jedecid _ _ _ => true
  | .rdsr _ => true
  | .wrsr _ => true
  | .wren => true
  | .read _ out => dataFits out
  | .pp _ data => dataFits data
  | .se _ => true
  | .be _ => true
  | .ce => true

/-- An instruction for which a packet exists. -/
def Instr.wellFormed : Instr → Bool
  | .begin i => indexFits i
  | .readStatus i => indexFits i
  | .isWriteInProgress i => indexFits i
  | .waitForWriteComplete i => indexFits i
  | .writeStatus i _ => indexFits i
  | .writeEnable i => indexFits i
  | .jedecIdRead i => indexFits i
  | .isValidChip i => indexFits i
  | .pageReadSync i _ _ _ => indexFits i
  | .pageReadAsync i _ _ _ _ _ => indexFits i
  | .pageWriteSync i _ _ _ => indexFits i
  | .pageWriteAsync i _ _ _ _ _ => indexFits i
  | .rangeRead i _ _ _ => indexFits i
  | .rangeWrite i _ _ _ => indexFits i
  | .sectorErase i _ => indexFits i
  | .blockErase i _ => indexFits i
  | .chipErase i => indexFits i
  | .completion => true
  | .jedecid _ _ _ _ => true
  | .rdsr _ _ => true
  | .wrsr _ _ => true
  | .wren _ => true
  | .read _ _ out => dataFits out
  | .pp _ _ data => dataFits data
  | .se _ _ => true
  | .be _ _ => true
  | .ce _ => true

end Sys2Proof
end

