-- ==== Sys2Proof/Decode.lean ====
section
/-! DEFINITION. Decoding: total on any bytes, rejecting by name; then the encoder, written from the same tables (30_encoding.md R81 to R83, R90; the byte layout of a request is the model's own, log 1). -/

namespace Sys2Proof

/-- Why bytes decode to no instruction. -/
inductive DecodeError where
  /-- host code 0x11 to 0x1F (R89) -/
  | unknownOp (code : Nat)
  /-- a request that is not 24 bytes long, or has one of bits 7:5 of its first byte set (log 1) -/
  | malformedRequest
  /-- a first byte outside the nine opcodes (R88, R210) -/
  | unknownOpcode (op : Byte)
  /-- one of the nine opcodes with a length its format does not have (R87, R210) -/
  | badFrameLength (op : Byte)
  /-- a transaction with no byte at all (R210) -/
  | emptyFrame
  deriving DecidableEq, Repr

/-! ## Host operation codes (R90) -/

/-- The 5-bit code of a host operation (R90, D5). -/
def HostOp.code : HostOp → Nat
  | .begin => 0x00
  | .readStatus => 0x01
  | .isWriteInProgress => 0x02
  | .waitForWriteComplete => 0x03
  | .writeStatus => 0x04
  | .writeEnable => 0x05
  | .jedecIdRead => 0x06
  | .isValidChip => 0x07
  | .pageReadSync => 0x08
  | .pageReadAsync => 0x09
  | .pageWriteSync => 0x0A
  | .pageWriteAsync => 0x0B
  | .rangeRead => 0x0C
  | .rangeWrite => 0x0D
  | .sectorErase => 0x0E
  | .blockErase => 0x0F
  | .chipErase => 0x10

/-- The host operation with a given code; codes `0x11` to `0x1F` name none (R89). -/
def HostOp.ofCode : Nat → Option HostOp
  | 0x00 => some .begin
  | 0x01 => some .readStatus
  | 0x02 => some .isWriteInProgress
  | 0x03 => some .waitForWriteComplete
  | 0x04 => some .writeStatus
  | 0x05 => some .writeEnable
  | 0x06 => some .jedecIdRead
  | 0x07 => some .isValidChip
  | 0x08 => some .pageReadSync
  | 0x09 => some .pageReadAsync
  | 0x0A => some .pageWriteSync
  | 0x0B => some .pageWriteAsync
  | 0x0C => some .rangeRead
  | 0x0D => some .rangeWrite
  | 0x0E => some .sectorErase
  | 0x0F => some .blockErase
  | 0x10 => some .chipErase
  | _ => none

/-! ## Bytes and words -/

/-- Four bytes, least significant first, as one 32-bit word (the byte order of the request layout, log 1). -/
def word32 (b0 b1 b2 b3 : Byte) : BitVec 32 := b3 ++ b2 ++ b1 ++ b0

/-- Byte `k` of a 32-bit word, `k = 0` the least significant. -/
def byteOf (w : BitVec 32) (k : Nat) : Byte := w.extractLsb' (8 * k) 8

/-- The four bytes of a 32-bit word, least significant first. -/
def bytesOf (w : BitVec 32) : List Byte := [byteOf w 0, byteOf w 1, byteOf w 2, byteOf w 3]

/-- The wire address `(b1 << 16) | (b2 << 8) | b3` of a frame (R55, R121). -/
def wireAddr (b1 b2 b3 : Byte) : WireAddr := b1 ++ b2 ++ b3

/-- The three address bytes of a frame, high byte first (R55, R82). -/
def addrBytes (a : WireAddr) : List Byte :=
  [a.extractLsb' 16 8, a.extractLsb' 8 8, a.extractLsb' 0 8]

/-! ## Host requests -/

/-- The two asynchronous operations, the only ones that use `cb` and `ctx` (R90, R140). -/
def isAsync : HostOp → Bool
  | .pageReadAsync => true
  | .pageWriteAsync => true
  | _ => false

/-- The callback field: mark 0 for `none`, any other mark for a reference (log 1). -/
def decodeCallback (mark : Byte) (v : BitVec 32) : Option Callback :=
  if mark = 0 then none else some v

/-- The request tuple a 24-byte request word stands for (R90; layout of log 1): byte 0 the code in bits 4:0, byte 1 the instance, then `addr`, `len` and `p`, `status`, the callback mark and reference, and `ctx`. -/
def decodeRequest : List Byte → Except DecodeError Request
  | [op, i, a0, a1, a2, a3, l0, l1, l2, l3, p0, p1, p2, p3, st, m, c0, c1, c2, c3, x0, x1, x2, x3] =>
    if 32 ≤ op.toNat then .error .malformedRequest
    else match HostOp.ofCode op.toNat with
      | none => .error (.unknownOp op.toNat)
      | some o =>
        .ok
          { op := o, i := i.toNat, addr := word32 a0 a1 a2 a3, len := word32 l0 l1 l2 l3,
            p := word32 p0 p1 p2 p3, status := st, cb := decodeCallback m (word32 c0 c1 c2 c3),
            ctx := word32 x0 x1 x2 x3 }
  | _ => .error .malformedRequest

/-- The instruction a request tuple asks for; "Fields an operation does not use are ignored" (R90). -/
def Request.instr (r : Request) : Instr :=
  match r.op with
  | .begin => .begin r.i
  | .readStatus => .readStatus r.i
  | .isWriteInProgress => .isWriteInProgress r.i
  | .waitForWriteComplete => .waitForWriteComplete r.i
  | .writeStatus => .writeStatus r.i r.status
  | .writeEnable => .writeEnable r.i
  | .jedecIdRead => .jedecIdRead r.i
  | .isValidChip => .isValidChip r.i
  | .pageReadSync => .pageReadSync r.i r.addr r.p r.len
  | .pageReadAsync => .pageReadAsync r.i r.addr r.p r.len r.cb r.ctx
  | .pageWriteSync => .pageWriteSync r.i r.addr r.p r.len
  | .pageWriteAsync => .pageWriteAsync r.i r.addr r.p r.len r.cb r.ctx
  | .rangeRead => .rangeRead r.i r.addr r.p r.len
  | .rangeWrite => .rangeWrite r.i r.addr r.p r.len
  | .sectorErase => .sectorErase r.i r.addr
  | .blockErase => .blockErase r.i r.addr
  | .chipErase => .chipErase r.i

/-! ## Wire frames -/

/-- A data-format frame: opcode, three address bytes, then at least one data byte (R81, R87). -/
def decodeData (op : Byte) (mk : WireAddr → List Byte → Wire) : List Byte → Except DecodeError Wire
  | b1 :: b2 :: b3 :: data =>
    if dataFits data then .ok (mk (wireAddr b1 b2 b3) data) else .error (.badFrameLength op)
  | _ => .error (.badFrameLength op)

/-- An address-only frame (format `W_A`, R82). -/
def decodeAddr (op : Byte) (mk : WireAddr → Wire) : List Byte → Except DecodeError Wire
  | [b1, b2, b3] => .ok (mk (wireAddr b1 b2 b3))
  | _ => .error (.badFrameLength op)

/-- A frame of one opcode byte and one more byte (formats `W_SIN`, `W_SOUT`, R82). -/
def decodeOne (op : Byte) (mk : Byte → Wire) : List Byte → Except DecodeError Wire
  | [b] => .ok (mk b)
  | _ => .error (.badFrameLength op)

/-- An opcode-only frame (format `W_O`, R82). -/
def decodeNone (op : Byte) (w : Wire) : List Byte → Except DecodeError Wire
  | [] => .ok w
  | _ => .error (.badFrameLength op)

/-- The `JEDECID` frame (format `W_ID`, R82). -/
def decodeId (op : Byte) : List Byte → Except DecodeError Wire
  | [d1, d2, d3] => .ok (.jedecid d1 d2 d3)
  | _ => .error (.badFrameLength op)

/-- The wire command of a transaction's MOSI bytes: byte 0 selects the command and so the format; the length is the transaction's (R81, R87). -/
def decodeFrame : List Byte → Except DecodeError Wire
  | [] => .error .emptyFrame
  | op :: rest =>
    if op = Config.opJEDECID then decodeId op rest
    else if op = Config.opRDSR then decodeOne op .rdsr rest
    else if op = Config.opWRSR then decodeOne op .wrsr rest
    else if op = Config.opWREN then decodeNone op .wren rest
    else if op = Config.opREAD then decodeData op .read rest
    else if op = Config.opPP then decodeData op .pp rest
    else if op = Config.opSE then decodeAddr op .se rest
    else if op = Config.opBE then decodeAddr op .be rest
    else if op = Config.opCE then decodeNone op .ce rest
    else .error (.unknownOpcode op)

/-- A wire command as an instruction for the device of instance `i`. -/
def Wire.instr (i : Nat) : Wire → Instr
  | .jedecid d1 d2 d3 => .jedecid i d1 d2 d3
  | .rdsr d => .rdsr i d
  | .wrsr v => .wrsr i v
  | .wren => .wren i
  | .read a out => .read i a out
  | .pp a data => .pp i a data
  | .se a => .se i a
  | .be a => .be i a
  | .ce => .ce i

/-- The decoder: the instruction a packet carries, or why it carries none. -/
def decode : Packet → Except DecodeError Instr
  | .request bytes =>
    match decodeRequest bytes with
    | .ok r => .ok r.instr
    | .error e => .error e
  | .wire i mosi =>
    match decodeFrame mosi with
    | .ok w => .ok (w.instr i)
    | .error e => .error e
  | .completion => .ok .completion

/-! ## The encoder -/

/-- The callback field of the request layout (log 1). -/
def encodeCallback : Option Callback → List Byte
  | none => [0, 0, 0, 0, 0]
  | some v => 1 :: bytesOf v

/-- The 24 bytes of a request tuple (R90; layout of log 1). -/
def encodeRequest (r : Request) : List Byte :=
  BitVec.ofNat 8 r.op.code :: BitVec.ofNat 8 r.i ::
    (bytesOf r.addr ++ bytesOf r.len ++ bytesOf r.p ++ [r.status] ++ encodeCallback r.cb ++ bytesOf r.ctx)

/-- The MOSI bytes of a wire command (R81, R82). -/
def encodeFrame : Wire → List Byte
  | .jedecid d1 d2 d3 => [Config.opJEDECID, d1, d2, d3]
  | .rdsr d => [Config.opRDSR, d]
  | .wrsr v => [Config.opWRSR, v]
  | .wren => [Config.opWREN]
  | .read a out => Config.opREAD :: (addrBytes a ++ out)
  | .pp a data => Config.opPP :: (addrBytes a ++ data)
  | .se a => Config.opSE :: addrBytes a
  | .be a => Config.opBE :: addrBytes a
  | .ce => [Config.opCE]

/-- The packet of an instruction. -/
def encode : Instr → Packet
  | .begin i => .request (encodeRequest { op := .begin, i := i })
  | .readStatus i => .request (encodeRequest { op := .readStatus, i := i })
  | .isWriteInProgress i => .request (encodeRequest { op := .isWriteInProgress, i := i })
  | .waitForWriteComplete i => .request (encodeRequest { op := .waitForWriteComplete, i := i })
  | .writeStatus i v => .request (encodeRequest { op := .writeStatus, i := i, status := v })
  | .writeEnable i => .request (encodeRequest { op := .writeEnable, i := i })
  | .jedecIdRead i => .request (encodeRequest { op := .jedecIdRead, i := i })
  | .isValidChip i => .request (encodeRequest { op := .isValidChip, i := i })
  | .pageReadSync i a p l => .request (encodeRequest { op := .pageReadSync, i := i, addr := a, p := p, len := l })
  | .pageReadAsync i a p l cb x => .request (encodeRequest { op := .pageReadAsync, i := i, addr := a, p := p, len := l, cb := cb, ctx := x })
  | .pageWriteSync i a p l => .request (encodeRequest { op := .pageWriteSync, i := i, addr := a, p := p, len := l })
  | .pageWriteAsync i a p l cb x => .request (encodeRequest { op := .pageWriteAsync, i := i, addr := a, p := p, len := l, cb := cb, ctx := x })
  | .rangeRead i a p l => .request (encodeRequest { op := .rangeRead, i := i, addr := a, p := p, len := l })
  | .rangeWrite i a p l => .request (encodeRequest { op := .rangeWrite, i := i, addr := a, p := p, len := l })
  | .sectorErase i a => .request (encodeRequest { op := .sectorErase, i := i, addr := a })
  | .blockErase i a => .request (encodeRequest { op := .blockErase, i := i, addr := a })
  | .chipErase i => .request (encodeRequest { op := .chipErase, i := i })
  | .completion => .completion
  | .jedecid i d1 d2 d3 => .wire i (encodeFrame (.jedecid d1 d2 d3))
  | .rdsr i d => .wire i (encodeFrame (.rdsr d))
  | .wrsr i v => .wire i (encodeFrame (.wrsr v))
  | .wren i => .wire i (encodeFrame .wren)
  | .read i a out => .wire i (encodeFrame (.read a out))
  | .pp i a data => .wire i (encodeFrame (.pp a data))
  | .se i a => .wire i (encodeFrame (.se a))
  | .be i a => .wire i (encodeFrame (.be a))
  | .ce i => .wire i (encodeFrame .ce)

/-! ## The opcode table's words -/

/-- The packet of an opcode-table word (log 18). A word of at most 8 bits below 32 is a host code with all operand bytes zero; any other is a wire frame to instance 0, its first byte the most significant (R83), followed for `READ` and `PP` by one zero data byte, since their frames have at least one (R88). -/
def tablePacket (nbits w : Nat) : Packet :=
  if nbits ≤ 8 then
    if w < 32 then .request (BitVec.ofNat 8 w :: List.replicate 23 0)
    else .wire 0 [BitVec.ofNat 8 w]
  else if nbits ≤ 16 then .wire 0 [BitVec.ofNat 8 (w / 256), BitVec.ofNat 8 w]
  else
    let op : Byte := BitVec.ofNat 8 (w / 16777216)
    .wire 0 ([op, BitVec.ofNat 8 (w / 65536), BitVec.ofNat 8 (w / 256), BitVec.ofNat 8 w]
      ++ (if op = Config.opREAD ∨ op = Config.opPP then [0] else []))

/-- The instruction the decoder reads from an opcode-table word. -/
def decodeTableWord (nbits w : Nat) : Option Instr :=
  match decode (tablePacket nbits w) with
  | .ok i => some i
  | .error _ => none

end Sys2Proof
end

