-- ==== Sys2Proof/Machine/State.lean ====
section
/-! DEFINITION. The state of the machine: everything the spec gives it (10_state.md R20 to R43, 20_memory.md R50 to R53, 47_wire_commands.md R190), the events of the trace (R66), the inputs at its ports, the reasons a step can stop, and the state after reset (R43). -/

namespace Sys2Proof.Machine

/-- The hardware signals no error of any kind ("This driver has no explicit error type", R220; 93_implementation_defined.md part 1: `fault` is used nowhere), so there is no fault. -/
inductive Fault where
  deriving DecidableEq, Repr

/-- Why a step has no meaning. All but `notModelled` and the last three are the refusal reasons of 60_exceptions.md R223. Every one is SAFE: the run stops where the hardware would do something the spec declines to describe (R222). -/
inductive Refusal where
  /-- An instruction without a meaning; raised only by an arm of `exec`. Safe. -/
  | notModelled (mnemonic : String)
  /-- Host code 0x11 to 0x1F (R89); raised by `step`. Safe. -/
  | unknownOp
  /-- The instance does not exist (R224); raised at acceptance and by a wire transaction. Safe. -/
  | badInstance
  /-- `begin` has not run on the instance (R224); raised at acceptance. Safe. -/
  | notBegun
  /-- A request while the slot is Pending (R225); raised at acceptance. Safe. -/
  | opWhilePending
  /-- A request made from completion context (R226); raised at acceptance. Safe. -/
  | inCallback
  /-- A page operation with `len = 0` or `len > 256` (R146); raised at acceptance. Safe. -/
  | badLength
  /-- An asynchronous page operation with `cb = none` (R140); raised at acceptance. Safe. -/
  | nullCallback
  /-- The host touches the buffer of the exchange in flight (R227); raised by a host access. Safe. -/
  | bufferRace
  /-- Request bytes that are not in the model's layout (log 1); raised by `step`. Safe. -/
  | malformedRequest
  /-- A raw transaction put on a bus that an open transaction owns (R114, R182; log 17); raised by a wire command. Safe. -/
  | busOwned
  /-- A completion the engine cannot have raised (R175, R178; log 16); raised by `completion`. Safe. -/
  | completionNotEnabled
  deriving DecidableEq, Repr

/-- The level of a chip-select line (R26). -/
inductive Level where
  | asserted
  | deasserted
  deriving DecidableEq, Repr

/-- The state of the bus settings (R27). -/
inductive BusCfg where
  | unconfigured
  | ours
  | foreign
  deriving DecidableEq, Repr

/-- A byte-addressed memory: the bytes that differ from `Config.blank`, in strictly rising address order (log 9). -/
abbrev Memory := List Host.Cell

/-- The three identity bytes (R33), also the registers `ID[0..2]` (R21). -/
structure Ident where
  mfr : Byte
  dev1 : Byte
  dev2 : Byte
  deriving DecidableEq, Repr

/-- The frame registers `F[0..3]` (R21). -/
structure Frame where
  b0 : Byte
  b1 : Byte
  b2 : Byte
  b3 : Byte
  deriving DecidableEq, Repr

/-- A device's internal operation in progress (R190). Targets and sector and block numbers are those of the 24-bit wire address. -/
inductive Job where
  /-- bytes aimed at addresses, in the order sent (R203) -/
  | prog (writes : List (Nat × Byte))
  /-- the 4096-byte sector with this number (R207) -/
  | eraseSector (sector : Nat)
  /-- the 65536-byte block with this number (R208) -/
  | eraseBlock (block : Nat)
  /-- the whole array (R209) -/
  | eraseChip
  /-- a status write (R200) -/
  | writeSR (v : Byte)
  deriving DecidableEq, Repr

/-- The device on one instance's chip-select line (R190), with its parameters (R204, R206; log 6), the protection scheme it has if any (R65; log 43) and whether it is there at all (U11; log 30). -/
structure Device where
  present : Bool
  ident : Ident
  merge : ProgramMerge
  addrMap : AddrMap
  protection : Option Nat
  mem : Memory
  sr : Byte
  job : Option Job
  rxq : List Byte
  deriving DecidableEq, Repr

/-- A driver instance: its configuration (R23) and its two flags (R24, R25). -/
structure Inst where
  bus : Nat
  csId : Nat
  shared : Bool
  begun : Bool
  txnOpen : Bool
  deriving DecidableEq, Repr

/-- `slot.tag` (R28). -/
inductive SlotTag where
  | idle
  | pending
  deriving DecidableEq, Repr

/-- The asynchronous operation slot (R28). -/
structure Slot where
  tag : SlotTag
  owner : Option Nat
  cb : Option Callback
  ctx : Ctx
  deriving DecidableEq, Repr

/-- The transfer engine's record of the exchange in flight (R30): `(tx, rxp, n)` and the mark that it has been performed (R178). -/
structure Transfer where
  tx : Option Ptr
  rxp : Option Ptr
  n : Nat
  performed : Bool
  deriving DecidableEq, Repr

/-- `PHASE` (R22): idle, or the running operation and the number of its next step, counted from 0 in the expanded step list of `Programs.lean` (log 36). -/
inductive Phase where
  | idle
  | busy (op : HostOp) (step : Nat)
  deriving DecidableEq, Repr

/-- The step the completion handler takes next (R177). -/
inductive HandlerStep where
  | c1
  | c2
  | c3
  | c4
  deriving DecidableEq, Repr

/-- The request port's fields that no working register takes at entry, held while the operation runs (R36). -/
structure Held where
  status : Byte
  cb : Option Callback
  ctx : Ctx
  deriving DecidableEq, Repr

/-- What an operation returns (R91). -/
inductive RetVal where
  | nothing
  | byte (b : Byte)
  | bit (b : Bool)
  | bytes3 (id : Ident)
  deriving DecidableEq, Repr

/-- The events of the trace (R13, R66). -/
inductive Event where
  /-- `CFG(i)` -/
  | cfg (i : Nat)
  /-- `CS(i, lvl)` -/
  | cs (i : Nat) (lvl : Level)
  /-- `X(tx, rx)`; `tx = none` is the placeholder -/
  | x (tx : Option (List Byte)) (rx : List Byte)
  /-- `XA(tx, rxp, n)` -/
  | xa (tx rxp : Option Ptr) (n : Nat)
  /-- `XP(txbytes, rxbytes)` (R178) -/
  | xp (tx rx : List Byte)
  /-- `DUS(t)` -/
  | dus (t : Nat)
  /-- `SETTLE`, the delay `T_SETTLE` its argument (R270) -/
  | settle (t : Nat)
  /-- `SMS(t)` -/
  | sms (t : Nat)
  /-- `CB(cb, ctx)` -/
  | cb (f : Option Callback) (x : Ctx)
  /-- `RET(op, v)` -/
  | ret (op : HostOp) (v : RetVal)
  /-- `FIN(i)` (R195) -/
  | fin (i : Nat)
  /-- a raw transaction `<i: sent / received>` from outside (log 17) -/
  | wire (i : Nat) (mosi miso : List Byte)
  /-- a reset of the sequencer (log 31) -/
  | reset
  deriving DecidableEq, Repr

/-- A move of an agent outside the execution unit (R20). -/
inductive EnvMove where
  /-- the device of instance `i` finishes its internal job (R195) -/
  | finish (i : Nat)
  /-- the transfer engine performs the exchange in flight (R178) -/
  | perform
  /-- a foreign bus master changes the bus settings (R27) -/
  | foreign
  deriving DecidableEq, Repr

/-- What happens next at the machine's ports, or which agent moves (log 12). -/
inductive Input where
  /-- an instruction arrives: a host request, the engine's completion, or a raw wire transaction -/
  | packet (p : Packet)
  /-- another agent moves -/
  | env (e : EnvMove)
  /-- the execution unit takes at most `n` atomic steps before the next input -/
  | run (n : Nat)
  /-- the host reads `n` bytes of its buffer memory (R227) -/
  | hostRead (p : Ptr) (n : Nat)
  /-- the host writes bytes of its buffer memory (R227) -/
  | hostWrite (p : Ptr) (bytes : List Byte)
  /-- the sequencer is reset (R250, R251) -/
  | reset
  deriving DecidableEq, Repr

/-- The state of the machine. -/
structure State where
  /-- `CUR` (R21) -/
  cur : Nat
  /-- `F[0..3]` (R21) -/
  f : Frame
  /-- `ADDR` (R21) -/
  addr : Addr
  /-- `PTR` (R21) -/
  ptr : Ptr
  /-- `REM` (R21) -/
  rem : Len
  /-- `CNT` (R21) -/
  cnt : Len
  /-- `ST` (R21) -/
  st : Byte
  /-- `ID[0..2]` (R21) -/
  ident : Ident
  /-- the request port's held fields (R36) -/
  held : Held
  /-- `PHASE` (R22) -/
  phase : Phase
  /-- the completion handler's position (R177, R233); `none` is caller context -/
  handler : Option HandlerStep
  /-- `inst[0 .. N_INST-1]` (R23 to R25) -/
  insts : List Inst
  /-- the chip-select identifiers `c` with `cs[c] = Asserted`, rising (R26) -/
  csAsserted : List Nat
  /-- `bus_cfg` (R27) -/
  busCfg : BusCfg
  /-- the asynchronous operation slot (R28) -/
  slot : Slot
  /-- `eng` (R30) -/
  eng : Option Transfer
  /-- the device of each instance (R190) -/
  devs : List Device
  /-- host buffer memory (R53) -/
  ram : Memory
  /-- the trace, oldest event first (R66); the model's record -/
  trace : List Event
  /-- how many free values have been drawn (log 7); the model's own -/
  draws : Nat
  /-- what happens next (log 12); the model's own -/
  inputs : List Input
  deriving DecidableEq, Repr

/-- An instance as constructed: not begun, no transaction open (R43). -/
def Inst.fresh (bus csId : Nat) (shared : Bool) : Inst :=
  { bus := bus, csId := csId, shared := shared, begun := false, txnOpen := false }

/-- The reference part (R33), idle and erased; DESIGN CHOICE for the state the spec leaves to each test (log 5, log 6, log 43). -/
def Device.reference : Device :=
  { present := true
    ident := { mfr := Config.sigMfr, dev1 := Config.sigDev1, dev2 := Config.sigDev2 }
    merge := .and, addrMap := .undefined, protection := none, mem := [], sr := 0, job := none, rxq := [] }

/-- The sequencer right after reset beside given instances, devices and host memory (R43, R250, R251): a reset changes neither the devices nor the host's memory. The working registers are 0 (DESIGN CHOICE, log 4). -/
def State.resetWith (insts : List Inst) (devs : List Device) (ram : Memory) : State :=
  { cur := 0, f := ⟨0, 0, 0, 0⟩, addr := 0, ptr := 0, rem := 0, cnt := 0, st := 0, ident := ⟨0, 0, 0⟩
    held := { status := 0, cb := none, ctx := 0 }
    phase := .idle, handler := none
    insts := insts.map fun x => { x with begun := false, txnOpen := false }
    csAsserted := [], busCfg := .unconfigured
    slot := { tag := .idle, owner := none, cb := none, ctx := 0 }, eng := none
    devs := devs, ram := ram, trace := [], draws := 0, inputs := [] }

/-- The machine right after reset (R43), with one instance on a dedicated bus (DESIGN CHOICE, log 3) and the reference part (log 5). -/
def State.reset : State := State.resetWith [Inst.fresh 0 0 false] [Device.reference] []

end Sys2Proof.Machine
end

