-- ==== Sys2Proof/Machine/Memory.lean ====
section
/-! DEFINITION. Memory: one byte read and written, ranges of bytes, erasure, and the canonical form (20_memory.md R50, R53, R56; log 9). Used for every device's array and for the host's buffers. -/

namespace Sys2Proof.Machine

/-- The byte at an address; an address that is not listed reads as `Config.blank` (log 9). -/
def Memory.read : Memory → Nat → Byte
  | [], _ => Config.blank
  | (b, v) :: m, a => if b = a then v else Memory.read m a

/-- A cell put before a memory, unless its byte is the one an unlisted address reads as. -/
def Memory.cell (a : Nat) (v : Byte) (m : Memory) : Memory :=
  if v = Config.blank then m else (a, v) :: m

/-- Writing one byte; the canonical form is kept. -/
def Memory.write : Memory → Nat → Byte → Memory
  | [], a, v => Memory.cell a v []
  | (b, w) :: m, a, v =>
    if a < b then Memory.cell a v ((b, w) :: m)
    else if a = b then Memory.cell a v m
    else (b, w) :: Memory.write m a v

/-- The memory that reads as `Config.blank` wherever `erased` says and as before elsewhere (R207 to R209). -/
def Memory.erase (erased : Nat → Bool) (m : Memory) : Memory :=
  m.filter fun c => !erased c.1

/-- The canonical memory of a list of cells, later cells over earlier ones, those at or above `limit` left out. -/
def Memory.ofCells (limit : Nat) (cells : List (Nat × Byte)) : Memory :=
  cells.foldl (fun m c => if c.1 < limit then Memory.write m c.1 c.2 else m) []

/-- Every listed address is above `lo`, the addresses rise strictly, and no listed byte is the blank one. -/
def Memory.wfFrom : Option Nat → Memory → Bool
  | _, [] => true
  | lo, (a, v) :: m =>
    (match lo with | none => true | some b => decide (b < a)) && decide (v ≠ Config.blank)
      && Memory.wfFrom (some a) m

/-- The canonical form of a memory. -/
def Memory.wf (m : Memory) : Bool := Memory.wfFrom none m

/-- Every listed address is below a limit. -/
def Memory.below (limit : Nat) (m : Memory) : Bool := m.all fun c => decide (c.1 < limit)

/-- The host address of byte `k` of a buffer: pointer arithmetic in the host's pointer width (D4; log 2). -/
def ptrAt (p : Ptr) (k : Nat) : Nat := (p + BitVec.ofNat 32 k).toNat

/-- `MemRead(p, n)` (R13): `n` bytes of host buffer memory from `p` up. -/
def memRead (m : Memory) (p : Ptr) (n : Nat) : List Byte :=
  (List.range n).map fun k => Memory.read m (ptrAt p k)

/-- `MemWrite(p, n, v)` (R13): the bytes land at `p, p+1, ...` in order. -/
def memWrite (m : Memory) (p : Ptr) : List Byte → Memory
  | [] => m
  | v :: vs => memWrite (Memory.write m p.toNat v) (p + 1) vs

end Sys2Proof.Machine
end

