-- ==== Sys2Proof/Machine/Flags.lean ====
section
/-! DEFINITION. The flag-like bits of the status register (10_state.md R31, R35): WIP is bit 0, WEL bit 1, SRWD bit 7. The sequencer has no condition codes. -/

namespace Sys2Proof.Machine

/-- WIP of a status byte: `readStatus() & WIP != 0` (R127). -/
def wip (sr : Byte) : Bool := decide (sr &&& Config.maskWIP ≠ 0)

/-- WEL of a status byte (R31). -/
def wel (sr : Byte) : Bool := decide (sr &&& Config.maskWEL ≠ 0)

/-- SRWD of a status byte (R31); the spec gives the bit no effect (N10). -/
def srwd (sr : Byte) : Bool := decide (sr &&& Config.maskSRWD ≠ 0)

/-- A status byte with WIP set (R200, R203, R207 to R209). -/
def setWip (sr : Byte) : Byte := sr ||| Config.maskWIP

/-- A status byte with WEL set (R199). -/
def setWel (sr : Byte) : Byte := sr ||| Config.maskWEL

/-- A status byte with WIP and WEL clear, the other bits kept (R195). -/
def clearWipWel (sr : Byte) : Byte := sr &&& ~~~(Config.maskWIP ||| Config.maskWEL)

end Sys2Proof.Machine
end

