-- ==== Sys2Proof/Machine/Operands.lean ====
section
/-! DEFINITION. Operand assembly: the frame builder (41_frame_builder.md R120, R122), the geometry of the flash address space (20_memory.md R51), the chunk arithmetic (44_range_chunking.md R156, R160), program targets (47_wire_commands.md R203) and the merge of bytes (R204). -/

namespace Sys2Proof.Machine

/-- `buildFrame(op8, a)` (R120): `[opcode, addr>>16, addr>>8, addr]`, each truncated to a byte. -/
def buildFrame (op8 : Byte) (a : Addr) : Frame :=
  { b0 := op8, b1 := (a >>> 16).setWidth 8, b2 := (a >>> 8).setWidth 8, b3 := a.setWidth 8 }

/-- The four frame registers as MOSI bytes. -/
def Frame.bytes (f : Frame) : List Byte := [f.b0, f.b1, f.b2, f.b3]

/-- Page offset of a flash address, `addr mod 256` (R51, R160). -/
def pageOffset (a : Nat) : Nat := a % Config.pageSize

/-- `pageStart = addr - (addr mod 256)` (R51). -/
def pageStart (a : Nat) : Nat := a - pageOffset a

/-- Sector number of a flash address (R51). -/
def sectorOf (a : Nat) : Nat := a / Config.sectorSize

/-- Block number of a flash address (R51). -/
def blockOf (a : Nat) : Nat := a / Config.blockSize

/-- `CNT <- min(REM, 256 - (ADDR mod 256))` (R156, R157). -/
def chunkLen (addr : Addr) (rem : Len) : Len :=
  BitVec.ofNat 32 (min rem.toNat (Config.pageSize - pageOffset addr.toNat))

/-- Where data byte `k` of a page program at wire address `a` is aimed: `base + ((A mod 256 + k) mod 256)` (R203). -/
def progTarget (a : Nat) (k : Nat) : Nat := pageStart a + (pageOffset a + k) % Config.pageSize

/-- The writes of a page program (R203); of more than 256 bytes the last 256 (log 44). -/
def progWrites (a : Nat) (data : List Byte) : List (Nat × Byte) :=
  (data.zipIdx.drop (data.length - Config.pageSize)).map fun b => (progTarget a b.2, b.1)

/-- `PROGRAM_MERGE(old, new)` (R204). -/
def mergeByte : ProgramMerge → Byte → Byte → Byte
  | .overwrite, _, new => new
  | .and, old, new => old &&& new

/-- `n` free bytes from draw `k` on (log 7). -/
def freeBytes (k : Nat) : Nat → List Byte
  | 0 => []
  | n + 1 => Config.freeByte k :: freeBytes (k + 1) n

end Sys2Proof.Machine
end

