-- ==== Sys2Proof/Machine/Device.lean ====
section
/-! DEFINITION. The reference device at the far end of the bus (47_wire_commands.md R190 to R210): what it returns for each byte, what each command does at deassertion, and its internal step `finish`. -/

namespace Sys2Proof.Machine

/-- The device is in an internal write or erase cycle (R31, R193). -/
def Device.busy (d : Device) : Bool := wip d.sr

/-- The array byte a `READ` returns for address `a` (R201); at or above `CAPACITY` by `DEVICE_ADDR_MAP` (R206), where Undefined gives free value `k`. -/
def Device.arrayByte (d : Device) (a : Nat) (k : Nat) : Byte :=
  if a < Config.capacity then d.mem.read a
  else match d.addrMap with
    | .wrap => d.mem.read (a % Config.capacity)
    | .undefined => Config.freeByte k

/-- MISO of a `RDSR` frame after its opcode and `n` more bytes (R198): byte 1 is `sr`, the rest free (log 34). -/
def Device.misoRdsr (d : Device) (n k : Nat) : Byte :=
  if n = 0 then d.sr else Config.freeByte k

/-- MISO of a `JEDECID` frame after its opcode and `n` more bytes (R197): bytes 1 to 3 are the identity, the rest free (log 34). -/
def Device.misoJedecid (d : Device) (n k : Nat) : Byte :=
  match n with
  | 0 => d.ident.mfr
  | 1 => d.ident.dev1
  | 2 => d.ident.dev2
  | _ => Config.freeByte k

/-- MISO of a `READ` frame after its opcode and these bytes (R201): data byte `k` is `mem[A + k]`, with no dummy byte (R202). -/
def Device.misoRead (d : Device) (after : List Byte) (k : Nat) : Byte :=
  match after with
  | b1 :: b2 :: b3 :: out => d.arrayByte ((wireAddr b1 b2 b3).toNat + out.length) k
  | _ => Config.freeByte k

/-- The byte the device returns while it receives the next byte (R192, R193, R197, R198, R201); `k` is the free value used where the spec gives none. WIP is tested at each byte (DESIGN CHOICE, log 41). -/
def Device.miso (d : Device) (k : Nat) : Byte :=
  match d.rxq with
  | [] => Config.freeByte k
  | op :: after =>
    if d.present = false then Config.freeByte k
    else if op = Config.opRDSR then d.misoRdsr after.length k
    else if d.busy then Config.freeByte k
    else if op = Config.opJEDECID then d.misoJedecid after.length k
    else if op = Config.opREAD then d.misoRead after k
    else Config.freeByte k

/-- The device with more MOSI bytes received (R191). -/
def Device.receive (d : Device) (tx : List Byte) : Device := { d with rxq := d.rxq ++ tx }

/-- What the device returns, byte by byte, while it receives `tx`. -/
def Device.answers (d : Device) (k : Nat) : List Byte → List Byte
  | [] => []
  | b :: tx => d.miso k :: Device.answers (d.receive [b]) (k + 1) tx

/-- At `SetCS(i, Asserted)` the device empties `rxq` (R191). -/
def Device.select (d : Device) : Device := { d with rxq := [] }

/-- `WREN` at commit (R199): WEL is set unless the device is busy (R193). -/
def Device.commitWren (d : Device) : Device :=
  if d.busy then d else { d with sr := setWel d.sr }

/-- Whether the device refuses a write or erase command for protection: the spec says neither that it does nor that it does not (R65, N10), so a scheme's answer is free (log 43). -/
def Device.protects (d : Device) (w : Wire) : Bool :=
  match d.protection with
  | none => false
  | some scheme => Config.protects scheme d.sr (encodeFrame w)

/-- A command that starts an internal cycle at commit: accepted when WIP = 0 and WEL = 1 (R193, R194) and not refused for protection (R65; log 43), then WIP is set. A command that is not accepted changes nothing. -/
def Device.start (d : Device) (w : Wire) (j : Job) : Device :=
  if !d.busy && wel d.sr && !d.protects w then { d with job := some j, sr := setWip d.sr } else d

/-- `WRSR` at commit (R200). -/
def Device.commitWrsr (d : Device) (v : Byte) : Device := d.start (.wrsr v) (.writeSR v)

/-- `PP` at commit (R203). -/
def Device.commitPp (d : Device) (a : WireAddr) (data : List Byte) : Device :=
  d.start (.pp a data) (.prog (progWrites a.toNat data))

/-- `SE` at commit (R207). -/
def Device.commitSe (d : Device) (a : WireAddr) : Device :=
  d.start (.se a) (.eraseSector (sectorOf a.toNat))

/-- `BE` at commit (R208). -/
def Device.commitBe (d : Device) (a : WireAddr) : Device :=
  d.start (.be a) (.eraseBlock (blockOf a.toNat))

/-- `CE` at commit (R209). -/
def Device.commitCe (d : Device) : Device := d.start .ce .eraseChip

/-- What a received command does at deassertion; `JEDECID`, `RDSR` and `READ` change no state (R197, R198, R201). -/
def Device.act (d : Device) : Wire → Device
  | .jedecid _ _ _ => d
  | .rdsr _ => d
  | .wrsr v => d.commitWrsr v
  | .wren => d.commitWren
  | .read _ _ => d
  | .pp a data => d.commitPp a data
  | .se a => d.commitSe a
  | .be a => d.commitBe a
  | .ce => d.commitCe

/-- At `SetCS(i, Deasserted)` the device commits the bytes it holds (R191, R196) and lets go of them (log 20); bytes that are no command are ignored (U19, N16; log 19), and an absent device does nothing (log 30). -/
def Device.commit (d : Device) : Device :=
  match decodeFrame d.rxq with
  | .ok w => if d.present then { d.act w with rxq := [] } else { d with rxq := [] }
  | .error _ => { d with rxq := [] }

/-- An array of which nothing is known, free value `k` (R206, U3; log 10). -/
def unspecifiedArray (k : Nat) : Memory := Memory.ofCells Config.capacity (Config.freeCells k)

/-- One byte of a page program applied to the array (R203, R204, R206). -/
def Device.programByte (d : Device) (k : Nat) (m : Memory) (t : Nat × Byte) : Memory :=
  if t.1 < Config.capacity then m.write t.1 (mergeByte d.merge (m.read t.1) t.2)
  else match d.addrMap with
    | .wrap => m.write (t.1 % Config.capacity) (mergeByte d.merge (m.read (t.1 % Config.capacity)) t.2)
    | .undefined => unspecifiedArray k

/-- Erasing unit number `u` of a given size (R207, R208); a unit outside the array by `DEVICE_ADDR_MAP` (R206). -/
def Device.eraseUnit (d : Device) (k size u : Nat) : Memory :=
  if u * size < Config.capacity then d.mem.erase fun a => decide (a / size = u)
  else match d.addrMap with
    | .wrap => d.mem.erase fun a => decide (a / size = u % (Config.capacity / size))
    | .undefined => unspecifiedArray k

/-- The job of the device applied to its array or status register (R195); `k` is the free value used where the spec gives none. -/
def Device.applyJob (d : Device) (k : Nat) : Job → Device
  | .prog writes => { d with mem := writes.foldl (d.programByte k) d.mem }
  | .eraseSector s => { d with mem := d.eraseUnit k Config.sectorSize s }
  | .eraseBlock b => { d with mem := d.eraseUnit k Config.blockSize b }
  | .eraseChip => { d with mem := d.mem.erase fun _ => true }
  | .writeSR v => { d with sr := Config.storedStatus d.sr v k }

/-- The device's internal step `finish` (R195): the job is applied, then `job <- none`, WIP <- 0 and WEL <- 0; nothing happens when there is no job. -/
def Device.finish (d : Device) (k : Nat) : Device :=
  match d.job with
  | none => d
  | some j => { d.applyJob k j with job := none, sr := clearWipWel (d.applyJob k j).sr }

end Sys2Proof.Machine
end

