-- ==== Sys2Proof/Machine/Ops.lean ====
section
/-! DEFINITION. The named operations over the state: events, instances, the primitives of 00_scope.md R13 (`Configure`, `SetCS`, `Exchange`, `ExchangeAsync`, the delays, `Notify`), the transaction guard (40_bus_guard.md R112, R113), the submission (46_async_dispatcher.md R176), and taking the completion and returning from it (R177, 60_exceptions.md R231, R232). -/

namespace Sys2Proof.Machine

/-- Append one event to the trace (R66). -/
def State.emit (e : Event) (s : State) : State := { s with trace := s.trace ++ [e] }

/-- An instance that does not exist; no accepted operation meets it (R224). -/
def Inst.absent : Inst := Inst.fresh 0 0 false

/-- `inst[i]` (R12). -/
def State.inst (s : State) (i : Nat) : Inst := s.insts.getD i Inst.absent

/-- Some instance is on a shared bus (R27). -/
def State.anyShared (s : State) : Bool := s.insts.any fun x => x.shared

/-- `inst[i].begun <- 1` (R111). -/
def State.setBegun (i : Nat) (s : State) : State :=
  { s with insts := s.insts.modify i fun x => { x with begun := true } }

/-- `inst[i].txn_open <- b` (R25). -/
def State.setTxnOpen (i : Nat) (b : Bool) (s : State) : State :=
  { s with insts := s.insts.modify i fun x => { x with txnOpen := b } }

/-- Change the device of instance `i`. -/
def State.modDev (i : Nat) (g : Device → Device) (s : State) : State :=
  { s with devs := s.devs.modify i g }

/-- `cs[c]` (R26). -/
def State.cs (s : State) (c : Nat) : Level := if c ∈ s.csAsserted then .asserted else .deasserted

/-- The electrical level of chip-select line `c`, high when true (R26, D8). -/
def State.csPin (s : State) (c : Nat) : Bool :=
  match s.cs c with
  | .asserted => Config.csActiveHigh
  | .deasserted => !Config.csActiveHigh

/-- A chip-select identifier put into a rising list, once. -/
def insertCs (c : Nat) : List Nat → List Nat
  | [] => [c]
  | b :: l => if c < b then c :: b :: l else if c = b then b :: l else b :: insertCs c l

/-- `Configure(i)` (R13, R27). -/
def State.configure (i : Nat) (s : State) : State := { s with busCfg := .ours }.emit (.cfg i)

/-- The settings the bus holds, where the spec says which (R9, R27): those of this design after `Configure`, and otherwise not known. The same for every instance (DESIGN CHOICE, log 45). -/
def State.busSettings (s : State) : Option SpiSettings :=
  match s.busCfg with
  | .ours => some Config.spiSettings
  | .unconfigured => none
  | .foreign => none

/-- `SetCS(i, Asserted)` (R13): the line is driven and the device empties `rxq` (R191). -/
def State.csAssert (i : Nat) (s : State) : State :=
  ({ s with csAsserted := insertCs (s.inst i).csId s.csAsserted }.modDev i Device.select).emit
    (.cs i .asserted)

/-- `SetCS(i, Deasserted)` (R13): the line is driven and the device commits (R191, R196). -/
def State.csDeassert (i : Nat) (s : State) : State :=
  ({ s with csAsserted := s.csAsserted.filter fun c => decide (c ≠ (s.inst i).csId) }.modDev i
    Device.commit).emit (.cs i .deasserted)

/-- Steps b3 and b4 of `beginTransaction`, one atomic step (R112). -/
def State.openTxn (i : Nat) (s : State) : State := (s.csAssert i).setTxnOpen i true

/-- `endTransaction(i)`, one atomic step (R113). -/
def State.endTxn (i : Nat) (s : State) : State := (s.csDeassert i).setTxnOpen i false

/-- The instance whose device takes part in an exchange: the one whose chip select is the only one asserted (R191; log 21). -/
def State.busDevice (s : State) : Option Nat :=
  match s.csAsserted with
  | [c] => s.insts.findIdx? fun x => decide (x.csId = c)
  | _ => none

/-- What reaches the device when `tx` is sent: `tx` itself, or free bytes on a bus that does not hold this design's settings (U15; log 22). -/
def State.onWire (s : State) (tx : List Byte) : List Byte :=
  if s.busCfg = .ours then tx else freeBytes s.draws tx.length

/-- What comes back while `tx` is sent: the selected device's answers, or free bytes when no device takes part (R191) or the bus is not ours (U15). -/
def State.answers (s : State) (tx : List Byte) : List Byte :=
  let k := s.draws + tx.length
  match s.busDevice with
  | none => freeBytes k tx.length
  | some i =>
    match s.devs[i]? with
    | none => freeBytes k tx.length
    | some d => if s.busCfg = .ours then d.answers k (s.onWire tx) else freeBytes k tx.length

/-- The state after the bytes of `tx` have been exchanged: the selected device has received them, and the free values have been drawn. -/
def State.exchanged (s : State) (tx : List Byte) : State :=
  let s' : State := { s with draws := s.draws + 2 * tx.length }
  match s.busDevice with
  | none => s'
  | some i => s'.modDev i fun d => d.receive (s.onWire tx)

/-- The bytes a placeholder transmit sends: any value (R37, R82; log 7). -/
def State.placeholder (s : State) (n : Nat) : List Byte := freeBytes s.draws n

/-- The state after the placeholder's free bytes have been drawn. -/
def State.drew (s : State) (n : Nat) : State := { s with draws := s.draws + n }

/-- `Exchange(tx, n)` with given bytes (R13, D27): the received bytes, and the state with event `X(tx, rx)`. -/
def State.exchangeBytes (tx : List Byte) (s : State) : List Byte × State :=
  let rx := s.answers tx
  (rx, (s.exchanged tx).emit (.x (some tx) rx))

/-- `Exchange(none, n)` (R13, R37): the placeholder is sent. -/
def State.exchangeNone (n : Nat) (s : State) : List Byte × State :=
  let tx := s.placeholder n
  let s1 := s.drew n
  let rx := s1.answers tx
  (rx, (s1.exchanged tx).emit (.x none rx))

/-- `submit(i, cb, ctx, tx, rxp, n)` (R176): slot and engine filled in one atomic step, event `XA(tx, rxp, n)`. -/
def State.submit (i : Nat) (cb : Option Callback) (ctx : Ctx) (tx rxp : Option Ptr) (n : Nat) (s : State) : State :=
  { s with
      slot := { tag := .pending, owner := some i, cb := cb, ctx := ctx }
      eng := some { tx := tx, rxp := rxp, n := n, performed := false } }.emit (.xa tx rxp n)

/-- The bytes the engine sends for a transfer: the host's buffer, or the placeholder (R178). -/
def State.engineTx (s : State) (x : Transfer) : List Byte :=
  match x.tx with
  | some p => memRead s.ram p x.n
  | none => s.placeholder x.n

/-- The received bytes stored where the transfer says, or discarded (R178). -/
def State.engineStore (x : Transfer) (rx : List Byte) (s : State) : State :=
  match x.rxp with
  | some p => { s with ram := memWrite s.ram p rx }
  | none => s

/-- The transfer engine's step `perform` (R178): enabled while an exchange is in flight and not yet performed; otherwise nothing happens. Event `XP(txbytes, rxbytes)`. -/
def State.perform (s : State) : State :=
  match s.eng with
  | none => s
  | some x =>
    if x.performed then s
    else
      let tx := s.engineTx x
      let s1 := s.drew x.n
      let rx := s1.answers tx
      ({ s1.exchanged tx with eng := some { x with performed := true } }.engineStore x rx).emit (.xp tx rx)

/-- The device of instance `i` takes its step `finish` (R195), event `FIN(i)`; nothing happens when it has no job. -/
def State.finish (i : Nat) (s : State) : State :=
  match s.devs[i]? with
  | none => s
  | some d =>
    if d.job = none then s
    else ({ s with draws := s.draws + 1 }.modDev i fun d => d.finish s.draws).emit (.fin i)

/-! ## The completion: taking it and returning from it -/

/-- The completion is enabled: the slot is Pending, the engine has performed the exchange, and the handler is not already running (R177, R178, R232). -/
def State.completionEnabled (s : State) : Bool :=
  decide (s.slot.tag = .pending) && (match s.eng with | some x => x.performed | none => false)
    && decide (s.handler = none)

/-- Taking the completion (R231): control passes to the handler; nothing is saved and nothing is vectored. -/
def State.takeCompletion (s : State) : State := { s with handler := some .c1 }

/-- Returning from the completion (R232): back to caller context, nothing to restore. -/
def State.returnFromCompletion (s : State) : State := { s with handler := none }

/-- Step c1 (R177): `endTransaction(slot.owner)`. -/
def State.stepC1 (s : State) : State :=
  match s.slot.owner with
  | some o => { s.endTxn o with handler := some .c2 }
  | none => { s with handler := some .c2 }

/-- Step c2 (R177): `slot.owner <- none; slot.tag <- Idle; eng <- none`. -/
def State.stepC2 (s : State) : State :=
  { s with slot := { s.slot with owner := none, tag := .idle }, eng := none, handler := some .c3 }

/-- Step c3 (R177): `Notify` with the callback and the context the slot was given. -/
def State.stepC3 (s : State) : State :=
  { s.emit (.cb s.slot.cb s.slot.ctx) with handler := some .c4 }

/-- Step c4 (R177): `slot.cb <- none`, and the handler ends (R232). `slot.ctx` keeps its value (D31). -/
def State.stepC4 (s : State) : State :=
  { s with slot := { s.slot with cb := none } }.returnFromCompletion

/-- One atomic step of the handler (R177). -/
def State.handlerStep : HandlerStep → State → State
  | .c1, s => s.stepC1
  | .c2, s => s.stepC2
  | .c3, s => s.stepC3
  | .c4, s => s.stepC4

/-- At most `n` steps of the handler. -/
def runHandler : Nat → State → State
  | 0, s => s
  | n + 1, s =>
    match s.handler with
    | none => s
    | some h => runHandler n (s.handlerStep h)

/-! ## Whose turn it is (log 12) -/

/-- How many atomic steps the execution unit may take now. -/
def State.burst (s : State) : Nat :=
  match s.inputs with
  | .run n :: _ => n
  | _ => Config.maxSteps

/-- The inputs after the execution unit has taken its turn. -/
def State.popRun (s : State) : State :=
  match s.inputs with
  | .run _ :: rest => { s with inputs := rest }
  | _ => s

end Sys2Proof.Machine
end

