-- ==== Sys2Proof/Machine/Programs.lean ====
section
/-! DEFINITION. The atomic steps of the sequencer and the step list of every host operation, with the called operations expanded in place (00_scope.md R14, 10_state.md R22). The number of a step in its list is the number PHASE holds (log 36). -/

namespace Sys2Proof.Machine

/-- The frames the sequencer sends, one per wire command (R81). -/
inductive Cmd where
  | jedecid
  | rdsr
  | wrsr
  | wren
  | read
  | pp
  | se
  | be
  | ce
  deriving DecidableEq, Repr

/-- The steps an operation is made of (R13, R22). A step without an event is a register update that the spec lets a model fold into its neighbour (R156; log 25). -/
inductive Micro where
  /-- b1 of `beginTransaction`: `Configure(i)` on a shared bus, absent on a dedicated one (R112) -/
  | configure
  /-- b2: `Settle()` on a shared bus, absent on a dedicated one (R112) -/
  | settle
  /-- b3 and b4: `SetCS(i, Asserted)`, `txn_open <- 1` (R112) -/
  | select
  /-- the frame registers are filled and exchanged as one `Exchange` (R84, R120, R122) -/
  | send (c : Cmd)
  /-- `Exchange(none, CNT)` and `MemWrite` (R141 s3) -/
  | dataIn
  /-- `Exchange(MemRead(PTR, CNT), CNT)` (R143 s5) -/
  | dataOut
  /-- `submit(i, cb, ctx, none, PTR, CNT)` (R142 s3) -/
  | submitIn
  /-- `submit(i, cb, ctx, PTR, none, CNT)` (R144 s5) -/
  | submitOut
  /-- e1 and e2: `endTransaction(i)` (R113) -/
  | deselect
  /-- `DelayUs(T_WREN_US)` (R130 s4) -/
  | delay
  /-- w2 of `waitForWriteComplete`: sleep and go back to w1 when WIP was read as 1 (R128) -/
  | poll
  /-- s1 of `begin`: `SetCS(i, Deasserted)` (R111) -/
  | park
  /-- s2 of `begin`: `Configure(i)` on a dedicated bus (R111) -/
  | configureOnce
  /-- s3 of `begin`: `inst[i].begun <- 1` (R111) -/
  | setBegun
  /-- r1 and r2 of the chunk loop; the loop's exit is step `exit` (R156, R157) -/
  | chunk (exit : Nat)
  /-- r4 of the chunk loop; the back edge goes to step 0 (R156, R157) -/
  | advance
  /-- `Return` (R13) -/
  | ret
  deriving DecidableEq, Repr

/-- `beginTransaction(i)` (R112). -/
def opening : List Micro := [.configure, .settle, .select]

/-- One transaction around some exchanges (R110). -/
def transaction (ms : List Micro) : List Micro := opening ++ ms ++ [.deselect]

/-- `waitForWriteComplete(i)` without its `Return` (R128). -/
def waiting : List Micro := transaction [.send .rdsr] ++ [.poll]

/-- How far the back edge of the poll loop goes: from w2 to the first step of w1 (R128). -/
def pollBack : Nat := 5

/-- `writeEnable(i)` without its `Return` (R130). -/
def enabling : List Micro := transaction [.send .wren] ++ [.delay]

/-- `pageWriteSync` without its `Return` (R143). -/
def pageWriting : List Micro := waiting ++ enabling ++ transaction [.send .pp, .dataOut] ++ waiting

/-- The erase pattern (R165). -/
def erasing (c : Cmd) : List Micro := waiting ++ enabling ++ transaction [.send c] ++ waiting ++ [.ret]

/-- `begin` (R111). -/
def progBegin : List Micro := [.park, .configureOnce, .setBegun, .ret]

/-- `readStatus` (R126). -/
def progReadStatus : List Micro := transaction [.send .rdsr] ++ [.ret]

/-- `isWriteInProgress` (R127). -/
def progIsWriteInProgress : List Micro := transaction [.send .rdsr] ++ [.ret]

/-- `waitForWriteComplete` (R128). -/
def progWaitForWriteComplete : List Micro := waiting ++ [.ret]

/-- `writeStatus` (R129): neither `WREN` nor a trailing wait (C5). -/
def progWriteStatus : List Micro := waiting ++ transaction [.send .wrsr] ++ [.ret]

/-- `writeEnable` (R130). -/
def progWriteEnable : List Micro := enabling ++ [.ret]

/-- `jedecIdRead` (R131). -/
def progJedecIdRead : List Micro := transaction [.send .jedecid] ++ [.ret]

/-- `isValidChip` (R132). -/
def progIsValidChip : List Micro := transaction [.send .jedecid] ++ [.ret]

/-- `pageReadSync` (R141). -/
def progPageReadSync : List Micro := transaction [.send .read, .dataIn] ++ [.ret]

/-- `pageReadAsync` (R142): the transaction stays open. -/
def progPageReadAsync : List Micro := opening ++ [.send .read, .submitIn, .ret]

/-- `pageWriteSync` (R143). -/
def progPageWriteSync : List Micro := pageWriting ++ [.ret]

/-- `pageWriteAsync` (R144, C2): the transaction stays open, no trailing wait. -/
def progPageWriteAsync : List Micro := waiting ++ enabling ++ opening ++ [.send .pp, .submitOut, .ret]

/-- `rangeRead` (R156). -/
def progRangeRead : List Micro := .chunk 8 :: (transaction [.send .read, .dataIn] ++ [.advance, .ret])

/-- `rangeWrite` (R157). -/
def progRangeWrite : List Micro := .chunk 26 :: (pageWriting ++ [.advance, .ret])

/-- `sectorErase` (R166). -/
def progSectorErase : List Micro := erasing .se

/-- `blockErase` (R167). -/
def progBlockErase : List Micro := erasing .be

/-- `chipErase` (R168). -/
def progChipErase : List Micro := erasing .ce

/-- The step list of a host operation. -/
def program : HostOp → List Micro
  | .begin => progBegin
  | .readStatus => progReadStatus
  | .isWriteInProgress => progIsWriteInProgress
  | .waitForWriteComplete => progWaitForWriteComplete
  | .writeStatus => progWriteStatus
  | .writeEnable => progWriteEnable
  | .jedecIdRead => progJedecIdRead
  | .isValidChip => progIsValidChip
  | .pageReadSync => progPageReadSync
  | .pageReadAsync => progPageReadAsync
  | .pageWriteSync => progPageWriteSync
  | .pageWriteAsync => progPageWriteAsync
  | .rangeRead => progRangeRead
  | .rangeWrite => progRangeWrite
  | .sectorErase => progSectorErase
  | .blockErase => progBlockErase
  | .chipErase => progChipErase

/-- The step at a position, when there is one. -/
def microAt (op : HostOp) (k : Nat) : Option Micro := (program op)[k]?

end Sys2Proof.Machine
end

