-- ==== Sys2Proof/Machine/Sequencer.lean ====
section
/-! DEFINITION. The sequencer: what each atomic step does, how a stretch of steps runs (log 12, 13), and the acceptance of a request (60_exceptions.md R222 to R226, 10_state.md R36). -/

namespace Sys2Proof.Machine

/-- The frame registers as a frame to be sent leaves them: `buildFrame` for the addressed commands (R120), and for the others only the registers R122 names. -/
def State.loadFrame (c : Cmd) (s : State) : Frame :=
  match c with
  | .jedecid => { b0 := Config.opJEDECID, b1 := Config.dummyTx, b2 := Config.dummyTx, b3 := Config.dummyTx }
  | .rdsr => { s.f with b0 := Config.opRDSR, b1 := Config.dummyTx }
  | .wrsr => { s.f with b0 := Config.opWRSR, b1 := s.held.status }
  | .wren => { s.f with b0 := Config.opWREN }
  | .read => buildFrame Config.opREAD s.addr
  | .pp => buildFrame Config.opPP s.addr
  | .se => buildFrame Config.opSE s.addr
  | .be => buildFrame Config.opBE s.addr
  | .ce => { s.f with b0 := Config.opCE }

/-- The bytes of the frame registers that are exchanged (R81, R82, R84). -/
def Cmd.sent (c : Cmd) (f : Frame) : List Byte :=
  match c with
  | .jedecid => f.bytes
  | .rdsr => [f.b0, f.b1]
  | .wrsr => [f.b0, f.b1]
  | .wren => [f.b0]
  | .read => f.bytes
  | .pp => f.bytes
  | .se => f.bytes
  | .be => f.bytes
  | .ce => [f.b0]

/-- The registers that take received bytes: `ST` (R126 s2) and `ID` (R131 s2); every other received byte is discarded. -/
def State.capture (c : Cmd) (rx : List Byte) (s : State) : State :=
  match c with
  | .rdsr => { s with st := rx.getD 1 0 }
  | .jedecid => { s with ident := { mfr := rx.getD 1 0, dev1 := rx.getD 2 0, dev2 := rx.getD 3 0 } }
  | _ => s

/-- One frame: the frame registers are filled, exchanged, and the received bytes captured. -/
def State.sendFrame (c : Cmd) (s : State) : State :=
  let f := s.loadFrame c
  let r := { s with f := f }.exchangeBytes (c.sent f)
  r.2.capture c r.1

/-- The data phase of a blocking read (R141 s3). -/
def State.receiveData (s : State) : State :=
  let r := s.exchangeNone s.cnt.toNat
  { r.2 with ram := memWrite r.2.ram s.ptr r.1 }

/-- The data phase of a blocking write (R143 s5); the received bytes are discarded. -/
def State.sendData (s : State) : State :=
  (s.exchangeBytes (memRead s.ram s.ptr s.cnt.toNat)).2

/-- The chip signature test (R132, D22): all three bytes match. -/
def signatureMatches (id : Ident) : Bool :=
  decide (id.mfr = Config.sigMfr) && decide (id.dev1 = Config.sigDev1) && decide (id.dev2 = Config.sigDev2)

/-- What an operation returns (R91, R126, R127, R131, R132). -/
def State.result (op : HostOp) (s : State) : RetVal :=
  match op with
  | .readStatus => .byte s.st
  | .isWriteInProgress => .bit (wip s.st)
  | .jedecIdRead => .bytes3 s.ident
  | .isValidChip => .bit (signatureMatches s.ident)
  | _ => .nothing

/-- PHASE moved to a step of the running operation (R22). -/
def State.goto (op : HostOp) (k : Nat) (s : State) : State := { s with phase := .busy op k }

/-- `Return(v)` of the running operation (R13): event `RET(op, v)`, `PHASE <- IDLE`. -/
def State.returnOp (op : HostOp) (s : State) : State :=
  { s.emit (.ret op (s.result op)) with phase := .idle }

/-- Step r4 of the chunk loop (R156, R157, R160). -/
def State.advanceChunk (s : State) : State :=
  { s with addr := s.addr + s.cnt, ptr := s.ptr + s.cnt, rem := s.rem - s.cnt }

/-- The sleep of the poll loop and its back edge (R128). -/
def State.sleep (op : HostOp) (k : Nat) (s : State) : State :=
  (s.emit (.sms Config.tPollMs)).goto op (k - pollBack)

/-- What one atomic step does apart from moving PHASE (R13, R22); a loop's and a return's own steps are in `opStep`. -/
def State.micro (m : Micro) (s : State) : State :=
  match m with
  | .configure => if (s.inst s.cur).shared then s.configure s.cur else s
  | .settle => if (s.inst s.cur).shared then s.emit (.settle Config.tSettle) else s
  | .select => s.openTxn s.cur
  | .send c => s.sendFrame c
  | .dataIn => s.receiveData
  | .dataOut => s.sendData
  | .submitIn => s.submit s.cur s.held.cb s.held.ctx none (some s.ptr) s.cnt.toNat
  | .submitOut => s.submit s.cur s.held.cb s.held.ctx (some s.ptr) none s.cnt.toNat
  | .deselect => s.endTxn s.cur
  | .delay => s.emit (.dus Config.tWrenUs)
  | .park => s.csDeassert s.cur
  | .configureOnce => if (s.inst s.cur).shared then s else s.configure s.cur
  | .setBegun => s.setBegun s.cur
  | .poll => s
  | .chunk _ => s
  | .advance => s.advanceChunk
  | .ret => s

/-- One atomic step of the sequencer at step `k` of operation `op` (R22). -/
def opStep (op : HostOp) (k : Nat) (m : Micro) (s : State) : State :=
  match m with
  | .poll => if wip s.st then s.sleep op k else s.goto op (k + 1)
  | .chunk exit =>
    if s.rem = 0 then s.goto op exit
    else { s with cnt := chunkLen s.addr s.rem }.goto op (k + 1)
  | .advance => s.advanceChunk.goto op 0
  | .ret => s.returnOp op
  | m => (s.micro m).goto op (k + 1)

/-- A foreign master may move: some instance is shared, no chip select is asserted, the slot is Idle (R27, D29), and no transaction is being opened (R114; log 23). -/
def State.foreignEnabled (s : State) : Bool :=
  s.anyShared && decide (s.csAsserted = []) && decide (s.slot.tag = .idle)
    && (match s.phase with
      | .idle => true
      | .busy op k => decide (microAt op k ≠ some .settle) && decide (microAt op k ≠ some .select))

/-- A foreign master's move (R27); nothing happens when it is not enabled. -/
def State.foreignMove (s : State) : State :=
  if s.foreignEnabled then { s with busCfg := .foreign } else s

/-- One move of an agent outside the execution unit (R20). -/
def State.envMove (e : EnvMove) (s : State) : State :=
  match e with
  | .finish i => s.finish i
  | .perform => s.perform
  | .foreign => s.foreignMove

/-- A stretch of at most `n` atomic steps of the sequencer. It ends when the operation has returned, and at a sleep of the poll loop unless another agent moves next: "the sleep is cooperative", and an agent that is due moves during it (R128; log 13). -/
def runOp : Nat → State → State
  | 0, s => s
  | n + 1, s =>
    match s.phase with
    | .idle => s
    | .busy op k =>
      match microAt op k with
      | none => s
      | some m =>
        if m = .poll ∧ wip s.st = true then
          match s.inputs with
          | .env e :: rest => runOp n ({ s.sleep op k with inputs := rest }.envMove e)
          | _ => s.sleep op k
        else runOp n (opStep op k m s)

/-- The execution unit takes its turn: the handler if it is running, else the operation (R177, R234). -/
def State.proceed (s : State) : State :=
  match s.handler with
  | some _ => runHandler s.burst s.popRun
  | none => runOp s.burst s.popRun

/-! ## Acceptance of a request -/

/-- The four page operations (R140). -/
def isPage : HostOp → Bool
  | .pageReadSync => true
  | .pageReadAsync => true
  | .pageWriteSync => true
  | .pageWriteAsync => true
  | _ => false

/-- Why a request is refused at acceptance, in caller context and with PHASE idle (R223); when several reasons apply the model reports the first of this order (log 26). -/
def State.refusalOf (r : Request) (s : State) : Option Refusal :=
  if s.insts.length ≤ r.i then some .badInstance
  else if s.slot.tag = .pending then some .opWhilePending
  else if r.op ≠ .begin ∧ (s.inst r.i).begun = false then some .notBegun
  else if isPage r.op = true ∧ (r.len = 0 ∨ 256 < r.len.toNat) then some .badLength
  else if isAsync r.op = true ∧ r.cb = none then some .nullCallback
  else none

/-- The working registers an operation sets on entry: `ADDR`, `PTR`, `CNT` for the page operations (R140), `ADDR`, `PTR`, `REM` for the range operations (R156 r0, R157 r0), `ADDR` for the addressed erases (R166 s0, R167), none for the rest. -/
def State.enter (r : Request) (s : State) : State :=
  match r.op with
  | .pageReadSync => { s with addr := r.addr, ptr := r.p, cnt := r.len }
  | .pageReadAsync => { s with addr := r.addr, ptr := r.p, cnt := r.len }
  | .pageWriteSync => { s with addr := r.addr, ptr := r.p, cnt := r.len }
  | .pageWriteAsync => { s with addr := r.addr, ptr := r.p, cnt := r.len }
  | .rangeRead => { s with addr := r.addr, ptr := r.p, rem := r.len }
  | .rangeWrite => { s with addr := r.addr, ptr := r.p, rem := r.len }
  | .sectorErase => { s with addr := r.addr }
  | .blockErase => { s with addr := r.addr }
  | _ => s

/-- An accepted request: `CUR` is set (R21), the port holds its fields, the entry registers are set and PHASE is at the first step. -/
def State.accept (r : Request) (s : State) : State :=
  { s with
      cur := r.i
      held := { status := r.status, cb := r.cb, ctx := r.ctx }
      phase := .busy r.op 0 }.enter r

/-- A request presented while an operation runs is held at the port (R36, D3; log 14). -/
def State.hold (r : Request) (s : State) : State :=
  { s with inputs := .packet (.request (encodeRequest r)) :: s.inputs }

/-- A host request: refused from completion context (R226; log 15), held while an operation runs (D3), refused for the reasons of R223, else accepted and run. -/
def State.issue (r : Request) (s : State) : Host.Outcome State Fault Refusal :=
  if s.handler ≠ none then .refused .inCallback
  else if s.phase ≠ .idle then .next (s.hold r)
  else match s.refusalOf r with
    | some why => .refused why
    | none => .next (s.accept r).proceed

end Sys2Proof.Machine
end

