-- ==== Sys2Proof/Machine/BusGuard.lean ====
section
/-! DEFINITION. The host operation of 40_bus_guard.md: `begin` (R111). -/

namespace Sys2Proof.Machine

/-- `begin` (R111): prepare an instance for use. -/
def execBegin (i : Nat) (s : State) : Host.Outcome State Fault Refusal :=
  s.issue { op := .begin, i := i }

end Sys2Proof.Machine
end

