-- ==== Sys2Proof/Machine/Dispatcher.lean ====
section
/-! DEFINITION. The completion event of 46_async_dispatcher.md (R175 to R182). -/

namespace Sys2Proof.Machine

/-- `completion` (R177): the Pending to Idle transition, its four steps in completion context. A completion that is not enabled "cannot happen" (R175, R178; log 16). -/
def execCompletion (s : State) : Host.Outcome State Fault Refusal :=
  if s.completionEnabled then .next s.takeCompletion.proceed
  else .refused .completionNotEnabled

end Sys2Proof.Machine
end

