-- ==== Sys2Proof/Machine/Erase.lean ====
section
/-! DEFINITION. The erase operations of 45_erase.md (R165 to R169). -/

namespace Sys2Proof.Machine

/-- `sectorErase` (R166): erase one 4096-byte sector. -/
def execSectorErase (i : Nat) (addr : Addr) (s : State) : Host.Outcome State Fault Refusal :=
  s.issue { op := .sectorErase, i := i, addr := addr }

/-- `blockErase` (R167): erase one 65536-byte block. -/
def execBlockErase (i : Nat) (addr : Addr) (s : State) : Host.Outcome State Fault Refusal :=
  s.issue { op := .blockErase, i := i, addr := addr }

/-- `chipErase` (R168): erase the whole array. -/
def execChipErase (i : Nat) (s : State) : Host.Outcome State Fault Refusal :=
  s.issue { op := .chipErase, i := i }

end Sys2Proof.Machine
end

