-- ==== Sys2Proof/Machine/PageTransfer.lean ====
section
/-! DEFINITION. The page transfer engine of 43_page_transfer.md (R140 to R147). -/

namespace Sys2Proof.Machine

/-- `pageReadSync` (R141): read up to one page, blocking. -/
def execPageReadSync (i : Nat) (addr : Addr) (p : Ptr) (len : Len) (s : State) : Host.Outcome State Fault Refusal :=
  s.issue { op := .pageReadSync, i := i, addr := addr, p := p, len := len }

/-- `pageReadAsync` (R142): read up to one page, returning before the data phase is done. -/
def execPageReadAsync (i : Nat) (addr : Addr) (p : Ptr) (len : Len) (cb : Option Callback) (ctx : Ctx) (s : State) : Host.Outcome State Fault Refusal :=
  s.issue { op := .pageReadAsync, i := i, addr := addr, p := p, len := len, cb := cb, ctx := ctx }

/-- `pageWriteSync` (R143): program up to one page, blocking until the device has finished. -/
def execPageWriteSync (i : Nat) (addr : Addr) (p : Ptr) (len : Len) (s : State) : Host.Outcome State Fault Refusal :=
  s.issue { op := .pageWriteSync, i := i, addr := addr, p := p, len := len }

/-- `pageWriteAsync` (R144): program up to one page, returning before the data has gone out. -/
def execPageWriteAsync (i : Nat) (addr : Addr) (p : Ptr) (len : Len) (cb : Option Callback) (ctx : Ctx) (s : State) : Host.Outcome State Fault Refusal :=
  s.issue { op := .pageWriteAsync, i := i, addr := addr, p := p, len := len, cb := cb, ctx := ctx }

end Sys2Proof.Machine
end

