-- ==== Sys2Proof/Machine/RangeChunking.lean ====
section
/-! DEFINITION. The range chunking engine of 44_range_chunking.md (R155 to R162). -/

namespace Sys2Proof.Machine

/-- `rangeRead` (R156): read any range, one page read per chunk. -/
def execRangeRead (i : Nat) (addr : Addr) (p : Ptr) (len : Len) (s : State) : Host.Outcome State Fault Refusal :=
  s.issue { op := .rangeRead, i := i, addr := addr, p := p, len := len }

/-- `rangeWrite` (R157): program any range, one complete page write per chunk. -/
def execRangeWrite (i : Nat) (addr : Addr) (p : Ptr) (len : Len) (s : State) : Host.Outcome State Fault Refusal :=
  s.issue { op := .rangeWrite, i := i, addr := addr, p := p, len := len }

end Sys2Proof.Machine
end

