-- ==== Sys2Proof/Machine/StatusControl.lean ====
section
/-! DEFINITION. The status and control operations of 42_status_control.md (R125 to R132). Each is its step list of `Programs.lean`, issued as a request. -/

namespace Sys2Proof.Machine

/-- `readStatus` (R126): read the device's status register. -/
def execReadStatus (i : Nat) (s : State) : Host.Outcome State Fault Refusal :=
  s.issue { op := .readStatus, i := i }

/-- `isWriteInProgress` (R127): test the WIP bit. -/
def execIsWriteInProgress (i : Nat) (s : State) : Host.Outcome State Fault Refusal :=
  s.issue { op := .isWriteInProgress, i := i }

/-- `waitForWriteComplete` (R128): the status-poll loop. -/
def execWaitForWriteComplete (i : Nat) (s : State) : Host.Outcome State Fault Refusal :=
  s.issue { op := .waitForWriteComplete, i := i }

/-- `writeStatus` (R129): write the device's status register. -/
def execWriteStatus (i : Nat) (status : Byte) (s : State) : Host.Outcome State Fault Refusal :=
  s.issue { op := .writeStatus, i := i, status := status }

/-- `writeEnable` (R130): set the write-enable latch. -/
def execWriteEnable (i : Nat) (s : State) : Host.Outcome State Fault Refusal :=
  s.issue { op := .writeEnable, i := i }

/-- `jedecIdRead` (R131): read the three identity bytes. -/
def execJedecIdRead (i : Nat) (s : State) : Host.Outcome State Fault Refusal :=
  s.issue { op := .jedecIdRead, i := i }

/-- `isValidChip` (R132): compare the identity with the known signature. -/
def execIsValidChip (i : Nat) (s : State) : Host.Outcome State Fault Refusal :=
  s.issue { op := .isValidChip, i := i }

end Sys2Proof.Machine
end

