-- ==== Sys2Proof/Machine/WireCommands.lean ====
section
/-! DEFINITION. The nine wire commands of 47_wire_commands.md as instructions: each is one whole transaction `<i: sent / received>` put to the device of instance `i` from outside the sequencer (log 17). The sequencer's own transactions reach the same device operations through `State.csAssert`, `State.exchangeBytes` and `State.csDeassert`. -/

namespace Sys2Proof.Machine

/-- The device after a whole transaction with these MOSI bytes (R191): selected, every byte received, committed. A frame the device still held, from a transaction that a reset cut short, is dropped at the selection (DESIGN CHOICE, log 42). -/
def Device.afterTransaction (d : Device) (mosi : List Byte) : Device :=
  ((d.select).receive mosi).commit

/-- What the device returns in that transaction, with free values from draw `k` on. -/
def Device.inTransaction (d : Device) (k : Nat) (mosi : List Byte) : List Byte :=
  d.select.answers k mosi

/-- One raw transaction with the device of instance `i` (R191): any bytes, those that are no command ignored by the device (U19; log 19). It neither depends on `bus_cfg` nor changes it (DESIGN CHOICE, log 40). Refused when the device does not exist, or while a transaction of the sequencer owns the bus (R114, R182; log 17). -/
def State.wireTransaction (i : Nat) (mosi : List Byte) (s : State) : Host.Outcome State Fault Refusal :=
  match s.devs[i]? with
  | none => .refused .badInstance
  | some d =>
    if s.csAsserted ≠ [] then .refused .busOwned
    else
      .next (({ s with draws := s.draws + mosi.length }.modDev i fun d => d.afterTransaction mosi).emit
        (.wire i mosi (d.inTransaction s.draws mosi)))

/-- `JEDECID` (R197). -/
def execJedecid (i : Nat) (d1 d2 d3 : Byte) (s : State) : Host.Outcome State Fault Refusal :=
  s.wireTransaction i (encodeFrame (.jedecid d1 d2 d3))

/-- `RDSR` (R198). -/
def execRdsr (i : Nat) (d : Byte) (s : State) : Host.Outcome State Fault Refusal :=
  s.wireTransaction i (encodeFrame (.rdsr d))

/-- `WRSR` (R200). -/
def execWrsr (i : Nat) (v : Byte) (s : State) : Host.Outcome State Fault Refusal :=
  s.wireTransaction i (encodeFrame (.wrsr v))

/-- `WREN` (R199). -/
def execWren (i : Nat) (s : State) : Host.Outcome State Fault Refusal :=
  s.wireTransaction i (encodeFrame .wren)

/-- `READ` (R201, R202). -/
def execRead (i : Nat) (a : WireAddr) (out : List Byte) (s : State) : Host.Outcome State Fault Refusal :=
  s.wireTransaction i (encodeFrame (.read a out))

/-- `PP` (R203). -/
def execPp (i : Nat) (a : WireAddr) (data : List Byte) (s : State) : Host.Outcome State Fault Refusal :=
  s.wireTransaction i (encodeFrame (.pp a data))

/-- `SE` (R207). -/
def execSe (i : Nat) (a : WireAddr) (s : State) : Host.Outcome State Fault Refusal :=
  s.wireTransaction i (encodeFrame (.se a))

/-- `BE` (R208). -/
def execBe (i : Nat) (a : WireAddr) (s : State) : Host.Outcome State Fault Refusal :=
  s.wireTransaction i (encodeFrame (.be a))

/-- `CE` (R209). -/
def execCe (i : Nat) (s : State) : Host.Outcome State Fault Refusal :=
  s.wireTransaction i (encodeFrame .ce)

end Sys2Proof.Machine
end

