-- ==== Sys2Proof/Machine/Dispatch.lean ====
section
/-! DEFINITION. One arm per instruction, each a direct call of its meaning. -/

namespace Sys2Proof.Machine

def exec (i : Instr) (s : State) : Host.Outcome State Fault Refusal :=
  match i with
  | .begin n => Sys2Proof.Machine.execBegin n s
  | .readStatus n => Sys2Proof.Machine.execReadStatus n s
  | .isWriteInProgress n => Sys2Proof.Machine.execIsWriteInProgress n s
  | .waitForWriteComplete n => Sys2Proof.Machine.execWaitForWriteComplete n s
  | .writeStatus n v => Sys2Proof.Machine.execWriteStatus n v s
  | .writeEnable n => Sys2Proof.Machine.execWriteEnable n s
  | .jedecIdRead n => Sys2Proof.Machine.execJedecIdRead n s
  | .isValidChip n => Sys2Proof.Machine.execIsValidChip n s
  | .pageReadSync n a p l => Sys2Proof.Machine.execPageReadSync n a p l s
  | .pageReadAsync n a p l f x => Sys2Proof.Machine.execPageReadAsync n a p l f x s
  | .pageWriteSync n a p l => Sys2Proof.Machine.execPageWriteSync n a p l s
  | .pageWriteAsync n a p l f x => Sys2Proof.Machine.execPageWriteAsync n a p l f x s
  | .rangeRead n a p l => Sys2Proof.Machine.execRangeRead n a p l s
  | .rangeWrite n a p l => Sys2Proof.Machine.execRangeWrite n a p l s
  | .sectorErase n a => Sys2Proof.Machine.execSectorErase n a s
  | .blockErase n a => Sys2Proof.Machine.execBlockErase n a s
  | .chipErase n => Sys2Proof.Machine.execChipErase n s
  | .completion => Sys2Proof.Machine.execCompletion s
  | .jedecid n d1 d2 d3 => Sys2Proof.Machine.execJedecid n d1 d2 d3 s
  | .rdsr n d => Sys2Proof.Machine.execRdsr n d s
  | .wrsr n v => Sys2Proof.Machine.execWrsr n v s
  | .wren n => Sys2Proof.Machine.execWren n s
  | .read n a out => Sys2Proof.Machine.execRead n a out s
  | .pp n a data => Sys2Proof.Machine.execPp n a data s
  | .se n a => Sys2Proof.Machine.execSe n a s
  | .be n a => Sys2Proof.Machine.execBe n a s
  | .ce n => Sys2Proof.Machine.execCe n s

end Sys2Proof.Machine
end

