-- ==== Sys2Proof/Machine/Environment.lean ====
section
/-! DEFINITION. The host's accesses to its buffers (60_exceptions.md R227), the reset of the sequencer (70_reset_and_hazards.md R250, R251), and when a packet waits at its port (10_state.md R36, R233). -/

namespace Sys2Proof.Machine

/-- The `n` bytes from `p` share a byte with the `m` bytes from `q`. -/
def overlaps (p : Ptr) (n : Nat) (q : Ptr) (m : Nat) : Bool :=
  (List.range n).any fun k => decide ((p + BitVec.ofNat 32 k - q).toNat < m)

/-- A host access of `n` bytes from `p` touches the buffer of the exchange in flight (R53, R223; log 27). -/
def State.races (p : Ptr) (n : Nat) (s : State) : Bool :=
  match s.eng with
  | none => false
  | some x =>
    (match x.tx with | some q => overlaps p n q x.n | none => false)
      || (match x.rxp with | some q => overlaps p n q x.n | none => false)

/-- The host reads its buffer memory (R227): no state changes. -/
def State.hostRead (p : Ptr) (n : Nat) (s : State) : Host.Outcome State Fault Refusal :=
  if s.races p n then .refused .bufferRace else .next s

/-- The host writes its buffer memory (R53, R227). -/
def State.hostWrite (p : Ptr) (bytes : List Byte) (s : State) : Host.Outcome State Fault Refusal :=
  if s.races p bytes.length then .refused .bufferRace
  else .next { s with ram := memWrite s.ram p bytes }

/-- A reset of the sequencer (R43, R250): the devices and the host's memory keep what they hold (R251); the trace and the inputs go on (log 31). -/
def State.resetNow (s : State) : State :=
  { State.resetWith s.insts s.devs s.ram with
      trace := s.trace ++ [.reset], draws := s.draws, inputs := s.inputs }

/-- The host cannot act now: an operation is running (D3), or the handler is running and not inside the callback (R177, R226). -/
def State.hostWaits (s : State) : Bool :=
  match s.handler with
  | some .c4 => false
  | some _ => true
  | none => decide (s.phase ≠ .idle)

/-- The packet at the head of the inputs waits: a request or a raw transaction while the host cannot act. The engine's completion does not wait for the operation (R177, R234), only for a handler that is already running (R232). -/
def State.packetWaits (p : Packet) (s : State) : Bool :=
  match p with
  | .completion => decide (s.handler ≠ none)
  | _ => s.hostWaits

end Sys2Proof.Machine
end

