-- ==== Sys2Proof/Machine/Step.lean ====
section
/-! DEFINITION. One step of the machine: what is due next among its inputs happens (log 12), an arriving packet is decoded and executed, and with nothing due the execution unit goes on. -/

namespace Sys2Proof.Machine

/-- The refusal a request that does not decode ends in (R89; log 1). The errors of wire frames arise at no request. -/
def refusalOfDecode : DecodeError → Refusal
  | .unknownOp _ => .unknownOp
  | .malformedRequest => .malformedRequest
  | .unknownOpcode _ => .malformedRequest
  | .badFrameLength _ => .malformedRequest
  | .emptyFrame => .malformedRequest

/-- A packet that is no instruction: a request is refused (R89), the bytes of a transaction reach the device, which ignores them (U19, N16; log 19). -/
def State.arriveUnknown (p : Packet) (e : DecodeError) (s : State) : Host.Outcome State Fault Refusal :=
  match p with
  | .request _ => .refused (refusalOfDecode e)
  | .wire i mosi => s.wireTransaction i mosi
  | .completion => .refused (refusalOfDecode e)

/-- A packet arrives: decoded and executed. -/
def State.arrive (p : Packet) (s : State) : Host.Outcome State Fault Refusal :=
  match decode p with
  | .ok i => exec i s
  | .error e => s.arriveUnknown p e

/-- One step of the machine. -/
def step (s : State) : Host.Outcome State Fault Refusal :=
  match s.inputs with
  | [] => .next s.proceed
  | .run _ :: _ => .next s.proceed
  | .env e :: rest => .next ({ s with inputs := rest }.envMove e)
  | .reset :: rest => .next { s with inputs := rest }.resetNow
  | .packet p :: rest =>
    if s.packetWaits p then .next s.proceed else { s with inputs := rest }.arrive p
  | .hostRead p n :: rest =>
    if s.hostWaits then .next s.proceed else { s with inputs := rest }.hostRead p n
  | .hostWrite p bytes :: rest =>
    if s.hostWaits then .next s.proceed else { s with inputs := rest }.hostWrite p bytes

/-- The state with the packet of an opcode-table word next at its port, and the execution unit free to take it (log 18). -/
def State.withFetchWord (s : State) (nbits w : Nat) : State :=
  { s with inputs := .packet (tablePacket nbits w) :: s.inputs, phase := .idle, handler := none }

end Sys2Proof.Machine
end

