-- ==== Sys2Proof/Safety.lean ====
section
/-! DEFINITION. What claims are stated with: the configuration a run starts from, the invariant of bus ownership, slot and memory (40_bus_guard.md R114, 10_state.md R25 to R30), the chunk invariant (44_range_chunking.md R158), the write-enable discipline over the trace (30_encoding.md R92, 70_reset_and_hazards.md R268), the end of a run (R254), the fairness assumptions (R9, D26), and the conditions and frames the statements about single operations use. -/

namespace Sys2Proof.Machine

/-! ## Configuration and memory -/

/-- The configuration is one the spec allows: at least one instance, one device per instance, no two equal chip-select identifiers, one bus, and one `shared` flag for that bus (R23, D7; log 24). -/
def configOk (insts : List Inst) (devs : List Device) : Prop :=
  1 ≤ insts.length ∧ devs.length = insts.length ∧ (insts.map fun x => x.csId).Nodup ∧
    ∀ x ∈ insts, ∀ y ∈ insts, x.bus = y.bus ∧ x.shared = y.shared

/-- A device's array is in canonical form and inside `CAPACITY`, and `job != none` exactly when WIP = 1 (R190). -/
def Device.ok (d : Device) : Prop :=
  d.mem.wf = true ∧ d.mem.below Config.capacity = true ∧ (d.job.isSome = d.busy)

/-- The host's buffer memory is in canonical form and inside the host's address space. -/
def ramOk (m : Memory) : Prop := m.wf = true ∧ m.below 4294967296 = true

/-! ## Bus ownership -/

/-- A step that is taken with the chip selected. -/
def needsOpen : Micro → Bool
  | .send _ => true
  | .dataIn => true
  | .dataOut => true
  | .submitIn => true
  | .submitOut => true
  | .deselect => true
  | _ => false

/-- The step PHASE names. -/
def State.nextMicro (s : State) : Option Micro :=
  match s.phase with
  | .idle => none
  | .busy op k => microAt op k

/-- The instance whose transaction is open, read from the position of the two state machines: the owner while the slot is Pending and c1 has not run, else the running operation's instance while its next step is taken with the chip selected (R25, R110). -/
def State.openBy (s : State) : Option Nat :=
  if s.slot.tag = .pending then (if s.handler = some .c2 then none else s.slot.owner)
  else match s.nextMicro with
    | some m => if needsOpen m then some s.cur else none
    | none => none

/-- The invariant of the machine (R25 to R30, R114, R190; the memories' canonical form, log 9). -/
structure State.Inv (s : State) : Prop where
  config : configOk s.insts s.devs
  ram : ramOk s.ram
  devices : ∀ d ∈ s.devs, d.ok
  /-- `slot.tag = Pending` exactly when `slot.owner != none` (R28) -/
  slotOwner : s.slot.tag = .pending ↔ s.slot.owner.isSome = true
  /-- `eng != none` exactly when `slot.tag = Pending` (R30) -/
  slotEngine : s.slot.tag = .pending ↔ s.eng.isSome = true
  /-- the callback reference lives while Pending and until step c4 (R28, C7) -/
  slotCallback : s.slot.cb.isSome = true ↔
    (s.slot.tag = .pending ∨ s.handler = some .c3 ∨ s.handler = some .c4)
  ownerExists : ∀ o, s.slot.owner = some o → o < s.insts.length
  /-- the handler's first two steps run with the slot Pending, the last two with it Idle (R177) -/
  handlerPending : s.handler = some .c1 ∨ s.handler = some .c2 → s.slot.tag = .pending
  handlerIdle : s.handler = some .c3 ∨ s.handler = some .c4 → s.slot.tag = .idle
  /-- while Pending or in the handler no operation is past its start but the submitting one at its `Return` (R225, R231) -/
  onlyReturnLeft : s.slot.tag = .pending ∨ s.handler ≠ none →
    s.phase = .idle ∨ s.nextMicro = some .ret
  /-- PHASE names a step of an operation on an instance that exists and, but for `begin`, is begun (R22, R224) -/
  phaseStep : ∀ op k, s.phase = .busy op k →
    microAt op k ≠ none ∧ s.cur < s.insts.length ∧ (op ≠ .begin → (s.inst s.cur).begun = true)
  /-- an asynchronous operation runs with a callback (R140) -/
  asyncCallback : ∀ op k, s.phase = .busy op k → isAsync op = true → s.held.cb.isSome = true
  /-- `txn_open` is 1 for the instance that owns the bus and for no other (R25, R114) -/
  txnOpen : ∀ i < s.insts.length, ((s.inst i).txnOpen = true ↔ s.openBy = some i)
  /-- the owner's chip select is asserted and no other (R26, R114) -/
  chipSelects : s.csAsserted = (match s.openBy with | some i => [(s.inst i).csId] | none => [])
  /-- while a transaction is open the bus is ours (R114; log 23) -/
  busOurs : s.openBy ≠ none → s.busCfg = .ours
  /-- between `Configure` and `SetCS` the bus is ours (R112; log 23) -/
  openingOurs : s.nextMicro = some .settle ∨ s.nextMicro = some .select → s.busCfg = .ours
  /-- on a dedicated bus the configuration holds from `begin` on (R111) -/
  dedicatedOurs : s.anyShared = false → (∃ x ∈ s.insts, x.begun = true) ∨ s.nextMicro = some .setBegun →
    s.busCfg = .ours

/-- What R114 says of a state: at most one transaction is open, at most one chip select is asserted, an instance's chip select is asserted exactly when its transaction is open, and while one is open the bus is ours. -/
def State.busOwned (s : State) : Prop :=
  (∀ i j, i < s.insts.length → j < s.insts.length →
      (s.inst i).txnOpen = true → (s.inst j).txnOpen = true → i = j) ∧
    (∀ b c, s.cs b = .asserted → s.cs c = .asserted → b = c) ∧
    (∀ i < s.insts.length, s.cs (s.inst i).csId = .asserted ↔ (s.inst i).txnOpen = true) ∧
    (∀ i < s.insts.length, (s.inst i).txnOpen = true → s.busCfg = .ours)

/-! ## Chunks -/

/-- A range operation. -/
def isRange : HostOp → Bool
  | .rangeRead => true
  | .rangeWrite => true
  | _ => false

/-- Inside a pass of the chunk loop the chunk has 1 to 256 bytes, no more than remain, and does not cross a page boundary (R158). -/
def State.chunkInv (s : State) : Prop :=
  ∀ op k, s.phase = .busy op k → isRange op = true → k ≠ 0 → s.nextMicro ≠ some .ret →
    1 ≤ s.cnt.toNat ∧ s.cnt.toNat ≤ 256 ∧ s.cnt.toNat ≤ s.rem.toNat ∧
      pageOffset s.addr.toNat + s.cnt.toNat ≤ 256

/-! ## The wire commands of a trace (R92) -/

/-- One event read while rebuilding the list of wire commands: the chip select that waits for its opcode, and the commands so far as (instance, opcode). -/
def scanEvent (acc : Option Nat × List (Nat × Byte)) (e : Event) : Option Nat × List (Nat × Byte) :=
  match e with
  | .cs i .asserted => (some i, acc.2)
  | .cs _ .deasserted => (none, acc.2)
  | .reset => (none, acc.2)
  | .x (some (op :: _)) _ =>
    match acc.1 with
    | some i => (none, acc.2 ++ [(i, op)])
    | none => acc
  | _ => acc

/-- The wire commands of a trace, split at the chip-select events, byte 0 of each (R92). -/
def scanTrace (es : List Event) : Option Nat × List (Nat × Byte) := es.foldl scanEvent (none, [])

/-- The opcodes sent to the device of instance `i`, in order (R92). -/
def wireCmds (i : Nat) (es : List Event) : List Byte :=
  ((scanTrace es).2.filter fun c => decide (c.1 = i)).map fun c => c.2

/-- An opcode that programs or erases the array (R92). -/
def isArrayWrite (op : Byte) : Bool :=
  decide (op = Config.opPP) || decide (op = Config.opSE) || decide (op = Config.opBE) || decide (op = Config.opCE)

/-- Every program and erase command is immediately preceded by a `WREN`, and that `WREN` by an `RDSR`, so by exactly one (R92, R268). -/
def disciplined (l : List Byte) : Prop :=
  ∀ k, ∀ op, l[k]? = some op → isArrayWrite op = true →
    2 ≤ k ∧ l[k - 1]? = some Config.opWREN ∧ l[k - 2]? = some Config.opRDSR

/-- The next frame an operation sends from step `k` on. -/
def nextSend (op : HostOp) (k : Nat) : Option Cmd :=
  ((program op).drop k).findSome? fun m => match m with | .send c => some c | _ => none

/-- The write-enable discipline holds of every device's commands so far, and the running operation is where it will go on holding: at a frame the opened transaction waits for its opcode; before a program or erase frame the last two commands are `RDSR`, `WREN`; before the `WREN` of a write or erase the last is `RDSR` (R268). -/
structure State.Disciplined (s : State) : Prop where
  kept : ∀ i, disciplined (wireCmds i s.trace)
  awaiting : ∀ c, s.nextMicro = some (.send c) → (scanTrace s.trace).1 = some s.cur
  /-- the bytes of a data phase are no opcode -/
  dataPhase : s.nextMicro = some .dataOut → (scanTrace s.trace).1 = none
  beforeWrite : ∀ op k c, s.phase = .busy op k → nextSend op k = some c →
    c = .pp ∨ c = .se ∨ c = .be ∨ c = .ce →
    ∃ l, wireCmds s.cur s.trace = l ++ [Config.opRDSR, Config.opWREN]
  beforeWren : ∀ op k, s.phase = .busy op k → op ≠ .writeEnable → nextSend op k = some .wren →
    ∃ l, wireCmds s.cur s.trace = l ++ [Config.opRDSR]

/-! ## Runs -/

/-- A run has ended well (R254). -/
def State.endedWell (s : State) : Prop :=
  s.phase = .idle ∧ s.handler = none ∧ s.slot.tag = .idle ∧ s.slot.cb = none ∧
    (∀ x ∈ s.insts, x.txnOpen = false) ∧ s.csAsserted = []

/-- The same for a claim about the arrays: every device is also at rest (R254). -/
def State.endedAtRest (s : State) : Prop :=
  s.endedWell ∧ ∀ d ∈ s.devs, d.job = none ∧ d.busy = false

/-- The run from `s` reaches a state with `P`; past a refusal a run reaches nothing (R222). -/
def State.eventually (P : State → Prop) (s : State) : Prop :=
  ∃ n t, Host.Core.run core n s = .next t ∧ P t

/-- Every state the run from `s` reaches has `P`. -/
def State.always (P : State → Prop) (s : State) : Prop :=
  ∀ n t, Host.Core.run core n s = .next t → P t

/-- The device of instance `i` takes its step `finish` (R195) in the run from `s`. -/
def State.finishes (i : Nat) (s : State) : Prop :=
  s.eventually fun t => ∃ l, t.trace = s.trace ++ l ∧ .fin i ∈ l

/-- The engine raises the completion of the exchange in flight in the run from `s`: the completion is due in a state that takes it, so the exchange has been performed, and no reset has dropped it (R178, R231; log 46). -/
def State.completes (s : State) : Prop :=
  s.eventually fun t => t.completionEnabled = true ∧ (∃ rest, t.inputs = .packet .completion :: rest) ∧
    ∃ l, t.trace = s.trace ++ l ∧ .reset ∉ l

/-- `FAIR_DEVICE` (R228, D26) of the run from `s`: wherever a device is busy, it eventually finishes. -/
def State.fairDevice (s : State) : Prop :=
  s.always fun u => ∀ i d, u.devs[i]? = some d → d.busy = true → u.finishes i

/-- `FAIR_ENGINE` (R229, D26) of the run from `s`: wherever an exchange is in flight whose completion has not been taken, it is eventually performed and completed. -/
def State.fairEngine (s : State) : Prop :=
  s.always fun u => u.eng ≠ none → u.handler = none → u.completes

/-! ## The conditions of the statements about one operation -/

/-- The operation of a host request instruction. -/
def hostRequest : Instr → Option Request
  | .begin i => some { op := .begin, i := i }
  | .readStatus i => some { op := .readStatus, i := i }
  | .isWriteInProgress i => some { op := .isWriteInProgress, i := i }
  | .waitForWriteComplete i => some { op := .waitForWriteComplete, i := i }
  | .writeStatus i v => some { op := .writeStatus, i := i, status := v }
  | .writeEnable i => some { op := .writeEnable, i := i }
  | .jedecIdRead i => some { op := .jedecIdRead, i := i }
  | .isValidChip i => some { op := .isValidChip, i := i }
  | .pageReadSync i a p l => some { op := .pageReadSync, i := i, addr := a, p := p, len := l }
  | .pageReadAsync i a p l cb x => some { op := .pageReadAsync, i := i, addr := a, p := p, len := l, cb := cb, ctx := x }
  | .pageWriteSync i a p l => some { op := .pageWriteSync, i := i, addr := a, p := p, len := l }
  | .pageWriteAsync i a p l cb x => some { op := .pageWriteAsync, i := i, addr := a, p := p, len := l, cb := cb, ctx := x }
  | .rangeRead i a p l => some { op := .rangeRead, i := i, addr := a, p := p, len := l }
  | .rangeWrite i a p l => some { op := .rangeWrite, i := i, addr := a, p := p, len := l }
  | .sectorErase i a => some { op := .sectorErase, i := i, addr := a }
  | .blockErase i a => some { op := .blockErase, i := i, addr := a }
  | .chipErase i => some { op := .chipErase, i := i }
  | .completion => none
  | .jedecid _ _ _ _ => none
  | .rdsr _ _ => none
  | .wrsr _ _ => none
  | .wren _ => none
  | .read _ _ _ => none
  | .pp _ _ _ => none
  | .se _ _ => none
  | .be _ _ => none
  | .ce _ => none

/-- No input cuts the execution unit's turn short (log 12). -/
def State.wholeTurn (s : State) : Prop := ∀ n rest, s.inputs ≠ .run n :: rest

/-- The machine is in caller context with PHASE idle, the slot Idle, every chip select deasserted, instance `i` existing with its transaction closed, and no input cuts the execution unit's turn short. -/
structure State.Quiet (i : Nat) (s : State) : Prop where
  handler : s.handler = none
  phase : s.phase = .idle
  slot : s.slot.tag = .idle
  chipSelects : s.csAsserted = []
  exists_ : i < s.insts.length
  closed : (s.inst i).txnOpen = false
  csDistinct : (s.insts.map fun x => x.csId).Nodup
  turn : s.wholeTurn

/-- Quiet, with the instance begun, its bus configured unless every transaction configures it (R112), and `d` the chip that is there. -/
structure State.Ready (i : Nat) (d : Device) (s : State) : Prop extends State.Quiet i s where
  begun : (s.inst i).begun = true
  bus : (s.inst i).shared = true ∨ s.busCfg = .ours
  device : s.devs[i]? = some d
  present : d.present = true

/-- The events of `beginTransaction` on instance `i` before the chip select (R112): none on a dedicated bus. -/
def State.openingEvents (i : Nat) (s : State) : List Event :=
  if (s.inst i).shared then [.cfg i, .settle Config.tSettle] else []

/-- `bus_cfg` after a transaction of instance `i` (R112, R113). -/
def State.busAfter (i : Nat) (s : State) : BusCfg :=
  if (s.inst i).shared then .ours else s.busCfg

/-- What a completed synchronous operation on instance `i` leaves as it was: every instance's configuration and flags, the chip selects, the slot, the engine, the context; the other devices; and `bus_cfg` but for the configuration its own transactions make. PHASE is idle again. -/
structure State.SyncFrame (i : Nat) (s t : State) : Prop where
  phase : t.phase = .idle
  handler : t.handler = s.handler
  insts : t.insts = s.insts
  chipSelects : t.csAsserted = s.csAsserted
  slot : t.slot = s.slot
  eng : t.eng = s.eng
  bus : t.busCfg = s.busAfter i
  others : ∀ j, j ≠ i → t.devs[j]? = s.devs[j]?
  count : t.devs.length = s.devs.length

/-- The registers a status or control operation does not write are unchanged: `ADDR`, `PTR`, `REM`, `CNT`. -/
def State.sameTransferRegs (s t : State) : Prop :=
  t.addr = s.addr ∧ t.ptr = s.ptr ∧ t.rem = s.rem ∧ t.cnt = s.cnt

/-- The frame of a status or control operation that slept at no poll: `CUR` names the instance, the transfer registers, the host's memory and the inputs are as they were. -/
structure State.ControlFrame (i : Nat) (s t : State) : Prop extends State.SyncFrame i s t where
  cur : t.cur = i
  regs : s.sameTransferRegs t
  ram : t.ram = s.ram
  inputs : t.inputs = s.inputs

/-- The frame of a page operation on `len` bytes at flash address `a`, buffer `p`: the entry registers keep their entry values (R147), `REM` and `ID` are not written. -/
structure State.PageFrame (i : Nat) (a : Addr) (p : Ptr) (len : Len) (s t : State) : Prop where
  cur : t.cur = i
  addr : t.addr = a
  ptr : t.ptr = p
  cnt : t.cnt = len
  rem : t.rem = s.rem
  ident : t.ident = s.ident

/-- What an asynchronous operation on instance `i` leaves when it returns (R142, R144, R181): PHASE idle, the transaction open, its chip select the only one asserted on a bus that is ours, the slot Pending with the caller's callback and context. -/
structure State.LeftPending (i : Nat) (cb : Option Callback) (ctx : Ctx) (s t : State) : Prop where
  phase : t.phase = .idle
  handler : t.handler = none
  insts : t.insts = s.insts.modify i fun x => { x with txnOpen := true }
  chipSelects : t.csAsserted = [(s.inst i).csId]
  bus : t.busCfg = .ours
  slot : t.slot = { tag := .pending, owner := some i, cb := cb, ctx := ctx }
  ram : t.ram = s.ram
  others : ∀ j, j ≠ i → t.devs[j]? = s.devs[j]?
  count : t.devs.length = s.devs.length

/-- The events of one synchronous transaction of instance `i` (R112, R113). -/
def State.txnEvents (i : Nat) (xs : List Event) (s : State) : List Event :=
  s.openingEvents i ++ .cs i .asserted :: (xs ++ [.cs i .deasserted])

/-- The events of one `RDSR` transaction that returns `v` (R126). -/
def State.pollEvents (i : Nat) (r v : Byte) (s : State) : List Event :=
  s.txnEvents i [.x (some [Config.opRDSR, Config.dummyTx]) [r, v]]

/-- The events of `writeEnable` without its `Return` (R130). -/
def State.enableEvents (i : Nat) (r : Byte) (s : State) : List Event :=
  s.txnEvents i [.x (some [Config.opWREN]) [r]] ++ [.dus Config.tWrenUs]

/-- The events of a write or erase on a device that is idle at its first poll and finishes during the first sleep of the trailing wait (R143, R166): `cmd` the exchanges of the command's transaction, `v` the status at the first poll, `b` while busy, `w` at the end. -/
def State.writeEvents (i : Nat) (cmd : List Event) (r : Fin 4 → Byte) (v b w : Byte) (s : State) : List Event :=
  s.pollEvents i (r 0) v ++ s.enableEvents i (r 1) ++ s.txnEvents i cmd ++ s.pollEvents i (r 2) b
    ++ [.sms Config.tPollMs, .fin i] ++ s.pollEvents i (r 3) w

/-- The operations whose first step is `waitForWriteComplete` (R70). -/
def waitsFirst : HostOp → Bool
  | .waitForWriteComplete => true
  | .writeStatus => true
  | .pageWriteSync => true
  | .pageWriteAsync => true
  | .sectorErase => true
  | .blockErase => true
  | .chipErase => true
  | _ => false

/-- The address a frame carries, `a mod 2^24` (R121), as a number. -/
def flashAddr (a : Addr) : Nat := a.toNat % 16777216

/-- The spec gives the device's answer for wire address `a`: it is inside `CAPACITY`, or the device wraps (R206). -/
def Device.answersAt (d : Device) (a : Nat) : Prop := a < Config.capacity ∨ d.addrMap = .wrap

/-- What a page program of the host's bytes at `p` does to the array, `m` the array afterwards (R203, R204): byte `k` is merged at the address reached by counting inside the page, and every other byte is as before. -/
def Device.programmed (d : Device) (ram : Memory) (a : Addr) (p : Ptr) (len : Len) (m : Memory) : Prop :=
  let base := flashAddr a % 1048576
  (∀ k < len.toNat, m.read (base - base % 256 + (base % 256 + k) % 256) =
      mergeByte d.merge (d.mem.read (base - base % 256 + (base % 256 + k) % 256)) (ram.read (ptrAt p k))) ∧
    ∀ b, (∀ k < len.toNat, base - base % 256 + (base % 256 + k) % 256 ≠ b) → m.read b = d.mem.read b

/-- How many chunks a range has, `ceil((off + len) / 256)` (R158). -/
def chunkCount (a : Addr) (len : Len) : Nat :=
  if len = 0 then 0 else (a.toNat % 256 + len.toNat + 255) / 256

/-- The internal operation a wire command starts (R200, R203, R207 to R209). -/
def startedJob : Wire → Option Job
  | .wrsr v => some (.writeSR v)
  | .pp a data => some (.prog (progWrites a.toNat data))
  | .se a => some (.eraseSector (a.toNat / 4096))
  | .be a => some (.eraseBlock (a.toNat / 65536))
  | .ce => some .eraseChip
  | .jedecid _ _ _ => none
  | .rdsr _ => none
  | .wren => none
  | .read _ _ => none

/-- The wire command that a page write or an erase of the host sends after its `WREN` (R143, R166 to R168). -/
def writeCommand (ram : Memory) (r : Request) : Option Wire :=
  match r.op with
  | .pageWriteSync => some (.pp (r.addr.setWidth 24) (memRead ram r.p r.len.toNat))
  | .sectorErase => some (.se (r.addr.setWidth 24))
  | .blockErase => some (.be (r.addr.setWidth 24))
  | .chipErase => some .ce
  | _ => none

/-- The device with its write-enable latch set and nothing received, as a `WREN` leaves it (R199). -/
def Device.enabled (d : Device) : Device := { d with sr := d.sr ||| 0x02, rxq := [] }

/-- The device as it stands after transactions that changed none of its state: only the received bytes are let go. -/
def Device.released (d : Device) : Device := { d with rxq := [] }

end Sys2Proof.Machine
end

