-- ==== Sys2Proof/Certificates/Slice0/Obligations.lean ====
section
/-! DEFINITION. The statements about the model. OBLIGATIONS.json gives each its title, basis and citations; each docstring says what of spec/ it formalises. -/

open Sys2Proof Sys2Proof.Machine

/-! ## Encodings (30_encoding.md, 41_frame_builder.md) -/

/-- Decoding is the inverse of encoding for every well-formed instruction, with every operand at every value (R81 to R83, R90; the byte layout of a request is the model's, log 1). -/
def Obligations.DecodeEncode : Prop :=
  ∀ i : Instr, i.wellFormed = true → decode (encode i) = .ok i

/-- A frame that decodes is the frame of the command it decodes to, so each wire command has one spelling (R81, R87, R88). -/
def Obligations.FrameHasOneSpelling : Prop :=
  ∀ (bytes : List Byte) (w : Wire), decodeFrame bytes = .ok w →
    w.wellFormed = true ∧ encodeFrame w = bytes

/-- Host codes 0x11 to 0x1F name no operation and a request carrying one is refused with UnknownOp; no request reaches an internal operation, the completion or a wire command (R89). That a request is 24 bytes with its code in byte 0 is log 1; that UnknownOp is the reason even where another of R223 applies too is log 26. -/
def Obligations.ReservedHostCodes : Prop :=
  (∀ (b : Byte) (bytes : List Byte), 0x11 ≤ b.toNat → b.toNat ≤ 0x1F → bytes.length = 23 →
      decode (.request (b :: bytes)) = .error (.unknownOp b.toNat) ∧
      ∀ (s : State) (rest : List Input), s.inputs = .packet (.request (b :: bytes)) :: rest →
        s.hostWaits = false → step s = .refused .unknownOp) ∧
    ∀ (bytes : List Byte) (i : Instr), decode (.request bytes) = .ok i → (hostRequest i).isSome = true

/-- Words written out from the opcode tables (R81, R90) decode to the instructions they stand for. How a table word becomes a packet, with zero operands and instance 0, is the model's choice (log 18), and so is the layout of a request (log 1). -/
def Obligations.TableWords : Prop :=
  decodeTableWord 8 0x00 = some (.begin 0) ∧
  decodeTableWord 8 0x04 = some (.writeStatus 0 0) ∧
  decodeTableWord 8 0x09 = some (.pageReadAsync 0 0 0 0 none 0) ∧
  decodeTableWord 8 0x0C = some (.rangeRead 0 0 0 0) ∧
  decodeTableWord 8 0x10 = some (.chipErase 0) ∧
  decodeTableWord 32 0x9F000000 = some (.jedecid 0 0 0 0) ∧
  decodeTableWord 16 0x0180 = some (.wrsr 0 0x80) ∧
  decodeTableWord 32 0xD7001000 = some (.se 0 0x001000) ∧
  decodeTableWord 32 0xD8020000 = some (.be 0 0x020000)

/-- R120, R55: the frame is the opcode and the 24-bit address, high byte first; an address and that address plus 2^24 give the same frame; the four addressed commands are built so from ADDR. -/
def Obligations.BuildFrame : Prop :=
  (∀ (op : Byte) (a : Addr),
      (buildFrame op a).bytes =
        [op, a.extractLsb' 16 8, a.extractLsb' 8 8, a.extractLsb' 0 8] ∧
      buildFrame op (a + 0x1000000) = buildFrame op a ∧
      buildFrame op 0 = ⟨op, 0, 0, 0⟩) ∧
    ∀ s : State, s.loadFrame .read = buildFrame 0x03 s.addr ∧ s.loadFrame .pp = buildFrame 0x02 s.addr ∧
      s.loadFrame .se = buildFrame 0xD7 s.addr ∧ s.loadFrame .be = buildFrame 0xD8 s.addr

/-- The inverse of the frame builder (R121): the wire address of a built frame is the address modulo 2^24, and two addresses give one frame exactly when they agree there. -/
def Obligations.FrameInverse : Prop :=
  ∀ (op : Byte) (a b : Addr),
    (wireAddr (buildFrame op a).b1 (buildFrame op a).b2 (buildFrame op a).b3).toNat = flashAddr a ∧
      (buildFrame op a = buildFrame op b ↔ flashAddr a = flashAddr b)

/-! ## Reset (10_state.md R43, 70_reset_and_hazards.md R250, R251) -/

/-- R250: what reset leaves, for any instances, devices and host memory beside the sequencer. -/
def Obligations.ResetState : Prop :=
  ∀ (insts : List Inst) (devs : List Device) (ram : Memory),
    let s := State.resetWith insts devs ram
    s.phase = .idle ∧ (∀ x ∈ s.insts, x.begun = false ∧ x.txnOpen = false) ∧
      (∀ c, s.cs c = .deasserted) ∧ s.busCfg = .unconfigured ∧
      s.slot.tag = .idle ∧ s.slot.owner = none ∧ s.slot.cb = none ∧ s.eng = none

/-- A reset input (log 31) puts the sequencer into its reset state and changes neither a device, nor the host's memory, nor an instance's configuration: nothing is sent to a device (R251). -/
def Obligations.ResetArrives : Prop :=
  ∀ (s : State) (rest : List Input), s.inputs = .reset :: rest →
    ∃ t, step s = .next t ∧
      t = { State.resetWith s.insts s.devs s.ram with
        trace := s.trace ++ [.reset], draws := s.draws, inputs := rest } ∧
      t.devs = s.devs ∧ t.ram = s.ram ∧
      t.insts.map (fun x => (x.bus, x.csId, x.shared)) = s.insts.map fun x => (x.bus, x.csId, x.shared)

/-! ## A step and the request port (10_state.md R22, R36; log 12) -/

/-- A packet at the port is decoded and executed, and waits while its port is not free (log 12). One that does not decode is refused by name when it is a request (R89; log 1), and when it is a transaction its bytes reach the device, which ignores them (R210, U19; log 19). The host's table words run as the very next instruction (log 18). -/
def Obligations.StepRunsTheDecodedInstruction : Prop :=
  (∀ (s : State) (p : Packet) (rest : List Input), s.inputs = .packet p :: rest →
      (s.packetWaits p = true → step s = .next s.proceed) ∧
      (s.packetWaits p = false → ∀ i, decode p = .ok i → step s = exec i { s with inputs := rest }) ∧
      (s.packetWaits p = false → ∀ e, decode p = .error e →
        (∀ bytes, p = .request bytes → step s = .refused (refusalOfDecode e)) ∧
        ∀ i mosi, p = .wire i mosi →
          step s = State.wireTransaction i mosi { s with inputs := rest } ∧
          ∀ d, s.devs[i]? = some d → s.csAsserted = [] →
            ∃ rx n, step s = .next { s with
              inputs := rest, devs := s.devs.set i d.released, draws := n
              trace := s.trace ++ [.wire i mosi rx] })) ∧
    ∀ (s : State) (n w : Nat) (i : Instr), decodeTableWord n w = some i →
      step (s.withFetchWord n w) = exec i { s with phase := .idle, handler := none }

/-- A request is accepted only when PHASE is idle; one presented while an operation runs is held, and nothing else changes (R36). -/
def Obligations.RequestWaitsWhileBusy : Prop :=
  ∀ (i : Instr) (r : Request) (s : State), hostRequest i = some r → s.handler = none →
    s.phase ≠ .idle → exec i s = .next { s with inputs := .packet (encode i) :: s.inputs }

/-! ## Refusals (60_exceptions.md R222 to R227) -/

/-- While the slot is Pending every request is refused at acceptance, on every instance, synchronous or asynchronous, `begin` included (R225), and so it is while the completion handler runs. Which reason is given where several of R223 apply is the order of log 26. -/
def Obligations.RefusedWhilePending : Prop :=
  ∀ (i : Instr) (r : Request) (s : State), hostRequest i = some r → s.slot.tag = .pending →
    (s.handler ≠ none → exec i s = .refused .inCallback) ∧
    (s.handler = none → s.phase = .idle →
      ∃ why, exec i s = .refused why ∧
        (why = .opWhilePending ∨ (why = .badInstance ∧ s.insts.length ≤ r.i)))

/-- A request naming an instance that does not exist is refused, and so is one other than `begin` on an instance whose `begin` has not run (R224). The reason given where several of R223 apply is the first in the order of log 26. -/
def Obligations.RefusedBeforeBegin : Prop :=
  ∀ (i : Instr) (r : Request) (s : State), hostRequest i = some r → s.handler = none →
    s.phase = .idle →
    (s.insts.length ≤ r.i → exec i s = .refused .badInstance) ∧
    (r.op ≠ .begin → (s.inst r.i).begun = false → ∃ why, exec i s = .refused why) ∧
    (r.i < s.insts.length → s.slot.tag = .idle → r.op ≠ .begin → (s.inst r.i).begun = false →
      exec i s = .refused .notBegun)

/-- R226: every request made from inside the callback, between steps c3 and c4 of `completion`, is refused. -/
def Obligations.RefusedInCallback : Prop :=
  ∀ (i : Instr) (r : Request) (s : State), hostRequest i = some r → s.handler = some .c4 →
    exec i s = .refused .inCallback ∧
      ∀ rest, i.wellFormed = true →
        step { s with inputs := .packet (encode i) :: rest } = .refused .inCallback

/-- The two reasons of the page operations (R140, R146): a length outside 1 to 256, and an asynchronous operation without a callback. With both, the length is the reason given (log 26). -/
def Obligations.RefusedPageOperands : Prop :=
  ∀ (i : Instr) (r : Request) (s : State), hostRequest i = some r → s.handler = none →
    s.phase = .idle → r.i < s.insts.length → s.slot.tag = .idle → (s.inst r.i).begun = true →
    isPage r.op = true →
    (r.len = 0 ∨ 256 < r.len.toNat → exec i s = .refused .badLength) ∧
    (1 ≤ r.len.toNat → r.len.toNat ≤ 256 → isAsync r.op = true → r.cb = none →
      exec i s = .refused .nullCallback)

/-- A request in caller context with PHASE idle is accepted exactly when none of the conditions of R223 holds; a page transfer that crosses a page boundary is accepted (R146 (b)). -/
def Obligations.AcceptedExactlyWhen : Prop :=
  ∀ (i : Instr) (r : Request) (s : State), hostRequest i = some r → s.handler = none →
    s.phase = .idle →
    ((∃ t, exec i s = .next t) ↔
      r.i < s.insts.length ∧ s.slot.tag = .idle ∧ (r.op ≠ .begin → (s.inst r.i).begun = true) ∧
        (isPage r.op = true → 1 ≤ r.len.toNat ∧ r.len.toNat ≤ 256) ∧
        (isAsync r.op = true → r.cb ≠ none))

/-- Host accesses to its memory (R53, R223, R227; log 27): one that touches the buffer of the exchange in flight is refused; otherwise a read changes nothing and a write stores its bytes. -/
def Obligations.BufferRace : Prop :=
  ∀ (s : State) (p : Ptr) (n : Nat) (bytes : List Byte) (rest : List Input), s.hostWaits = false →
    let touches := fun m => ∃ x q k j, s.eng = some x ∧ (x.tx = some q ∨ x.rxp = some q) ∧ k < m ∧
      j < x.n ∧ ptrAt p k = ptrAt q j
    (s.inputs = .hostRead p n :: rest →
      (touches n → step s = .refused .bufferRace) ∧
      (¬touches n → step s = .next { s with inputs := rest })) ∧
    (s.inputs = .hostWrite p bytes :: rest →
      (touches bytes.length → step s = .refused .bufferRace) ∧
      (¬touches bytes.length → step s = .next { s with inputs := rest, ram := memWrite s.ram p bytes }))

/-! ## The bus guard (40_bus_guard.md) -/

/-- `begin` (R111) deasserts the instance's chip select, configures a dedicated bus and no shared one, sets `begun` and returns; accepted with `begun = 0` and with `begun = 1` alike; refused while the slot is Pending. At the deassertion the device commits the frame it still holds, if any (R191, R251): that it does so when the chip was not selected is log 20 (DEDUCED), and that a frame held across a reset commits just here is log 31 and 42 (DESIGN CHOICE). -/
def Obligations.BeginPreparesAnInstance : Prop :=
  ∀ (i : Nat) (s : State), s.handler = none → s.phase = .idle → i < s.insts.length →
    (s.slot.tag = .pending → exec (.begin i) s = .refused .opWhilePending) ∧
    (s.slot.tag = .idle → s.wholeTurn →
      exec (.begin i) s = .next { s with
        cur := i
        held := { status := 0, cb := none, ctx := 0 }
        csAsserted := s.csAsserted.filter fun c => decide (c ≠ (s.inst i).csId)
        busCfg := if (s.inst i).shared then s.busCfg else .ours
        insts := s.insts.modify i fun x => { x with begun := true }
        devs := s.devs.modify i Device.commit
        trace := s.trace ++ .cs i .deasserted ::
          ((if (s.inst i).shared then [] else [.cfg i]) ++ [.ret .begin .nothing]) })

/-- A foreign master (R27, D29; log 23): its move sets `bus_cfg` to Foreign when some instance is shared, no chip select is asserted, the slot is Idle and no transaction is being opened; otherwise it changes nothing. -/
def Obligations.ForeignMaster : Prop :=
  ∀ (s : State) (rest : List Input), s.inputs = .env .foreign :: rest →
    (s.anyShared = true → s.csAsserted = [] → s.slot.tag = .idle → s.nextMicro ≠ some .settle →
      s.nextMicro ≠ some .select → step s = .next { s with inputs := rest, busCfg := .foreign }) ∧
    (s.anyShared = false ∨ s.csAsserted ≠ [] ∨ s.slot.tag = .pending ∨ s.nextMicro = some .settle ∨
        s.nextMicro = some .select →
      step s = .next { s with inputs := rest })

/-! ## Status and control operations (42_status_control.md) -/

/-- `readStatus` (R126): one `RDSR` transaction, busy or not, returning the second received byte, which is the status register. -/
def Obligations.ReadStatus : Prop :=
  ∀ (i : Nat) (d : Device) (s : State), s.Ready i d →
    ∃ t r, exec (.readStatus i) s = .next t ∧ s.ControlFrame i t ∧ t.devs[i]? = some d.released ∧
      t.st = d.sr ∧ t.f = { s.f with b0 := 0x05, b1 := Config.dummyTx } ∧ t.ident = s.ident ∧
      t.trace = s.trace ++ s.pollEvents i r d.sr ++ [.ret .readStatus (.byte d.sr)]

/-- R127: `isWriteInProgress` is `readStatus` returning bit 0 of the byte and looking at no other. -/
def Obligations.IsWriteInProgress : Prop :=
  ∀ (i : Nat) (d : Device) (s : State), s.Ready i d →
    ∃ t r, exec (.isWriteInProgress i) s = .next t ∧ s.ControlFrame i t ∧
      t.devs[i]? = some d.released ∧
      t.st = d.sr ∧ t.f = { s.f with b0 := 0x05, b1 := Config.dummyTx } ∧ t.ident = s.ident ∧
      t.trace = s.trace ++ s.pollEvents i r d.sr ++
        [.ret .isWriteInProgress (.bit (d.sr.getLsbD 0))]

/-- `waitForWriteComplete` on a device that reports WIP = 0 (R128): exactly one `RDSR` transaction and no sleep. -/
def Obligations.WaitOnAnIdleDevice : Prop :=
  ∀ (i : Nat) (d : Device) (s : State), s.Ready i d → d.sr.getLsbD 0 = false →
    ∃ t r, exec (.waitForWriteComplete i) s = .next t ∧ s.ControlFrame i t ∧
      t.devs[i]? = some d.released ∧
      t.st = d.sr ∧ t.f = { s.f with b0 := 0x05, b1 := Config.dummyTx } ∧ t.ident = s.ident ∧
      t.trace = s.trace ++ s.pollEvents i r d.sr ++ [.ret .waitForWriteComplete .nothing]

/-- `waitForWriteComplete` on a busy device (R128, R195): while other agents move, one at each sleep, it polls and sleeps; when the device has finished during a sleep, the next poll is the last. After `l` moves that do not finish the device there are `l + 2` polls and `l + 1` sleeps, nothing but `RDSR` is sent, and the device is idle at the return. A foreign master may move only on a shared bus, whose instances all configure it (log 24); one turn of the execution unit takes at most `maxSteps` steps (log 12). -/
def Obligations.WaitEndsWhenTheDeviceFinishes : Prop :=
  ∀ (i : Nat) (d : Device) (s : State) (l : List EnvMove) (rest : List Input), s.Ready i d →
    d.sr.getLsbD 0 = true → d.job ≠ none → s.eng = none →
    ((s.inst i).shared = true ∨ s.anyShared = false) → .finish i ∉ l →
    6 * l.length + 13 ≤ Config.maxSteps →
    s.inputs = l.map Input.env ++ .env (.finish i) :: rest →
    ∃ t es k, exec (.waitForWriteComplete i) s = .next t ∧
      t.phase = .idle ∧ t.handler = none ∧ t.insts = s.insts ∧ t.csAsserted = [] ∧ t.slot = s.slot ∧
      t.eng = none ∧ t.busCfg = .ours ∧ t.cur = i ∧ s.sameTransferRegs t ∧ t.ram = s.ram ∧
      t.ident = s.ident ∧ t.inputs = rest ∧ t.devs.length = s.devs.length ∧
      (∀ j, j ≠ i → .finish j ∉ l → t.devs[j]? = s.devs[j]?) ∧
      t.devs[i]? = some (d.released.finish k) ∧ (d.released.finish k).sr.getLsbD 0 = false ∧
      t.st = (d.released.finish k).sr ∧ t.f = { s.f with b0 := 0x05, b1 := Config.dummyTx } ∧
      t.trace = s.trace ++ es ++ [.ret .waitForWriteComplete .nothing] ∧
      wireCmds i t.trace = wireCmds i s.trace ++ List.replicate (l.length + 2) 0x05 ∧
      es.count (.sms Config.tPollMs) = l.length + 1 ∧ es.count (.fin i) = 1 ∧
      (l = [] → ∃ r q, es = s.pollEvents i r d.sr ++ [.sms Config.tPollMs, .fin i] ++
        s.pollEvents i q (d.released.finish k).sr)

/-- Every operation that begins with a wait polls a busy device once and goes to sleep, still running, with nothing sent but the `RDSR` (R70, R128; the step of the model ends there when no agent moves next, log 13). -/
def Obligations.WaitSleepsOnABusyDevice : Prop :=
  ∀ (i : Instr) (r : Request) (d : Device) (s : State), hostRequest i = some r →
    waitsFirst r.op = true → s.Ready r.i d → s.refusalOf r = none → d.sr.getLsbD 0 = true →
    (∀ e rest, s.inputs ≠ .env e :: rest) →
    ∃ t q, exec i s = .next t ∧ t.phase = .busy r.op 0 ∧ t.cur = r.i ∧ t.insts = s.insts ∧
      t.csAsserted = [] ∧ t.slot = s.slot ∧ t.eng = s.eng ∧ t.ram = s.ram ∧
      t.devs = s.devs.set r.i d.released ∧ t.st = d.sr ∧
      t.trace = s.trace ++ s.pollEvents r.i q d.sr ++ [.sms Config.tPollMs]

/-- A device that never finishes hangs every operation that begins with a wait (R228): with no input due, no number of further steps makes PHASE idle, and no step is a fault or a refusal. -/
def Obligations.WaitHangsWithoutFinish : Prop :=
  ∀ (i : Instr) (r : Request) (d : Device) (s : State), hostRequest i = some r →
    waitsFirst r.op = true → s.Ready r.i d → s.refusalOf r = none → d.sr.getLsbD 0 = true →
    s.inputs = [] →
    ∃ t, exec i s = .next t ∧
      ∀ n, ∃ u, Host.Core.run core n t = .next u ∧ State.phase u ≠ .idle

/-- `writeStatus` on an idle device (R129): one `RDSR`, then `WRSR` with the byte as given, neither `WREN` nor a trailing wait; the device takes the job when its write-enable latch is set and no protection refuses it (log 43), and ignores it otherwise. -/
def Obligations.WriteStatus : Prop :=
  ∀ (i : Nat) (v : Byte) (d : Device) (s : State), s.Ready i d → d.sr.getLsbD 0 = false →
    ∃ t r q, exec (.writeStatus i v) s = .next t ∧ s.ControlFrame i t ∧
      t.devs[i]? = some (if d.sr.getLsbD 1 = true ∧ d.protects (.wrsr v) = false then
          { d with job := some (.writeSR v), sr := d.sr ||| 0x01, rxq := [] } else d.released) ∧
      t.st = d.sr ∧ t.f = { s.f with b0 := 0x01, b1 := v } ∧ t.ident = s.ident ∧
      t.trace = s.trace ++ s.pollEvents i r d.sr ++ s.txnEvents i [.x (some [0x01, v]) q] ++
        [.ret .writeStatus .nothing]

/-- `writeEnable` (R130): one `WREN` transaction, then the delay, then the return; the latch is set unless the device is busy. -/
def Obligations.WriteEnable : Prop :=
  ∀ (i : Nat) (d : Device) (s : State), s.Ready i d →
    ∃ t r, exec (.writeEnable i) s = .next t ∧ s.ControlFrame i t ∧
      t.devs[i]? = some (if d.sr.getLsbD 0 then d.released else
          { d with sr := d.sr ||| 0x02, rxq := [] }) ∧
      t.st = s.st ∧ t.f = { s.f with b0 := 0x06 } ∧ t.ident = s.ident ∧
      t.trace = s.trace ++ s.enableEvents i r ++ [.ret .writeEnable .nothing]

/-- `jedecIdRead` (R131): one `JEDECID` transaction; the three bytes after the first are captured and returned in order, and they are the identity when the device is not busy. -/
def Obligations.JedecIdRead : Prop :=
  ∀ (i : Nat) (d : Device) (s : State), s.Ready i d →
    ∃ t r, ∃ id : Ident, exec (.jedecIdRead i) s = .next t ∧ s.ControlFrame i t ∧
      t.devs[i]? = some d.released ∧ (d.sr.getLsbD 0 = false → id = d.ident) ∧
      t.ident = id ∧ t.st = s.st ∧
      t.f = ⟨0x9F, Config.dummyTx, Config.dummyTx, Config.dummyTx⟩ ∧
      t.trace = s.trace ++
        s.txnEvents i [.x (some [0x9F, Config.dummyTx, Config.dummyTx, Config.dummyTx])
          [r, id.mfr, id.dev1, id.dev2]] ++ [.ret .jedecIdRead (.bytes3 id)]

/-- `isValidChip` (R132): as `jedecIdRead`, returning whether all three bytes match the signature. -/
def Obligations.IsValidChip : Prop :=
  ∀ (i : Nat) (d : Device) (s : State), s.Ready i d →
    ∃ t r, ∃ id : Ident, exec (.isValidChip i) s = .next t ∧ s.ControlFrame i t ∧
      t.devs[i]? = some d.released ∧ (d.sr.getLsbD 0 = false → id = d.ident) ∧
      t.ident = id ∧ t.st = s.st ∧
      t.f = ⟨0x9F, Config.dummyTx, Config.dummyTx, Config.dummyTx⟩ ∧
      t.trace = s.trace ++
        s.txnEvents i [.x (some [0x9F, Config.dummyTx, Config.dummyTx, Config.dummyTx])
          [r, id.mfr, id.dev1, id.dev2]] ++
        [.ret .isValidChip (.bit (decide (id = ⟨0x9D, 0x13, 0x44⟩)))]

/-! ## Page transfers (43_page_transfer.md) -/

/-- `pageReadSync` (R141, R201): the frame and the data phase in one transaction; byte `k` of the buffer is the device's byte at the frame's address plus `k`, running on across a page boundary, and no other byte of the host's memory changes. -/
def Obligations.PageReadSync : Prop :=
  ∀ (i : Nat) (a : Addr) (p : Ptr) (len : Len) (d : Device) (s : State), s.Ready i d → ramOk s.ram →
    1 ≤ len.toNat → len.toNat ≤ 256 →
    ∃ t r rx, exec (.pageReadSync i a p len) s = .next t ∧ s.SyncFrame i t ∧
      s.PageFrame i a p len t ∧ t.inputs = s.inputs ∧ t.devs[i]? = some d.released ∧
      t.st = s.st ∧ t.f = buildFrame 0x03 a ∧ rx.length = len.toNat ∧
      t.trace = s.trace ++ s.txnEvents i
          [.x (some (buildFrame 0x03 a).bytes) r, .x none rx] ++ [.ret .pageReadSync .nothing] ∧
      (∀ k < len.toNat, rx[k]? = some (t.ram.read (ptrAt p k))) ∧
      (∀ b, (∀ k < len.toNat, ptrAt p k ≠ b) → t.ram.read b = s.ram.read b) ∧
      (d.sr.getLsbD 0 = false → ∀ k < len.toNat, d.answersAt (flashAddr a + k) →
        t.ram.read (ptrAt p k) = d.mem.read ((flashAddr a + k) % 1048576))

/-- `pageReadAsync` (R142): the frame is sent, the data phase is submitted, and the operation returns with the transaction open and the host's memory untouched. -/
def Obligations.PageReadAsync : Prop :=
  ∀ (i : Nat) (a : Addr) (p : Ptr) (len : Len) (cb : Callback) (ctx : Ctx) (d : Device) (s : State),
    s.Ready i d → 1 ≤ len.toNat → len.toNat ≤ 256 →
    ∃ t r, exec (.pageReadAsync i a p len (some cb) ctx) s = .next t ∧
      s.LeftPending i (some cb) ctx t ∧ s.PageFrame i a p len t ∧ t.inputs = s.inputs ∧
      t.eng = some { tx := none, rxp := some p, n := len.toNat, performed := false } ∧
      t.devs[i]? = some { d with rxq := (buildFrame 0x03 a).bytes } ∧
      t.st = s.st ∧ t.f = buildFrame 0x03 a ∧
      t.trace = s.trace ++ s.openingEvents i ++ [.cs i .asserted,
        .x (some (buildFrame 0x03 a).bytes) r, .xa none (some p) len.toNat,
        .ret .pageReadAsync .nothing]

/-- `pageWriteSync` (R143, R203) on an idle device that does not refuse the program for protection (log 43) and finishes during the first sleep of the trailing wait: wait, one `WREN`, delay, `PP`, wait; at the return the device is idle and the bytes are in the array, a transfer past the page's end having wrapped inside it. -/
def Obligations.PageWriteSync : Prop :=
  ∀ (i : Nat) (a : Addr) (p : Ptr) (len : Len) (d : Device) (s : State) (rest : List Input),
    s.Ready i d → d.ok → d.sr.getLsbD 0 = false → 1 ≤ len.toNat → len.toNat ≤ 256 →
    d.enabled.protects (.pp (a.setWidth 24) (memRead s.ram p len.toNat)) = false →
    s.inputs = .env (.finish i) :: rest →
    ∃ t m r q q', exec (.pageWriteSync i a p len) s = .next t ∧ s.SyncFrame i t ∧
      s.PageFrame i a p len t ∧ t.ram = s.ram ∧ t.inputs = rest ∧
      t.devs[i]? = some { d with mem := m, sr := d.sr &&& 0xFC, job := none, rxq := [] } ∧
      t.st = d.sr &&& 0xFC ∧ t.f = { buildFrame 0x02 a with b0 := 0x05, b1 := Config.dummyTx } ∧
      t.trace = s.trace ++ s.writeEvents i
          [.x (some (buildFrame 0x02 a).bytes) q, .x (some (memRead s.ram p len.toNat)) q']
          r d.sr (d.sr ||| 0x03) (d.sr &&& 0xFC) ++ [.ret .pageWriteSync .nothing] ∧
      (d.answersAt (flashAddr a) → d.programmed s.ram a p len m)

/-- `pageWriteAsync` (R144) on an idle device: wait, one `WREN`, delay, the frame, the submission, and a return with the transaction open; nothing is programmed yet. -/
def Obligations.PageWriteAsync : Prop :=
  ∀ (i : Nat) (a : Addr) (p : Ptr) (len : Len) (cb : Callback) (ctx : Ctx) (d : Device) (s : State),
    s.Ready i d → d.sr.getLsbD 0 = false → 1 ≤ len.toNat → len.toNat ≤ 256 →
    ∃ t r r' q, exec (.pageWriteAsync i a p len (some cb) ctx) s = .next t ∧
      s.LeftPending i (some cb) ctx t ∧ s.PageFrame i a p len t ∧ t.inputs = s.inputs ∧
      t.eng = some { tx := some p, rxp := none, n := len.toNat, performed := false } ∧
      t.devs[i]? = some { d with sr := d.sr ||| 0x02, rxq := (buildFrame 0x02 a).bytes } ∧
      t.st = d.sr ∧ t.f = buildFrame 0x02 a ∧
      t.trace = s.trace ++ s.pollEvents i r d.sr ++ s.enableEvents i r' ++ s.openingEvents i ++
        [.cs i .asserted, .x (some (buildFrame 0x02 a).bytes) q, .xa (some p) none len.toNat,
          .ret .pageWriteAsync .nothing]

/-! ## The completion dispatcher (46_async_dispatcher.md) -/

/-- The engine's step (R178): with the owner's chip selected alone on a bus that is ours, it moves the bytes once, from or into the host's buffer, and marks the exchange performed. With no exchange in flight, or one already performed, its move changes nothing. -/
def Obligations.EnginePerforms : Prop :=
  ∀ (s : State) (rest : List Input), s.inputs = .env .perform :: rest →
    (∀ (x : Transfer) (i : Nat) (d : Device), s.eng = some x → x.performed = false →
      i < s.insts.length → (s.insts.map fun y => y.csId).Nodup →
      s.csAsserted = [(s.inst i).csId] → s.busCfg = .ours → s.devs[i]? = some d →
      ∃ tx rx k, rx = d.answers k tx ∧ tx.length = x.n ∧
        (∀ p, x.tx = some p → tx = memRead s.ram p x.n) ∧
        ∃ n, step s = .next { s with
          inputs := rest, draws := n, eng := some { x with performed := true }
          devs := s.devs.set i (d.receive tx)
          ram := (match x.rxp with | some p => memWrite s.ram p rx | none => s.ram)
          trace := s.trace ++ [.xp tx rx] }) ∧
    (s.eng = none ∨ (∃ x, s.eng = some x ∧ x.performed = true) →
      step s = .next { s with inputs := rest })

/-- `completion` (R177, R231, R232): the owner's transaction is closed, the slot emptied with its context left stale, the engine idle and the callback invoked once with the original context; PHASE and the working registers are not touched. -/
def Obligations.Completion : Prop :=
  ∀ (s : State) (x : Transfer) (o : Nat), s.handler = none → s.slot.tag = .pending →
    s.slot.owner = some o → s.eng = some x → x.performed = true → s.wholeTurn →
    exec .completion s = .next { s with
      csAsserted := s.csAsserted.filter fun c => decide (c ≠ (s.inst o).csId)
      insts := s.insts.modify o fun y => { y with txnOpen := false }
      devs := s.devs.modify o Device.commit
      slot := { tag := .idle, owner := none, cb := none, ctx := s.slot.ctx }
      eng := none
      trace := s.trace ++ [.cs o .deasserted, .cb s.slot.cb s.slot.ctx] }

/-- A completion that the engine cannot have raised is refused (R175, R178; log 16). -/
def Obligations.CompletionNotEnabled : Prop :=
  ∀ s : State,
    s.slot.tag = .idle ∨ s.eng = none ∨ (∃ x, s.eng = some x ∧ x.performed = false) ∨
      s.handler ≠ none →
    exec .completion s = .refused .completionNotEnabled

/-- The life of an asynchronous read (R181, R68): from the request to the engine's step to the completion, with the device's bytes in the buffer when the callback is invoked, the callback invoked once with the original context, and the transaction closed. -/
def Obligations.AsyncReadLifecycle : Prop :=
  ∀ (i : Nat) (a : Addr) (p : Ptr) (len : Len) (cb : Callback) (ctx : Ctx) (d : Device) (s : State)
    (rest : List Input), s.Ready i d → ramOk s.ram → d.sr.getLsbD 0 = false → 1 ≤ len.toNat →
    len.toNat ≤ 256 → s.inputs = .env .perform :: .packet .completion :: rest →
    State.wholeTurn { s with inputs := rest } →
    ∃ t u v tx rx, exec (.pageReadAsync i a p len (some cb) ctx) s = .next t ∧
      t.slot.tag = .pending ∧ t.slot.owner = some i ∧ (t.inst i).txnOpen = true ∧
      t.cs (s.inst i).csId = .asserted ∧ t.ram = s.ram ∧
      step t = .next u ∧ step u = .next v ∧
      v.slot = { tag := .idle, owner := none, cb := none, ctx := ctx } ∧ v.eng = none ∧
      v.insts = s.insts ∧ v.csAsserted = [] ∧ v.phase = .idle ∧ v.handler = none ∧
      v.devs[i]? = some d.released ∧ v.inputs = rest ∧
      v.trace = t.trace ++ [.xp tx rx, .cs i .deasserted, .cb (some cb) ctx] ∧
      (∀ k < len.toNat, d.answersAt (flashAddr a + k) →
        v.ram.read (ptrAt p k) = d.mem.read ((flashAddr a + k) % 1048576)) ∧
      ∀ b, (∀ k < len.toNat, ptrAt p k ≠ b) → v.ram.read b = s.ram.read b

/-- The life of an asynchronous write (R181, R68 (d), R196): when the callback is invoked the bytes have gone out and the device's write cycle has begun and no more: WIP is 1 and the array unchanged. A device that refuses the program for protection (log 43) has begun nothing. -/
def Obligations.AsyncWriteLifecycle : Prop :=
  ∀ (i : Nat) (a : Addr) (p : Ptr) (len : Len) (cb : Callback) (ctx : Ctx) (d : Device) (s : State)
    (rest : List Input), s.Ready i d → d.sr.getLsbD 0 = false → 1 ≤ len.toNat →
    len.toNat ≤ 256 → s.inputs = .env .perform :: .packet .completion :: rest →
    State.wholeTurn { s with inputs := rest } →
    ∃ t u v rx, exec (.pageWriteAsync i a p len (some cb) ctx) s = .next t ∧
      t.slot.tag = .pending ∧ t.slot.owner = some i ∧ (t.inst i).txnOpen = true ∧
      t.cs (s.inst i).csId = .asserted ∧
      step t = .next u ∧ step u = .next v ∧
      v.slot = { tag := .idle, owner := none, cb := none, ctx := ctx } ∧ v.eng = none ∧
      v.insts = s.insts ∧ v.csAsserted = [] ∧ v.phase = .idle ∧ v.handler = none ∧
      v.ram = s.ram ∧ v.inputs = rest ∧
      v.trace = t.trace ++ [.xp (memRead s.ram p len.toNat) rx, .cs i .deasserted, .cb (some cb) ctx] ∧
      v.devs[i]? = some (if d.enabled.protects (.pp (a.setWidth 24) (memRead s.ram p len.toNat)) then
          d.enabled
        else { d with
          job := some (.prog (progWrites (flashAddr a) (memRead s.ram p len.toNat)))
          sr := d.sr ||| 0x03, rxq := [] })

/-- R234 (a): when the completion becomes pending before the submitting operation has returned, either order of the completion and the `Return` gives the same state; only the trace tells them apart. -/
def Obligations.CompletionAndReturnCommute : Prop :=
  ∀ (s : State) (op : HostOp) (k o : Nat), s.phase = .busy op k → microAt op k = some .ret →
    s.completionEnabled = true → s.slot.owner = some o → s.inputs = [] →
    ∃ t u v w, exec .completion s = .next t ∧ step t = .next u ∧
      step s = .next v ∧ exec .completion v = .next w ∧
      { u with trace := [] } = { w with trace := [] } ∧
      u.trace = s.trace ++ [.cs o .deasserted, .cb s.slot.cb s.slot.ctx, .ret op (s.result op)] ∧
      w.trace = s.trace ++ [.ret op (s.result op), .cs o .deasserted, .cb s.slot.cb s.slot.ctx]

/-! ## Ranges (44_range_chunking.md) -/

/-- The chunk arithmetic (R158, R160): with bytes remaining, a chunk has 1 to 256 bytes, no more than remain, stays inside its page, and is followed by a page start unless it is the last. -/
def Obligations.ChunkArithmetic : Prop :=
  ∀ (a : Addr) (rem : Len), rem ≠ 0 →
    1 ≤ (chunkLen a rem).toNat ∧ (chunkLen a rem).toNat ≤ 256 ∧
      (chunkLen a rem).toNat ≤ rem.toNat ∧ a.toNat % 256 + (chunkLen a rem).toNat ≤ 256 ∧
      ((chunkLen a rem).toNat < rem.toNat → (a + chunkLen a rem).toNat % 256 = 0)

/-- Whatever steps are taken, the running range operation's chunk stays inside its page (R158, R159). -/
def Obligations.ChunkStaysInPage : Prop :=
  ∀ s t : State, s.chunkInv → step s = .next t → t.chunkInv

/-- Zero length (R161): a range operation of length 0 emits its `RET` and nothing else and writes no working register but CUR, ADDR, PTR and REM; the device sees nothing. -/
def Obligations.RangeOfLengthZero : Prop :=
  ∀ (i : Nat) (a : Addr) (p : Ptr) (s : State), s.handler = none → s.phase = .idle →
    s.slot.tag = .idle → i < s.insts.length → (s.inst i).begun = true → s.wholeTurn →
    ∀ ins op, (ins = .rangeRead i a p 0 ∧ op = .rangeRead) ∨ (ins = .rangeWrite i a p 0 ∧ op = .rangeWrite) →
      exec ins s = .next { s with
        cur := i, addr := a, ptr := p, rem := 0
        held := { status := 0, cb := none, ctx := 0 }
        trace := s.trace ++ [.ret op .nothing] }

/-- `rangeRead` (R156, R158): the buffer holds the linear content of the range, whatever its start and length, read in `ceil((off + len) / 256)` `READ` transactions and no other command. -/
def Obligations.RangeReadIsLinear : Prop :=
  ∀ (i : Nat) (a : Addr) (p : Ptr) (len : Len) (d : Device) (s : State), s.Ready i d → ramOk s.ram →
    len ≠ 0 →
    ∃ t, exec (.rangeRead i a p len) s = .next t ∧ s.SyncFrame i t ∧ t.cur = i ∧ t.st = s.st ∧
      t.ident = s.ident ∧ t.inputs = s.inputs ∧ t.devs[i]? = some d.released ∧
      t.addr = a + len ∧ t.ptr = p + len ∧ t.rem = 0 ∧
      wireCmds i t.trace = wireCmds i s.trace ++ List.replicate (chunkCount a len) 0x03 ∧
      (∀ b, (∀ k < len.toNat, ptrAt p k ≠ b) → t.ram.read b = s.ram.read b) ∧
      (d.sr.getLsbD 0 = false → ∀ k < len.toNat, d.answersAt ((a.toNat + k) % 16777216) →
        t.ram.read (ptrAt p k) = d.mem.read ((a.toNat + k) % 1048576))

/-- `rangeWrite` (R157, R158, R159) on an idle device that refuses nothing for protection (log 43) and finishes during the first sleep of every chunk's trailing wait: each chunk is a complete page write, split as for a read, and the bytes land linearly with no wrap inside a page. -/
def Obligations.RangeWriteIsLinear : Prop :=
  ∀ (i : Nat) (a : Addr) (p : Ptr) (len : Len) (d : Device) (s : State) (rest : List Input),
    s.Ready i d → d.ok → d.sr.getLsbD 0 = false → (∀ w, d.enabled.protects w = false) → len ≠ 0 →
    s.inputs = List.replicate (chunkCount a len) (.env (.finish i)) ++ rest →
    ∃ t m, exec (.rangeWrite i a p len) s = .next t ∧ s.SyncFrame i t ∧ t.cur = i ∧
      t.ident = s.ident ∧ t.ram = s.ram ∧ t.inputs = rest ∧
      t.addr = a + len ∧ t.ptr = p + len ∧ t.rem = 0 ∧
      t.devs[i]? = some { d with mem := m, sr := d.sr &&& 0xFC, job := none, rxq := [] } ∧
      wireCmds i t.trace = wireCmds i s.trace ++
        (List.replicate (chunkCount a len) [0x05, 0x06, 0x02, 0x05, 0x05]).flatten ∧
      (flashAddr a + len.toNat ≤ 1048576 ∨ (d.addrMap = .wrap ∧ len.toNat ≤ 1048576) →
        (∀ k < len.toNat, m.read ((a.toNat + k) % 1048576) =
          mergeByte d.merge (d.mem.read ((a.toNat + k) % 1048576)) (s.ram.read (ptrAt p k))) ∧
        ∀ b, (∀ k < len.toNat, (a.toNat + k) % 1048576 ≠ b) → m.read b = d.mem.read b)

/-! ## Erases (45_erase.md) -/

/-- `sectorErase` (R165, R166, R207) on an idle device that does not refuse the erase for protection (log 43) and finishes during the first sleep of the trailing wait: wait, one `WREN`, delay, `SE` with the address as given, wait; the sector holding the address reads 0xFF and no other byte changes. -/
def Obligations.SectorErase : Prop :=
  ∀ (i : Nat) (a : Addr) (d : Device) (s : State) (rest : List Input), s.Ready i d → d.ok →
    d.sr.getLsbD 0 = false → d.enabled.protects (.se (a.setWidth 24)) = false →
    s.inputs = .env (.finish i) :: rest →
    ∃ t m r q, exec (.sectorErase i a) s = .next t ∧ s.SyncFrame i t ∧ t.cur = i ∧ t.addr = a ∧
      t.ptr = s.ptr ∧ t.rem = s.rem ∧ t.cnt = s.cnt ∧ t.ident = s.ident ∧ t.ram = s.ram ∧
      t.inputs = rest ∧
      t.devs[i]? = some { d with mem := m, sr := d.sr &&& 0xFC, job := none, rxq := [] } ∧
      t.st = d.sr &&& 0xFC ∧ t.f = { buildFrame 0xD7 a with b0 := 0x05, b1 := Config.dummyTx } ∧
      t.trace = s.trace ++ s.writeEvents i [.x (some (buildFrame 0xD7 a).bytes) q]
          r d.sr (d.sr ||| 0x03) (d.sr &&& 0xFC) ++ [.ret .sectorErase .nothing] ∧
      (d.answersAt (flashAddr a) → ∀ b, m.read b =
        if b / 4096 = flashAddr a % 1048576 / 4096 then 0xFF else d.mem.read b)

/-- `blockErase` (R165, R167, R208): as `sectorErase`, with `BE` and the 65536-byte block. -/
def Obligations.BlockErase : Prop :=
  ∀ (i : Nat) (a : Addr) (d : Device) (s : State) (rest : List Input), s.Ready i d → d.ok →
    d.sr.getLsbD 0 = false → d.enabled.protects (.be (a.setWidth 24)) = false →
    s.inputs = .env (.finish i) :: rest →
    ∃ t m r q, exec (.blockErase i a) s = .next t ∧ s.SyncFrame i t ∧ t.cur = i ∧ t.addr = a ∧
      t.ptr = s.ptr ∧ t.rem = s.rem ∧ t.cnt = s.cnt ∧ t.ident = s.ident ∧ t.ram = s.ram ∧
      t.inputs = rest ∧
      t.devs[i]? = some { d with mem := m, sr := d.sr &&& 0xFC, job := none, rxq := [] } ∧
      t.st = d.sr &&& 0xFC ∧ t.f = { buildFrame 0xD8 a with b0 := 0x05, b1 := Config.dummyTx } ∧
      t.trace = s.trace ++ s.writeEvents i [.x (some (buildFrame 0xD8 a).bytes) q]
          r d.sr (d.sr ||| 0x03) (d.sr &&& 0xFC) ++ [.ret .blockErase .nothing] ∧
      (d.answersAt (flashAddr a) → ∀ b, m.read b =
        if b / 65536 = flashAddr a % 1048576 / 65536 then 0xFF else d.mem.read b)

/-- `chipErase` (R165, R168, R209): as `sectorErase`, with the one-byte `CE` frame; every byte reads 0xFF. -/
def Obligations.ChipErase : Prop :=
  ∀ (i : Nat) (d : Device) (s : State) (rest : List Input), s.Ready i d → d.ok →
    d.sr.getLsbD 0 = false → d.enabled.protects (.ce) = false →
    s.inputs = .env (.finish i) :: rest →
    ∃ t m r q, exec (.chipErase i) s = .next t ∧ s.SyncFrame i t ∧ t.cur = i ∧
      s.sameTransferRegs t ∧ t.ident = s.ident ∧ t.ram = s.ram ∧ t.inputs = rest ∧
      t.devs[i]? = some { d with mem := m, sr := d.sr &&& 0xFC, job := none, rxq := [] } ∧
      t.st = d.sr &&& 0xFC ∧ t.f = { s.f with b0 := 0x05, b1 := Config.dummyTx } ∧
      t.trace = s.trace ++ s.writeEvents i [.x (some [0xC7]) [q]]
          r d.sr (d.sr ||| 0x03) (d.sr &&& 0xFC) ++ [.ret .chipErase .nothing] ∧
      ∀ b, m.read b = 0xFF

/-- A page write or an erase on an idle device with nobody else about to move (R221, R266, N10; log 43). Where the device refuses the command for protection, nobody reports it: the operation returns as ever after the commands `RDSR`, `WREN`, the command and `RDSR`, with the write-enable latch left set and nothing else changed in the device. Where it does not, the device's cycle has begun and the operation sleeps in its trailing wait. -/
def Obligations.ProtectionIsSilent : Prop :=
  ∀ (ins : Instr) (r : Request) (w : Wire) (j : Job) (d : Device) (s : State),
    hostRequest ins = some r → writeCommand s.ram r = some w → startedJob w = some j →
    s.Ready r.i d → s.refusalOf r = none → d.sr.getLsbD 0 = false →
    (∀ e rest, s.inputs ≠ .env e :: rest) →
    ∃ t es, exec ins s = .next t ∧ t.insts = s.insts ∧ t.csAsserted = [] ∧ t.slot = s.slot ∧
      t.eng = s.eng ∧ t.ram = s.ram ∧ t.ident = s.ident ∧ t.inputs = s.inputs ∧ t.cur = r.i ∧
      wireCmds r.i (s.trace ++ es) =
        wireCmds r.i s.trace ++ [0x05, 0x06] ++ (encodeFrame w).take 1 ++ [0x05] ∧
      (d.enabled.protects w = true →
        t.phase = .idle ∧ t.devs = s.devs.set r.i d.enabled ∧ t.st = d.sr ||| 0x02 ∧
        t.trace = s.trace ++ es ++ [.ret r.op .nothing]) ∧
      (d.enabled.protects w = false →
        (∃ k, t.phase = .busy r.op k) ∧
        t.devs = s.devs.set r.i { d with job := some j, sr := d.sr ||| 0x03, rxq := [] } ∧
        t.st = d.sr ||| 0x03 ∧ t.trace = s.trace ++ es ++ [.sms Config.tPollMs])

/-! ## Wire commands as raw transactions (47_wire_commands.md; log 17) -/

/-- `RDSR` (R198) as a raw transaction from outside the sequencer (log 17): served busy or not, it returns the status register in byte 1 and changes no state of the device, so a second one returns the same byte. -/
def Obligations.RdsrOnTheWire : Prop :=
  ∀ (i : Nat) (b : Byte) (d : Device) (s : State), s.csAsserted = [] → s.devs[i]? = some d →
    d.present = true →
    ∃ r n, exec (.rdsr i b) s = .next { s with
      devs := s.devs.set i d.released, draws := n
      trace := s.trace ++ [.wire i [0x05, b] [r, d.sr]] } ∧ d.released.sr = d.sr

/-- `JEDECID` (R197, R193): bytes 1 to 3 are the identity when the device is not busy; no state changes. -/
def Obligations.JedecidOnTheWire : Prop :=
  ∀ (i : Nat) (b1 b2 b3 : Byte) (d : Device) (s : State), s.csAsserted = [] → s.devs[i]? = some d →
    d.present = true →
    ∃ r n, ∃ id : Ident, (d.sr.getLsbD 0 = false → id = d.ident) ∧
      exec (.jedecid i b1 b2 b3) s = .next { s with
        devs := s.devs.set i d.released, draws := n
        trace := s.trace ++ [.wire i [0x9F, b1, b2, b3] [r, id.mfr, id.dev1, id.dev2]] }

/-- `READ` (R201, R202, R206): data byte `k` is frame byte `4 + k` and is the array's byte at `A + k`, running on across pages, when the device is not busy; no state changes. -/
def Obligations.ReadOnTheWire : Prop :=
  ∀ (i : Nat) (a : WireAddr) (out : List Byte) (d : Device) (s : State), s.csAsserted = [] →
    s.devs[i]? = some d → d.present = true → 1 ≤ out.length →
    ∃ rx n, rx.length = 4 + out.length ∧
      (d.sr.getLsbD 0 = false → ∀ k < out.length, d.answersAt (a.toNat + k) →
        rx[4 + k]? = some (d.mem.read ((a.toNat + k) % 1048576))) ∧
      exec (.read i a out) s = .next { s with
        devs := s.devs.set i d.released, draws := n
        trace := s.trace ++ [.wire i (0x03 :: a.extractLsb' 16 8 :: a.extractLsb' 8 8 ::
          a.extractLsb' 0 8 :: out) rx] }

/-- `WREN` (R199): at deassertion WEL becomes 1, or stays 1, unless the device is busy. -/
def Obligations.WrenOnTheWire : Prop :=
  ∀ (i : Nat) (d : Device) (s : State), s.csAsserted = [] → s.devs[i]? = some d →
    d.present = true →
    ∃ r n, exec (.wren i) s = .next { s with
      devs := s.devs.set i (if d.sr.getLsbD 0 then d.released else
        { d with sr := d.sr ||| 0x02, rxq := [] })
      draws := n, trace := s.trace ++ [.wire i [0x06] [r]] }

/-- `WRSR`, `PP`, `SE`, `BE`, `CE` (R193, R194, R200, R203, R207 to R209): at deassertion the job starts and WIP becomes 1 when WIP was 0 and WEL 1 and no protection refuses the command (log 43); otherwise the command is ignored. Data byte `k` of `PP` is aimed inside the page; of more than 256 bytes the last 256 count (log 44). -/
def Obligations.WriteCommandsStartTheirJob : Prop :=
  (∀ (w : Wire) (j : Job) (i : Nat) (d : Device) (s : State), startedJob w = some j →
      w.wellFormed = true → s.csAsserted = [] → s.devs[i]? = some d → d.present = true →
      ∃ rx n, exec (w.instr i) s = .next { s with
        devs := s.devs.set i
          (if d.sr.getLsbD 0 = false ∧ d.sr.getLsbD 1 = true ∧ d.protects w = false then
            { d with job := some j, sr := d.sr ||| 0x01, rxq := [] } else d.released)
        draws := n, trace := s.trace ++ [.wire i (encodeFrame w) rx] }) ∧
    ∀ (a : Nat) (data : List Byte), (progWrites a data).length = min data.length 256 ∧
      ∀ (k : Nat) (b : Byte), data[k]? = some b → data.length ≤ k + 256 →
        (progWrites a data)[k - (data.length - 256)]? =
          some (a - a % 256 + (a % 256 + k) % 256, b)

/-- The device's step `finish` (R195, R200, R203, R204, R207 to R209): the job is applied, the job, WIP and WEL are cleared and event FIN is emitted; without a job nothing happens. -/
def Obligations.FinishAppliesTheJob : Prop :=
  ∀ (i : Nat) (d : Device) (s : State) (rest : List Input), s.inputs = .env (.finish i) :: rest →
    s.devs[i]? = some d → d.ok →
    (d.job = none → step s = .next { s with inputs := rest }) ∧
    ∀ j, d.job = some j → ∃ e : Device,
      step s = .next { s with
        inputs := rest, draws := s.draws + 1, devs := s.devs.set i e
        trace := s.trace ++ [.fin i] } ∧
      e = { d with mem := e.mem, sr := e.sr, job := none } ∧
      e.sr.getLsbD 0 = false ∧ e.sr.getLsbD 1 = false ∧
      ((∀ v, j ≠ .writeSR v) → e.sr = d.sr &&& 0xFC) ∧
      (∀ v, j = .writeSR v → e.mem = d.mem) ∧
      (∀ ws, j = .prog ws → (ws.map fun w => w.1).Nodup → (∀ w ∈ ws, w.1 < 1048576) →
        (∀ w ∈ ws, e.mem.read w.1 = mergeByte d.merge (d.mem.read w.1) w.2) ∧
        ∀ b, (∀ w ∈ ws, w.1 ≠ b) → e.mem.read b = d.mem.read b) ∧
      (∀ u, j = .eraseSector u → u < 256 → ∀ b,
        e.mem.read b = if b / 4096 = u then 0xFF else d.mem.read b) ∧
      (∀ u, j = .eraseBlock u → u < 16 → ∀ b,
        e.mem.read b = if b / 65536 = u then 0xFF else d.mem.read b) ∧
      (j = .eraseChip → ∀ b, e.mem.read b = 0xFF)

/-! ## Rules over the whole machine -/

/-- The invariant holds after reset, for every configuration the spec allows and whatever the devices and the host's memory hold. That all instances share one bus and one `shared` flag is the model's reading (log 24), and `State.reset`'s own configuration is its choice (log 3, 5, 6). -/
def Obligations.InvAtReset : Prop :=
  State.reset.Inv ∧
    ∀ (insts : List Inst) (devs : List Device) (ram : Memory) (l : List Input), configOk insts devs →
      (∀ d ∈ devs, d.ok) → ramOk ram → State.Inv { State.resetWith insts devs ram with inputs := l }

/-- Every step from a state that meets the invariant gives a state that meets it, whatever happens at the ports (R25 to R30, R114, R190; the bus stays ours while a transaction opens is log 23). -/
def Obligations.InvKept : Prop :=
  ∀ s t : State, s.Inv → step s = .next t → t.Inv

/-- The arbiter's rule (R114): under the invariant at most one transaction is open, at most one chip select is asserted, an instance's chip select is asserted exactly when its transaction is open, and while one is open the bus is ours. -/
def Obligations.BusOwnership : Prop :=
  ∀ s : State, s.Inv → s.busOwned

/-- The slot's rules (R25, R28, R30): under the invariant, between host operations a transaction is open exactly for the owner of a Pending slot; Pending, an owner and an exchange in flight go together; and a Pending slot has a callback. -/
def Obligations.SlotRules : Prop :=
  ∀ s : State, s.Inv →
    (s.slot.tag = .pending ↔ s.slot.owner ≠ none) ∧ (s.slot.tag = .pending ↔ s.eng ≠ none) ∧
      (s.slot.tag = .pending → s.slot.cb ≠ none) ∧
      (s.phase = .idle → s.handler = none → ∀ i < s.insts.length,
        ((s.inst i).txnOpen = true ↔ s.slot.tag = .pending ∧ s.slot.owner = some i))

/-- The write-enable discipline holds of the empty trace after reset. -/
def Obligations.DisciplineAtReset : Prop :=
  ∀ (insts : List Inst) (devs : List Device) (ram : Memory) (l : List Input),
    State.Disciplined { State.resetWith insts devs ram with inputs := l }

/-- The write-enable discipline (R92, R268): in the commands the sequencer sends to each device, every program and erase is immediately preceded by a `WREN` and that by an `RDSR`, and every step keeps it so. -/
def Obligations.DisciplineKept : Prop :=
  ∀ s t : State, s.Inv → s.Disciplined → step s = .next t → t.Disciplined

/-- A step adds events to the trace; the array of a device changes at no step that does not add the device's own `FIN` (R195, R196, R63, R65). A device's parameters and identity (R33) and every instance's configuration (R23) never change. -/
def Obligations.ArrayChangesOnlyAtFinish : Prop :=
  ∀ s t : State, step s = .next t →
    t.insts.map (fun x => (x.bus, x.csId, x.shared)) = s.insts.map (fun x => (x.bus, x.csId, x.shared)) ∧
    t.devs.map (fun d => (d.present, d.ident, d.merge, d.addrMap, d.protection)) =
      s.devs.map (fun d => (d.present, d.ident, d.merge, d.addrMap, d.protection)) ∧
    ∃ l, t.trace = s.trace ++ l ∧
      ∀ j, .fin j ∉ l → (t.devs[j]?).map (fun d => d.mem) = (s.devs[j]?).map fun d => d.mem
end

