-- ==== Sys2Proof/Laws/Memory.lean ====
section
/-! SUPPORT. The laws of memory: a read after a write, erasure, and that every operation keeps the canonical form and the bound on addresses. -/

namespace Sys2Proof.Machine

/-! ## The canonical form -/

theorem Memory.wfFrom_cons (lo : Option Nat) (a : Nat) (v : Byte) (m : Memory) :
    Memory.wfFrom lo ((a, v) :: m) = true ↔
      (∀ b, lo = some b → b < a) ∧ v ≠ Config.blank ∧ Memory.wfFrom (some a) m = true := by
  cases lo <;> simp [Memory.wfFrom, and_assoc]

theorem Memory.wfFrom_weaken {lo lo' : Option Nat} {m : Memory} (h : Memory.wfFrom lo m = true)
    (hlo : ∀ b, lo' = some b → ∃ c, lo = some c ∧ b ≤ c) : Memory.wfFrom lo' m = true := by
  cases m with
  | nil => rfl
  | cons c m =>
    obtain ⟨a, v⟩ := c
    rw [Memory.wfFrom_cons] at h ⊢
    refine ⟨fun b hb => ?_, h.2⟩
    obtain ⟨c, hc, hbc⟩ := hlo b hb
    exact Nat.lt_of_le_of_lt hbc (h.1 c hc)

theorem Memory.wf_nil : Memory.wf [] = true := rfl

theorem Memory.wf_of_wfFrom {lo : Option Nat} {m : Memory} (h : Memory.wfFrom lo m = true) :
    m.wf = true := Memory.wfFrom_weaken h (by simp)

/-- A listed address is above the bound the form is taken from. -/
theorem Memory.wfFrom_mem {lo : Option Nat} {m : Memory} (h : Memory.wfFrom lo m = true)
    {c : Nat × Byte} (hc : c ∈ m) : (∀ b, lo = some b → b < c.1) ∧ c.2 ≠ Config.blank := by
  induction m generalizing lo with
  | nil => simp at hc
  | cons x m ih =>
    obtain ⟨a, v⟩ := x
    rw [Memory.wfFrom_cons] at h
    rcases List.mem_cons.1 hc with rfl | hm
    · exact ⟨h.1, h.2.1⟩
    · obtain ⟨h1, h2⟩ := ih h.2.2 hm
      exact ⟨fun b hb => Nat.lt_trans (h.1 b hb) (h1 a rfl), h2⟩

/-! ## Reads -/

/-- An address below every listed one reads as blank. -/
theorem Memory.read_low {lo : Nat} {m : Memory} (h : Memory.wfFrom (some lo) m = true) {a : Nat}
    (ha : a ≤ lo) : m.read a = Config.blank := by
  induction m generalizing lo with
  | nil => rfl
  | cons x m ih =>
    obtain ⟨b, v⟩ := x
    rw [Memory.wfFrom_cons] at h
    have hb : lo < b := h.1 lo rfl
    simp only [Memory.read]
    rw [if_neg (by omega)]
    exact ih h.2.2 (by omega)

theorem Memory.read_cell (a : Nat) (v : Byte) (m : Memory) (b : Nat)
    (h : Memory.wfFrom (some a) m = true) :
    (Memory.cell a v m).read b = if a = b then v else m.read b := by
  unfold Memory.cell
  split
  · split
    · next hv hb => subst hb; rw [Memory.read_low h (Nat.le_refl _), hv]
    · rfl
  · simp [Memory.read]

/-- A read after a write: the byte written at its address, the old byte elsewhere. -/
theorem Memory.read_write {lo : Option Nat} {m : Memory} (h : Memory.wfFrom lo m = true) (a : Nat)
    (v : Byte) (b : Nat) : (m.write a v).read b = if a = b then v else m.read b := by
  induction m generalizing lo with
  | nil => rw [Memory.write, Memory.read_cell _ _ _ _ (by rfl)]
  | cons x m ih =>
    obtain ⟨c, w⟩ := x
    rw [Memory.wfFrom_cons] at h
    simp only [Memory.write]
    split
    · next hac =>
      rw [Memory.read_cell]
      rw [Memory.wfFrom_cons]
      exact ⟨by rintro b ⟨⟩; exact hac, h.2⟩
    · split
      · next _ hac =>
        subst hac
        rw [Memory.read_cell _ _ _ _ h.2.2]
        simp only [Memory.read]
        split <;> rfl
      · next h1 h2 =>
        simp only [Memory.read]
        split
        · next hcb => rw [if_neg (by omega)]
        · exact ih h.2.2

theorem Memory.read_erase (e : Nat → Bool) {lo : Option Nat} {m : Memory}
    (h : Memory.wfFrom lo m = true) (a : Nat) :
    (m.erase e).read a = if e a = true then Config.blank else m.read a := by
  induction m generalizing lo with
  | nil => simp [Memory.erase, Memory.read]
  | cons x m ih =>
    obtain ⟨b, v⟩ := x
    rw [Memory.wfFrom_cons] at h
    have ih' := ih h.2.2
    simp only [Memory.erase] at ih' ⊢
    by_cases hb : e b = true
    · rw [List.filter_cons_of_neg (by simp [hb]), ih']
      by_cases hab : b = a
      · subst hab; simp [hb]
      · simp [Memory.read, hab]
    · rw [List.filter_cons_of_pos (by simpa using hb)]
      simp only [Memory.read]
      split
      · next hab => subst hab; simp [hb]
      · exact ih'

/-! ## Every operation keeps the canonical form -/

theorem Memory.wfFrom_cell {lo : Option Nat} {a : Nat} {v : Byte} {m : Memory}
    (hlo : ∀ b, lo = some b → b < a) (h : Memory.wfFrom (some a) m = true) :
    Memory.wfFrom lo (Memory.cell a v m) = true := by
  unfold Memory.cell
  split
  · exact Memory.wfFrom_weaken h fun b hb => ⟨a, rfl, Nat.le_of_lt (hlo b hb)⟩
  · next hv => rw [Memory.wfFrom_cons]; exact ⟨hlo, hv, h⟩

theorem Memory.wfFrom_write {lo : Option Nat} {m : Memory} (h : Memory.wfFrom lo m = true) (a : Nat)
    (v : Byte) (hlo : ∀ b, lo = some b → b < a) : Memory.wfFrom lo (m.write a v) = true := by
  induction m generalizing lo with
  | nil => exact Memory.wfFrom_cell hlo rfl
  | cons x m ih =>
    obtain ⟨c, w⟩ := x
    have h' := h
    rw [Memory.wfFrom_cons] at h
    simp only [Memory.write]
    split
    · next hac =>
      refine Memory.wfFrom_cell hlo ?_
      rw [Memory.wfFrom_cons]
      exact ⟨by rintro b ⟨⟩; exact hac, h.2⟩
    · split
      · next _ hac => subst hac; exact Memory.wfFrom_cell hlo h.2.2
      · next h1 h2 =>
        rw [Memory.wfFrom_cons]
        exact ⟨h.1, h.2.1, ih h.2.2 (by rintro b ⟨⟩; omega)⟩

/-- A write keeps the canonical form. -/
theorem Memory.wf_write {m : Memory} (h : m.wf = true) (a : Nat) (v : Byte) :
    (m.write a v).wf = true := Memory.wfFrom_write h a v (by simp)

theorem Memory.wfFrom_filter {lo : Option Nat} {m : Memory} (h : Memory.wfFrom lo m = true)
    (p : Nat × Byte → Bool) : Memory.wfFrom lo (m.filter p) = true := by
  induction m generalizing lo with
  | nil => rfl
  | cons x m ih =>
    obtain ⟨a, v⟩ := x
    rw [Memory.wfFrom_cons] at h
    by_cases hp : p (a, v) = true
    · rw [List.filter_cons_of_pos hp, Memory.wfFrom_cons]
      exact ⟨h.1, h.2.1, ih h.2.2⟩
    · rw [List.filter_cons_of_neg hp]
      exact Memory.wfFrom_weaken (ih h.2.2) fun b hb => ⟨a, rfl, Nat.le_of_lt (h.1 b hb)⟩

/-- An erasure keeps the canonical form. -/
theorem Memory.wf_erase (e : Nat → Bool) {m : Memory} (h : m.wf = true) : (m.erase e).wf = true :=
  Memory.wfFrom_filter h _

/-- A range written keeps the canonical form. -/
theorem memWrite_wf {m : Memory} (h : m.wf = true) (p : Ptr) (vs : List Byte) :
    (memWrite m p vs).wf = true := by
  induction vs generalizing m p with
  | nil => exact h
  | cons v vs ih => exact ih (Memory.wf_write h _ _) _

/-- The memory of a list of cells is canonical. -/
theorem Memory.wf_ofCells (limit : Nat) (cells : List (Nat × Byte)) :
    (Memory.ofCells limit cells).wf = true := by
  suffices H : ∀ m : Memory, m.wf = true →
      (cells.foldl (fun m c => if c.1 < limit then Memory.write m c.1 c.2 else m) m).wf = true from
    H [] rfl
  induction cells with
  | nil => exact fun m h => h
  | cons c cells ih =>
    intro m h
    refine ih _ ?_
    dsimp only
    split
    · exact Memory.wf_write h _ _
    · exact h

/-! ## Every operation keeps the bound on addresses -/

theorem Memory.below_cons (limit a : Nat) (v : Byte) (m : Memory) :
    Memory.below limit ((a, v) :: m) = true ↔ a < limit ∧ m.below limit = true := by
  simp [Memory.below]

theorem Memory.below_cell {limit a : Nat} {v : Byte} {m : Memory} (h : m.below limit = true)
    (ha : a < limit) : (Memory.cell a v m).below limit = true := by
  unfold Memory.cell
  split
  · exact h
  · exact (Memory.below_cons _ _ _ _).2 ⟨ha, h⟩

theorem Memory.below_write {limit : Nat} {m : Memory} (h : m.below limit = true) {a : Nat}
    (ha : a < limit) (v : Byte) : (m.write a v).below limit = true := by
  induction m with
  | nil => exact Memory.below_cell rfl ha
  | cons x m ih =>
    obtain ⟨c, w⟩ := x
    have h' := (Memory.below_cons _ _ _ _).1 h
    simp only [Memory.write]
    split
    · exact Memory.below_cell h ha
    · split
      · exact Memory.below_cell h'.2 ha
      · exact (Memory.below_cons _ _ _ _).2 ⟨h'.1, ih h'.2⟩

theorem Memory.below_erase {limit : Nat} (e : Nat → Bool) {m : Memory} (h : m.below limit = true) :
    (m.erase e).below limit = true := by
  simp only [Memory.below, Memory.erase, List.all_eq_true] at h ⊢
  exact fun c hc => h c (List.mem_filter.1 hc).1

theorem memWrite_below {m : Memory} (h : m.below 4294967296 = true) (p : Ptr) (vs : List Byte) :
    (memWrite m p vs).below 4294967296 = true := by
  induction vs generalizing m p with
  | nil => exact h
  | cons v vs ih => exact ih (Memory.below_write h p.isLt v) _

theorem Memory.below_ofCells (limit : Nat) (cells : List (Nat × Byte)) :
    (Memory.ofCells limit cells).below limit = true := by
  suffices H : ∀ m : Memory, m.below limit = true →
      (cells.foldl (fun m c => if c.1 < limit then Memory.write m c.1 c.2 else m) m).below limit
        = true from H [] rfl
  induction cells with
  | nil => exact fun m h => h
  | cons c cells ih =>
    intro m h
    refine ih _ ?_
    dsimp only
    split
    · next hc => exact Memory.below_write h hc _
    · exact h

/-! ## Ranges of the host's memory -/

theorem ptrAt_zero (p : Ptr) : ptrAt p 0 = p.toNat := by simp [ptrAt]

theorem ptrAt_succ (p : Ptr) (k : Nat) : ptrAt p (k + 1) = ptrAt (p + 1) k := by
  have h : (BitVec.toNat (1 : Ptr)) = 1 := rfl
  simp only [ptrAt, BitVec.toNat_add, BitVec.toNat_ofNat, h]
  omega

theorem memRead_length (m : Memory) (p : Ptr) (n : Nat) : (memRead m p n).length = n := by
  simp [memRead]

theorem memRead_getElem? (m : Memory) (p : Ptr) {n k : Nat} (h : k < n) :
    (memRead m p n)[k]? = some (m.read (ptrAt p k)) := by
  simp [memRead, h]

/-- An address outside a written range keeps its byte. -/
theorem memWrite_read_outside {m : Memory} (h : m.wf = true) (p : Ptr) (vs : List Byte) (a : Nat)
    (ha : ∀ k < vs.length, ptrAt p k ≠ a) : (memWrite m p vs).read a = m.read a := by
  induction vs generalizing m p with
  | nil => rfl
  | cons v vs ih =>
    rw [memWrite, ih (Memory.wf_write h _ _)]
    · rw [Memory.read_write h, if_neg]
      have := ha 0 (by simp)
      rwa [ptrAt_zero] at this
    · intro k hk
      rw [← ptrAt_succ]
      exact ha (k + 1) (by simpa using hk)

/-- Byte `k` of a written range, when the range does not wrap onto itself. -/
theorem memWrite_read {m : Memory} (h : m.wf = true) (p : Ptr) (vs : List Byte)
    (hl : vs.length ≤ 4294967296) {k : Nat} {v : Byte} (hk : vs[k]? = some v) :
    (memWrite m p vs).read (ptrAt p k) = v := by
  induction vs generalizing m p k with
  | nil => simp at hk
  | cons w vs ih =>
    simp only [List.length_cons] at hl
    rw [memWrite]
    cases k with
    | zero =>
      simp only [List.getElem?_cons_zero, Option.some.injEq] at hk
      subst hk
      rw [memWrite_read_outside (Memory.wf_write h _ _), ptrAt_zero, Memory.read_write h, if_pos rfl]
      intro j hj
      rw [← ptrAt_succ, ptrAt_zero]
      have h1 : (BitVec.toNat (1 : Ptr)) = 1 := rfl
      simp only [ptrAt, BitVec.toNat_add, BitVec.toNat_ofNat]
      omega
    | succ k =>
      rw [ptrAt_succ]
      exact ih (Memory.wf_write h _ _) _ (by omega) (by simpa using hk)

end Sys2Proof.Machine
end

