-- ==== Sys2Proof/Laws/Device.lean ====
section
/-! SUPPORT. The laws of the device: what it returns for each frame, what it does when a frame is committed, and that every one of its operations keeps `Device.ok`. -/

namespace Sys2Proof.Machine

/-! ## Frames -/

@[simp] theorem wireAddr_bytes (a : WireAddr) :
    wireAddr (a.extractLsb' 16 8) (a.extractLsb' 8 8) (a.extractLsb' 0 8) = a := by
  apply BitVec.eq_of_toNat_eq
  have h := a.isLt
  simp only [wireAddr, BitVec.toNat_append, BitVec.extractLsb'_toNat, Nat.shiftRight_eq_div_pow]
  rw [← Nat.shiftLeft_add_eq_or_of_lt (by omega), ← Nat.shiftLeft_add_eq_or_of_lt (by omega)]
  simp only [Nat.shiftLeft_eq]
  omega

/-- The frame of a well-formed wire command decodes to that command. -/
theorem decodeFrame_encodeFrame (w : Wire) (h : w.wellFormed = true) :
    decodeFrame (encodeFrame w) = .ok w := by
  cases w <;>
    simp_all [encodeFrame, decodeFrame, addrBytes, decodeId, decodeOne, decodeNone, decodeAddr,
      decodeData, Wire.wellFormed, Config.opJEDECID, Config.opRDSR, Config.opWRSR, Config.opWREN,
      Config.opREAD, Config.opPP, Config.opSE, Config.opBE, Config.opCE]

/-! ## Receiving and returning bytes -/

@[simp] theorem Device.receive_nil (d : Device) : d.receive [] = d := by simp [Device.receive]

theorem Device.receive_append (d : Device) (xs ys : List Byte) :
    d.receive (xs ++ ys) = (d.receive xs).receive ys := by simp [Device.receive]

@[simp] theorem Device.receive_rxq (d : Device) (xs : List Byte) :
    (d.receive xs).rxq = d.rxq ++ xs := rfl

@[simp] theorem Device.select_rxq (d : Device) : d.select.rxq = [] := rfl

@[simp] theorem freeBytes_length (k n : Nat) : (freeBytes k n).length = n := by
  induction n generalizing k with
  | zero => rfl
  | succ n ih => simp [freeBytes, ih]

@[simp] theorem Device.answers_length (d : Device) (k : Nat) (tx : List Byte) :
    (d.answers k tx).length = tx.length := by
  induction tx generalizing d k with
  | nil => rfl
  | cons b tx ih => simp [Device.answers, ih]

theorem Device.answers_append (d : Device) (k : Nat) (xs ys : List Byte) :
    d.answers k (xs ++ ys) = d.answers k xs ++ (d.receive xs).answers (k + xs.length) ys := by
  induction xs generalizing d k with
  | nil => simp [Device.answers]
  | cons b xs ih =>
    simp only [List.cons_append, Device.answers, ih, List.length_cons]
    rw [← Device.receive_append, List.singleton_append, Nat.add_assoc, Nat.add_comm 1]

/-- `RDSR` (R198): byte 1 is the status register. -/
theorem Device.answers_rdsr {d : Device} (h : d.present = true) (k : Nat) (b : Byte) :
    d.select.answers k [Config.opRDSR, b] = [Config.freeByte k, d.sr] := by
  simp [Device.answers, Device.select, Device.receive, Device.miso, Device.misoRdsr, h]

/-- `JEDECID` (R197) on a device that is not busy: bytes 1 to 3 are the identity. -/
theorem Device.answers_jedecid {d : Device} (h : d.present = true) (hb : d.busy = false) (k : Nat)
    (b1 b2 b3 : Byte) :
    d.select.answers k [Config.opJEDECID, b1, b2, b3] =
      [Config.freeByte k, d.ident.mfr, d.ident.dev1, d.ident.dev2] := by
  have hb' : wip d.sr = false := hb
  simp [Device.answers, Device.select, Device.receive, Device.miso, Device.misoJedecid, h,
    Device.busy, hb', Config.opJEDECID, Config.opRDSR]

/-- The data phase of a `READ` (R201): byte `k` is the array byte at `A + k`. -/
theorem Device.answers_read {d : Device} (h : d.present = true) (hb : d.busy = false) (k : Nat)
    (b1 b2 b3 : Byte) (pre out : List Byte)
    (hq : d.rxq = Config.opREAD :: b1 :: b2 :: b3 :: pre) :
    d.answers k out = (List.range out.length).map fun j =>
      d.arrayByte ((wireAddr b1 b2 b3).toNat + pre.length + j) (k + j) := by
  induction out generalizing d k pre with
  | nil => rfl
  | cons b out ih =>
    have hb' : wip d.sr = false := hb
    rw [Device.answers, ih (d := d.receive [b]) h hb (k + 1) (pre ++ [b])
      (by simp [Device.receive, hq])]
    rw [List.length_cons, List.range_succ_eq_map, List.map_cons, List.map_map]
    congr 1
    · simp [Device.miso, hq, h, Device.busy, hb', Device.misoRead, Config.opREAD, Config.opRDSR,
        Config.opJEDECID]
    · refine List.map_congr_left fun j _ => ?_
      simp only [List.length_append, List.length_cons, List.length_nil, Function.comp]
      rw [show (wireAddr b1 b2 b3).toNat + (pre.length + (0 + 1)) + j
          = (wireAddr b1 b2 b3).toNat + pre.length + j.succ by omega,
        show k + 1 + j = k + j.succ by omega]
      rfl

/-! ## Committing a frame -/

/-- A device that held the whole frame of a command has acted on it and let go of the bytes. -/
theorem Device.commit_frame {d : Device} (hp : d.present = true) {w : Wire}
    (hw : w.wellFormed = true) (hq : d.rxq = encodeFrame w) :
    d.commit = (d.act w).released := by
  simp [Device.commit, hq, decodeFrame_encodeFrame w hw, hp, Device.released]

@[simp] theorem Device.protects_rxq (d : Device) (q : List Byte) (w : Wire) :
    Device.protects { d with rxq := q } w = d.protects w := rfl

/-- A device without a protection scheme refuses nothing for protection (R65; log 43). -/
theorem Device.protects_none {d : Device} (h : d.protection = none) (w : Wire) :
    d.protects w = false := by simp [Device.protects, h]

theorem Device.start_released (d : Device) (q : List Byte) (w : Wire) (j : Job) :
    (Device.start { d with rxq := q } w j).released = (d.start w j).released := by
  have e : Device.busy { d with rxq := q } = d.busy := rfl
  simp only [Device.start, Device.protects_rxq, e]
  split <;> rfl

/-- What a command does to a device does not depend on the bytes it holds. -/
theorem Device.act_released (d : Device) (q : List Byte) (w : Wire) :
    (Device.act { d with rxq := q } w).released = (d.act w).released := by
  cases w with
  | wren =>
    unfold Device.act Device.commitWren
    by_cases h : d.busy = true
    · rw [if_pos h, if_pos (show Device.busy { d with rxq := q } = true from h)]; rfl
    · rw [if_neg h, if_neg (show ¬Device.busy { d with rxq := q } = true from h)]; rfl
  | jedecid => rfl
  | rdsr => rfl
  | read => rfl
  | wrsr => exact d.start_released q _ _
  | pp => exact d.start_released q _ _
  | se => exact d.start_released q _ _
  | be => exact d.start_released q _ _
  | ce => exact d.start_released q _ _

/-- What one command changes in a device: nothing but the status register and the job, and these only as its rule says. -/
theorem Device.act_cases (d : Device) (w : Wire) :
    d.act w = d ∨ (w = .wren ∧ d.busy = false ∧ d.act w = { d with sr := setWel d.sr }) ∨
      ∃ j, d.busy = false ∧ wel d.sr = true ∧ d.protects w = false ∧
        d.act w = { d with job := some j, sr := setWip d.sr } := by
  cases w <;>
    simp only [Device.act, Device.commitWren, Device.commitWrsr, Device.commitPp, Device.commitSe,
      Device.commitBe, Device.commitCe, Device.start]
  case jedecid => exact .inl trivial
  case rdsr => exact .inl trivial
  case read => exact .inl trivial
  case wren =>
    by_cases hb : d.busy = true
    · simp [hb]
    · simp [hb]
  all_goals
    split
    · next h =>
      simp only [Bool.and_eq_true, Bool.not_eq_true'] at h
      exact .inr (.inr ⟨_, h.1.1, h.1.2, h.2, rfl⟩)
    · exact .inl rfl

/-! ## The status bits -/

theorem wip_setWip (v : Byte) : wip (setWip v) = true := by
  revert v; decide

theorem wip_setWel (v : Byte) : wip (setWel v) = wip v := by
  revert v; decide

theorem wel_setWel (v : Byte) : wel (setWel v) = true := by
  revert v; decide

theorem wel_setWip (v : Byte) : wel (setWip v) = wel v := by
  revert v; decide

theorem wip_clearWipWel (v : Byte) : wip (clearWipWel v) = false := by
  revert v; decide

theorem wel_clearWipWel (v : Byte) : wel (clearWipWel v) = false := by
  revert v; decide

/-! ## Every operation keeps `Device.ok` -/

theorem Device.ok_select {d : Device} (h : d.ok) : d.select.ok := h

theorem Device.ok_receive {d : Device} (h : d.ok) (tx : List Byte) : (d.receive tx).ok := h

theorem Device.ok_released {d : Device} (h : d.ok) : d.released.ok := h

theorem Device.ok_act {d : Device} (h : d.ok) (w : Wire) : (d.act w).ok := by
  obtain ⟨hw, hb, hj⟩ := h
  rcases d.act_cases w with e | ⟨-, hn, e⟩ | ⟨j, hn, -, -, e⟩
  · rw [e]; exact ⟨hw, hb, hj⟩
  · rw [e]
    refine ⟨hw, hb, ?_⟩
    show d.job.isSome = wip (setWel d.sr)
    rw [wip_setWel]; exact hj
  · rw [e]
    exact ⟨hw, hb, (wip_setWip d.sr).symm⟩

theorem Device.ok_commit {d : Device} (h : d.ok) : d.commit.ok := by
  unfold Device.commit
  split
  · split
    · exact Device.ok_act h _
    · exact h
  · exact h

theorem Device.programByte_wf {m : Memory} (d : Device) (k : Nat) (t : Nat × Byte)
    (h : m.wf = true ∧ m.below Config.capacity = true) :
    (d.programByte k m t).wf = true ∧ (d.programByte k m t).below Config.capacity = true := by
  unfold Device.programByte
  split
  · next ht => exact ⟨Memory.wf_write h.1 _ _, Memory.below_write h.2 ht _⟩
  · split
    · exact ⟨Memory.wf_write h.1 _ _, Memory.below_write h.2 (Nat.mod_lt _ (by decide)) _⟩
    · exact ⟨Memory.wf_ofCells _ _, Memory.below_ofCells _ _⟩

theorem Device.eraseUnit_wf {d : Device} (k size u : Nat)
    (h : d.mem.wf = true ∧ d.mem.below Config.capacity = true) :
    (d.eraseUnit k size u).wf = true ∧ (d.eraseUnit k size u).below Config.capacity = true := by
  unfold Device.eraseUnit
  split
  · exact ⟨Memory.wf_erase _ h.1, Memory.below_erase _ h.2⟩
  · split
    · exact ⟨Memory.wf_erase _ h.1, Memory.below_erase _ h.2⟩
    · exact ⟨Memory.wf_ofCells _ _, Memory.below_ofCells _ _⟩

theorem Device.applyJob_wf {d : Device} (k : Nat) (j : Job)
    (h : d.mem.wf = true ∧ d.mem.below Config.capacity = true) :
    (d.applyJob k j).mem.wf = true ∧ (d.applyJob k j).mem.below Config.capacity = true := by
  cases j with
  | prog writes =>
    suffices H : ∀ m : Memory, m.wf = true ∧ m.below Config.capacity = true →
        (writes.foldl (d.programByte k) m).wf = true ∧
          (writes.foldl (d.programByte k) m).below Config.capacity = true from H _ h
    induction writes with
    | nil => exact fun m hm => hm
    | cons t writes ih => exact fun m hm => ih _ (d.programByte_wf k t hm)
  | eraseSector u => exact Device.eraseUnit_wf k _ u h
  | eraseBlock u => exact Device.eraseUnit_wf k _ u h
  | eraseChip =>
    exact ⟨Memory.wf_erase (fun _ => true) h.1, Memory.below_erase (fun _ => true) h.2⟩
  | writeSR v => exact h

theorem Device.ok_finish {d : Device} (h : d.ok) (k : Nat) : (d.finish k).ok := by
  unfold Device.finish
  split
  · exact h
  · next j _ =>
    obtain ⟨hw, hb⟩ := Device.applyJob_wf k j ⟨h.1, h.2.1⟩
    exact ⟨hw, hb, (wip_clearWipWel _).symm⟩

end Sys2Proof.Machine
end

