-- ==== Sys2Proof/Laws/State.lean ====
section
/-! SUPPORT. One lemma per field per update of the state: what an update leaves alone, and what it writes where that is one expression. -/

namespace Sys2Proof.Machine

variable (s : State)

/-! ## `emit` -/

@[simp] theorem State.emit_cur (e : Event) : (s.emit e).cur = s.cur := rfl
@[simp] theorem State.emit_f (e : Event) : (s.emit e).f = s.f := rfl
@[simp] theorem State.emit_addr (e : Event) : (s.emit e).addr = s.addr := rfl
@[simp] theorem State.emit_ptr (e : Event) : (s.emit e).ptr = s.ptr := rfl
@[simp] theorem State.emit_rem (e : Event) : (s.emit e).rem = s.rem := rfl
@[simp] theorem State.emit_cnt (e : Event) : (s.emit e).cnt = s.cnt := rfl
@[simp] theorem State.emit_st (e : Event) : (s.emit e).st = s.st := rfl
@[simp] theorem State.emit_ident (e : Event) : (s.emit e).ident = s.ident := rfl
@[simp] theorem State.emit_held (e : Event) : (s.emit e).held = s.held := rfl
@[simp] theorem State.emit_phase (e : Event) : (s.emit e).phase = s.phase := rfl
@[simp] theorem State.emit_handler (e : Event) : (s.emit e).handler = s.handler := rfl
@[simp] theorem State.emit_insts (e : Event) : (s.emit e).insts = s.insts := rfl
@[simp] theorem State.emit_csAsserted (e : Event) : (s.emit e).csAsserted = s.csAsserted := rfl
@[simp] theorem State.emit_busCfg (e : Event) : (s.emit e).busCfg = s.busCfg := rfl
@[simp] theorem State.emit_slot (e : Event) : (s.emit e).slot = s.slot := rfl
@[simp] theorem State.emit_eng (e : Event) : (s.emit e).eng = s.eng := rfl
@[simp] theorem State.emit_devs (e : Event) : (s.emit e).devs = s.devs := rfl
@[simp] theorem State.emit_ram (e : Event) : (s.emit e).ram = s.ram := rfl
@[simp] theorem State.emit_trace (e : Event) : (s.emit e).trace = s.trace ++ [e] := rfl
@[simp] theorem State.emit_draws (e : Event) : (s.emit e).draws = s.draws := rfl
@[simp] theorem State.emit_inputs (e : Event) : (s.emit e).inputs = s.inputs := rfl

/-! ## `setBegun` -/

@[simp] theorem State.setBegun_cur (i : Nat) : (s.setBegun i).cur = s.cur := rfl
@[simp] theorem State.setBegun_f (i : Nat) : (s.setBegun i).f = s.f := rfl
@[simp] theorem State.setBegun_addr (i : Nat) : (s.setBegun i).addr = s.addr := rfl
@[simp] theorem State.setBegun_ptr (i : Nat) : (s.setBegun i).ptr = s.ptr := rfl
@[simp] theorem State.setBegun_rem (i : Nat) : (s.setBegun i).rem = s.rem := rfl
@[simp] theorem State.setBegun_cnt (i : Nat) : (s.setBegun i).cnt = s.cnt := rfl
@[simp] theorem State.setBegun_st (i : Nat) : (s.setBegun i).st = s.st := rfl
@[simp] theorem State.setBegun_ident (i : Nat) : (s.setBegun i).ident = s.ident := rfl
@[simp] theorem State.setBegun_held (i : Nat) : (s.setBegun i).held = s.held := rfl
@[simp] theorem State.setBegun_phase (i : Nat) : (s.setBegun i).phase = s.phase := rfl
@[simp] theorem State.setBegun_handler (i : Nat) : (s.setBegun i).handler = s.handler := rfl
@[simp] theorem State.setBegun_insts (i : Nat) :
    (s.setBegun i).insts = s.insts.modify i fun x => { x with begun := true } := rfl
@[simp] theorem State.setBegun_csAsserted (i : Nat) :
    (s.setBegun i).csAsserted = s.csAsserted := rfl
@[simp] theorem State.setBegun_busCfg (i : Nat) : (s.setBegun i).busCfg = s.busCfg := rfl
@[simp] theorem State.setBegun_slot (i : Nat) : (s.setBegun i).slot = s.slot := rfl
@[simp] theorem State.setBegun_eng (i : Nat) : (s.setBegun i).eng = s.eng := rfl
@[simp] theorem State.setBegun_devs (i : Nat) : (s.setBegun i).devs = s.devs := rfl
@[simp] theorem State.setBegun_ram (i : Nat) : (s.setBegun i).ram = s.ram := rfl
@[simp] theorem State.setBegun_trace (i : Nat) : (s.setBegun i).trace = s.trace := rfl
@[simp] theorem State.setBegun_draws (i : Nat) : (s.setBegun i).draws = s.draws := rfl
@[simp] theorem State.setBegun_inputs (i : Nat) : (s.setBegun i).inputs = s.inputs := rfl

/-! ## `setTxnOpen` -/

@[simp] theorem State.setTxnOpen_cur (i : Nat) (b : Bool) : (s.setTxnOpen i b).cur = s.cur := rfl
@[simp] theorem State.setTxnOpen_f (i : Nat) (b : Bool) : (s.setTxnOpen i b).f = s.f := rfl
@[simp] theorem State.setTxnOpen_addr (i : Nat) (b : Bool) : (s.setTxnOpen i b).addr = s.addr := rfl
@[simp] theorem State.setTxnOpen_ptr (i : Nat) (b : Bool) : (s.setTxnOpen i b).ptr = s.ptr := rfl
@[simp] theorem State.setTxnOpen_rem (i : Nat) (b : Bool) : (s.setTxnOpen i b).rem = s.rem := rfl
@[simp] theorem State.setTxnOpen_cnt (i : Nat) (b : Bool) : (s.setTxnOpen i b).cnt = s.cnt := rfl
@[simp] theorem State.setTxnOpen_st (i : Nat) (b : Bool) : (s.setTxnOpen i b).st = s.st := rfl
@[simp] theorem State.setTxnOpen_ident (i : Nat) (b : Bool) :
    (s.setTxnOpen i b).ident = s.ident := rfl
@[simp] theorem State.setTxnOpen_held (i : Nat) (b : Bool) : (s.setTxnOpen i b).held = s.held := rfl
@[simp] theorem State.setTxnOpen_phase (i : Nat) (b : Bool) :
    (s.setTxnOpen i b).phase = s.phase := rfl
@[simp] theorem State.setTxnOpen_handler (i : Nat) (b : Bool) :
    (s.setTxnOpen i b).handler = s.handler := rfl
@[simp] theorem State.setTxnOpen_insts (i : Nat) (b : Bool) :
    (s.setTxnOpen i b).insts = s.insts.modify i fun x => { x with txnOpen := b } := rfl
@[simp] theorem State.setTxnOpen_csAsserted (i : Nat) (b : Bool) :
    (s.setTxnOpen i b).csAsserted = s.csAsserted := rfl
@[simp] theorem State.setTxnOpen_busCfg (i : Nat) (b : Bool) :
    (s.setTxnOpen i b).busCfg = s.busCfg := rfl
@[simp] theorem State.setTxnOpen_slot (i : Nat) (b : Bool) : (s.setTxnOpen i b).slot = s.slot := rfl
@[simp] theorem State.setTxnOpen_eng (i : Nat) (b : Bool) : (s.setTxnOpen i b).eng = s.eng := rfl
@[simp] theorem State.setTxnOpen_devs (i : Nat) (b : Bool) : (s.setTxnOpen i b).devs = s.devs := rfl
@[simp] theorem State.setTxnOpen_ram (i : Nat) (b : Bool) : (s.setTxnOpen i b).ram = s.ram := rfl
@[simp] theorem State.setTxnOpen_trace (i : Nat) (b : Bool) :
    (s.setTxnOpen i b).trace = s.trace := rfl
@[simp] theorem State.setTxnOpen_draws (i : Nat) (b : Bool) :
    (s.setTxnOpen i b).draws = s.draws := rfl
@[simp] theorem State.setTxnOpen_inputs (i : Nat) (b : Bool) :
    (s.setTxnOpen i b).inputs = s.inputs := rfl

/-! ## `modDev` -/

@[simp] theorem State.modDev_cur (i : Nat) (g : Device → Device) : (s.modDev i g).cur = s.cur := rfl
@[simp] theorem State.modDev_f (i : Nat) (g : Device → Device) : (s.modDev i g).f = s.f := rfl
@[simp] theorem State.modDev_addr (i : Nat) (g : Device → Device) :
    (s.modDev i g).addr = s.addr := rfl
@[simp] theorem State.modDev_ptr (i : Nat) (g : Device → Device) : (s.modDev i g).ptr = s.ptr := rfl
@[simp] theorem State.modDev_rem (i : Nat) (g : Device → Device) : (s.modDev i g).rem = s.rem := rfl
@[simp] theorem State.modDev_cnt (i : Nat) (g : Device → Device) : (s.modDev i g).cnt = s.cnt := rfl
@[simp] theorem State.modDev_st (i : Nat) (g : Device → Device) : (s.modDev i g).st = s.st := rfl
@[simp] theorem State.modDev_ident (i : Nat) (g : Device → Device) :
    (s.modDev i g).ident = s.ident := rfl
@[simp] theorem State.modDev_held (i : Nat) (g : Device → Device) :
    (s.modDev i g).held = s.held := rfl
@[simp] theorem State.modDev_phase (i : Nat) (g : Device → Device) :
    (s.modDev i g).phase = s.phase := rfl
@[simp] theorem State.modDev_handler (i : Nat) (g : Device → Device) :
    (s.modDev i g).handler = s.handler := rfl
@[simp] theorem State.modDev_insts (i : Nat) (g : Device → Device) :
    (s.modDev i g).insts = s.insts := rfl
@[simp] theorem State.modDev_csAsserted (i : Nat) (g : Device → Device) :
    (s.modDev i g).csAsserted = s.csAsserted := rfl
@[simp] theorem State.modDev_busCfg (i : Nat) (g : Device → Device) :
    (s.modDev i g).busCfg = s.busCfg := rfl
@[simp] theorem State.modDev_slot (i : Nat) (g : Device → Device) :
    (s.modDev i g).slot = s.slot := rfl
@[simp] theorem State.modDev_eng (i : Nat) (g : Device → Device) : (s.modDev i g).eng = s.eng := rfl
@[simp] theorem State.modDev_devs (i : Nat) (g : Device → Device) :
    (s.modDev i g).devs = s.devs.modify i g := rfl
@[simp] theorem State.modDev_ram (i : Nat) (g : Device → Device) : (s.modDev i g).ram = s.ram := rfl
@[simp] theorem State.modDev_trace (i : Nat) (g : Device → Device) :
    (s.modDev i g).trace = s.trace := rfl
@[simp] theorem State.modDev_draws (i : Nat) (g : Device → Device) :
    (s.modDev i g).draws = s.draws := rfl
@[simp] theorem State.modDev_inputs (i : Nat) (g : Device → Device) :
    (s.modDev i g).inputs = s.inputs := rfl

/-! ## `configure` -/

@[simp] theorem State.configure_cur (i : Nat) : (s.configure i).cur = s.cur := rfl
@[simp] theorem State.configure_f (i : Nat) : (s.configure i).f = s.f := rfl
@[simp] theorem State.configure_addr (i : Nat) : (s.configure i).addr = s.addr := rfl
@[simp] theorem State.configure_ptr (i : Nat) : (s.configure i).ptr = s.ptr := rfl
@[simp] theorem State.configure_rem (i : Nat) : (s.configure i).rem = s.rem := rfl
@[simp] theorem State.configure_cnt (i : Nat) : (s.configure i).cnt = s.cnt := rfl
@[simp] theorem State.configure_st (i : Nat) : (s.configure i).st = s.st := rfl
@[simp] theorem State.configure_ident (i : Nat) : (s.configure i).ident = s.ident := rfl
@[simp] theorem State.configure_held (i : Nat) : (s.configure i).held = s.held := rfl
@[simp] theorem State.configure_phase (i : Nat) : (s.configure i).phase = s.phase := rfl
@[simp] theorem State.configure_handler (i : Nat) : (s.configure i).handler = s.handler := rfl
@[simp] theorem State.configure_insts (i : Nat) : (s.configure i).insts = s.insts := rfl
@[simp] theorem State.configure_csAsserted (i : Nat) :
    (s.configure i).csAsserted = s.csAsserted := rfl
@[simp] theorem State.configure_busCfg (i : Nat) : (s.configure i).busCfg = .ours := rfl
@[simp] theorem State.configure_slot (i : Nat) : (s.configure i).slot = s.slot := rfl
@[simp] theorem State.configure_eng (i : Nat) : (s.configure i).eng = s.eng := rfl
@[simp] theorem State.configure_devs (i : Nat) : (s.configure i).devs = s.devs := rfl
@[simp] theorem State.configure_ram (i : Nat) : (s.configure i).ram = s.ram := rfl
@[simp] theorem State.configure_trace (i : Nat) : (s.configure i).trace = s.trace ++ [.cfg i] := rfl
@[simp] theorem State.configure_draws (i : Nat) : (s.configure i).draws = s.draws := rfl
@[simp] theorem State.configure_inputs (i : Nat) : (s.configure i).inputs = s.inputs := rfl

/-! ## `csAssert` -/

@[simp] theorem State.csAssert_cur (i : Nat) : (s.csAssert i).cur = s.cur := rfl
@[simp] theorem State.csAssert_f (i : Nat) : (s.csAssert i).f = s.f := rfl
@[simp] theorem State.csAssert_addr (i : Nat) : (s.csAssert i).addr = s.addr := rfl
@[simp] theorem State.csAssert_ptr (i : Nat) : (s.csAssert i).ptr = s.ptr := rfl
@[simp] theorem State.csAssert_rem (i : Nat) : (s.csAssert i).rem = s.rem := rfl
@[simp] theorem State.csAssert_cnt (i : Nat) : (s.csAssert i).cnt = s.cnt := rfl
@[simp] theorem State.csAssert_st (i : Nat) : (s.csAssert i).st = s.st := rfl
@[simp] theorem State.csAssert_ident (i : Nat) : (s.csAssert i).ident = s.ident := rfl
@[simp] theorem State.csAssert_held (i : Nat) : (s.csAssert i).held = s.held := rfl
@[simp] theorem State.csAssert_phase (i : Nat) : (s.csAssert i).phase = s.phase := rfl
@[simp] theorem State.csAssert_handler (i : Nat) : (s.csAssert i).handler = s.handler := rfl
@[simp] theorem State.csAssert_insts (i : Nat) : (s.csAssert i).insts = s.insts := rfl
@[simp] theorem State.csAssert_csAsserted (i : Nat) :
    (s.csAssert i).csAsserted = insertCs (s.inst i).csId s.csAsserted := rfl
@[simp] theorem State.csAssert_busCfg (i : Nat) : (s.csAssert i).busCfg = s.busCfg := rfl
@[simp] theorem State.csAssert_slot (i : Nat) : (s.csAssert i).slot = s.slot := rfl
@[simp] theorem State.csAssert_eng (i : Nat) : (s.csAssert i).eng = s.eng := rfl
@[simp] theorem State.csAssert_devs (i : Nat) :
    (s.csAssert i).devs = s.devs.modify i Device.select := rfl
@[simp] theorem State.csAssert_ram (i : Nat) : (s.csAssert i).ram = s.ram := rfl
@[simp] theorem State.csAssert_trace (i : Nat) :
    (s.csAssert i).trace = s.trace ++ [.cs i .asserted] := rfl
@[simp] theorem State.csAssert_draws (i : Nat) : (s.csAssert i).draws = s.draws := rfl
@[simp] theorem State.csAssert_inputs (i : Nat) : (s.csAssert i).inputs = s.inputs := rfl

/-! ## `csDeassert` -/

@[simp] theorem State.csDeassert_cur (i : Nat) : (s.csDeassert i).cur = s.cur := rfl
@[simp] theorem State.csDeassert_f (i : Nat) : (s.csDeassert i).f = s.f := rfl
@[simp] theorem State.csDeassert_addr (i : Nat) : (s.csDeassert i).addr = s.addr := rfl
@[simp] theorem State.csDeassert_ptr (i : Nat) : (s.csDeassert i).ptr = s.ptr := rfl
@[simp] theorem State.csDeassert_rem (i : Nat) : (s.csDeassert i).rem = s.rem := rfl
@[simp] theorem State.csDeassert_cnt (i : Nat) : (s.csDeassert i).cnt = s.cnt := rfl
@[simp] theorem State.csDeassert_st (i : Nat) : (s.csDeassert i).st = s.st := rfl
@[simp] theorem State.csDeassert_ident (i : Nat) : (s.csDeassert i).ident = s.ident := rfl
@[simp] theorem State.csDeassert_held (i : Nat) : (s.csDeassert i).held = s.held := rfl
@[simp] theorem State.csDeassert_phase (i : Nat) : (s.csDeassert i).phase = s.phase := rfl
@[simp] theorem State.csDeassert_handler (i : Nat) : (s.csDeassert i).handler = s.handler := rfl
@[simp] theorem State.csDeassert_insts (i : Nat) : (s.csDeassert i).insts = s.insts := rfl
@[simp] theorem State.csDeassert_csAsserted (i : Nat) :
    (s.csDeassert i).csAsserted = s.csAsserted.filter fun c => decide (c ≠ (s.inst i).csId) := rfl
@[simp] theorem State.csDeassert_busCfg (i : Nat) : (s.csDeassert i).busCfg = s.busCfg := rfl
@[simp] theorem State.csDeassert_slot (i : Nat) : (s.csDeassert i).slot = s.slot := rfl
@[simp] theorem State.csDeassert_eng (i : Nat) : (s.csDeassert i).eng = s.eng := rfl
@[simp] theorem State.csDeassert_devs (i : Nat) :
    (s.csDeassert i).devs = s.devs.modify i Device.commit := rfl
@[simp] theorem State.csDeassert_ram (i : Nat) : (s.csDeassert i).ram = s.ram := rfl
@[simp] theorem State.csDeassert_trace (i : Nat) :
    (s.csDeassert i).trace = s.trace ++ [.cs i .deasserted] := rfl
@[simp] theorem State.csDeassert_draws (i : Nat) : (s.csDeassert i).draws = s.draws := rfl
@[simp] theorem State.csDeassert_inputs (i : Nat) : (s.csDeassert i).inputs = s.inputs := rfl

/-! ## `openTxn` -/

@[simp] theorem State.openTxn_cur (i : Nat) : (s.openTxn i).cur = s.cur := rfl
@[simp] theorem State.openTxn_f (i : Nat) : (s.openTxn i).f = s.f := rfl
@[simp] theorem State.openTxn_addr (i : Nat) : (s.openTxn i).addr = s.addr := rfl
@[simp] theorem State.openTxn_ptr (i : Nat) : (s.openTxn i).ptr = s.ptr := rfl
@[simp] theorem State.openTxn_rem (i : Nat) : (s.openTxn i).rem = s.rem := rfl
@[simp] theorem State.openTxn_cnt (i : Nat) : (s.openTxn i).cnt = s.cnt := rfl
@[simp] theorem State.openTxn_st (i : Nat) : (s.openTxn i).st = s.st := rfl
@[simp] theorem State.openTxn_ident (i : Nat) : (s.openTxn i).ident = s.ident := rfl
@[simp] theorem State.openTxn_held (i : Nat) : (s.openTxn i).held = s.held := rfl
@[simp] theorem State.openTxn_phase (i : Nat) : (s.openTxn i).phase = s.phase := rfl
@[simp] theorem State.openTxn_handler (i : Nat) : (s.openTxn i).handler = s.handler := rfl
@[simp] theorem State.openTxn_insts (i : Nat) :
    (s.openTxn i).insts = s.insts.modify i fun x => { x with txnOpen := true } := rfl
@[simp] theorem State.openTxn_csAsserted (i : Nat) :
    (s.openTxn i).csAsserted = insertCs (s.inst i).csId s.csAsserted := rfl
@[simp] theorem State.openTxn_busCfg (i : Nat) : (s.openTxn i).busCfg = s.busCfg := rfl
@[simp] theorem State.openTxn_slot (i : Nat) : (s.openTxn i).slot = s.slot := rfl
@[simp] theorem State.openTxn_eng (i : Nat) : (s.openTxn i).eng = s.eng := rfl
@[simp] theorem State.openTxn_devs (i : Nat) :
    (s.openTxn i).devs = s.devs.modify i Device.select := rfl
@[simp] theorem State.openTxn_ram (i : Nat) : (s.openTxn i).ram = s.ram := rfl
@[simp] theorem State.openTxn_trace (i : Nat) :
    (s.openTxn i).trace = s.trace ++ [.cs i .asserted] := rfl
@[simp] theorem State.openTxn_draws (i : Nat) : (s.openTxn i).draws = s.draws := rfl
@[simp] theorem State.openTxn_inputs (i : Nat) : (s.openTxn i).inputs = s.inputs := rfl

/-! ## `endTxn` -/

@[simp] theorem State.endTxn_cur (i : Nat) : (s.endTxn i).cur = s.cur := rfl
@[simp] theorem State.endTxn_f (i : Nat) : (s.endTxn i).f = s.f := rfl
@[simp] theorem State.endTxn_addr (i : Nat) : (s.endTxn i).addr = s.addr := rfl
@[simp] theorem State.endTxn_ptr (i : Nat) : (s.endTxn i).ptr = s.ptr := rfl
@[simp] theorem State.endTxn_rem (i : Nat) : (s.endTxn i).rem = s.rem := rfl
@[simp] theorem State.endTxn_cnt (i : Nat) : (s.endTxn i).cnt = s.cnt := rfl
@[simp] theorem State.endTxn_st (i : Nat) : (s.endTxn i).st = s.st := rfl
@[simp] theorem State.endTxn_ident (i : Nat) : (s.endTxn i).ident = s.ident := rfl
@[simp] theorem State.endTxn_held (i : Nat) : (s.endTxn i).held = s.held := rfl
@[simp] theorem State.endTxn_phase (i : Nat) : (s.endTxn i).phase = s.phase := rfl
@[simp] theorem State.endTxn_handler (i : Nat) : (s.endTxn i).handler = s.handler := rfl
@[simp] theorem State.endTxn_insts (i : Nat) :
    (s.endTxn i).insts = s.insts.modify i fun x => { x with txnOpen := false } := rfl
@[simp] theorem State.endTxn_csAsserted (i : Nat) :
    (s.endTxn i).csAsserted = s.csAsserted.filter fun c => decide (c ≠ (s.inst i).csId) := rfl
@[simp] theorem State.endTxn_busCfg (i : Nat) : (s.endTxn i).busCfg = s.busCfg := rfl
@[simp] theorem State.endTxn_slot (i : Nat) : (s.endTxn i).slot = s.slot := rfl
@[simp] theorem State.endTxn_eng (i : Nat) : (s.endTxn i).eng = s.eng := rfl
@[simp] theorem State.endTxn_devs (i : Nat) :
    (s.endTxn i).devs = s.devs.modify i Device.commit := rfl
@[simp] theorem State.endTxn_ram (i : Nat) : (s.endTxn i).ram = s.ram := rfl
@[simp] theorem State.endTxn_trace (i : Nat) :
    (s.endTxn i).trace = s.trace ++ [.cs i .deasserted] := rfl
@[simp] theorem State.endTxn_draws (i : Nat) : (s.endTxn i).draws = s.draws := rfl
@[simp] theorem State.endTxn_inputs (i : Nat) : (s.endTxn i).inputs = s.inputs := rfl

/-! ## `drew` -/

@[simp] theorem State.drew_cur (n : Nat) : (s.drew n).cur = s.cur := rfl
@[simp] theorem State.drew_f (n : Nat) : (s.drew n).f = s.f := rfl
@[simp] theorem State.drew_addr (n : Nat) : (s.drew n).addr = s.addr := rfl
@[simp] theorem State.drew_ptr (n : Nat) : (s.drew n).ptr = s.ptr := rfl
@[simp] theorem State.drew_rem (n : Nat) : (s.drew n).rem = s.rem := rfl
@[simp] theorem State.drew_cnt (n : Nat) : (s.drew n).cnt = s.cnt := rfl
@[simp] theorem State.drew_st (n : Nat) : (s.drew n).st = s.st := rfl
@[simp] theorem State.drew_ident (n : Nat) : (s.drew n).ident = s.ident := rfl
@[simp] theorem State.drew_held (n : Nat) : (s.drew n).held = s.held := rfl
@[simp] theorem State.drew_phase (n : Nat) : (s.drew n).phase = s.phase := rfl
@[simp] theorem State.drew_handler (n : Nat) : (s.drew n).handler = s.handler := rfl
@[simp] theorem State.drew_insts (n : Nat) : (s.drew n).insts = s.insts := rfl
@[simp] theorem State.drew_csAsserted (n : Nat) : (s.drew n).csAsserted = s.csAsserted := rfl
@[simp] theorem State.drew_busCfg (n : Nat) : (s.drew n).busCfg = s.busCfg := rfl
@[simp] theorem State.drew_slot (n : Nat) : (s.drew n).slot = s.slot := rfl
@[simp] theorem State.drew_eng (n : Nat) : (s.drew n).eng = s.eng := rfl
@[simp] theorem State.drew_devs (n : Nat) : (s.drew n).devs = s.devs := rfl
@[simp] theorem State.drew_ram (n : Nat) : (s.drew n).ram = s.ram := rfl
@[simp] theorem State.drew_trace (n : Nat) : (s.drew n).trace = s.trace := rfl
@[simp] theorem State.drew_draws (n : Nat) : (s.drew n).draws = s.draws + n := rfl
@[simp] theorem State.drew_inputs (n : Nat) : (s.drew n).inputs = s.inputs := rfl

/-! ## `submit` -/

@[simp] theorem State.submit_cur (i : Nat) (cb : Option Callback) (ctx : Ctx) (tx rxp : Option Ptr) (n : Nat) :
    (s.submit i cb ctx tx rxp n).cur = s.cur := rfl
@[simp] theorem State.submit_f (i : Nat) (cb : Option Callback) (ctx : Ctx) (tx rxp : Option Ptr) (n : Nat) :
    (s.submit i cb ctx tx rxp n).f = s.f := rfl
@[simp] theorem State.submit_addr (i : Nat) (cb : Option Callback) (ctx : Ctx) (tx rxp : Option Ptr) (n : Nat) :
    (s.submit i cb ctx tx rxp n).addr = s.addr := rfl
@[simp] theorem State.submit_ptr (i : Nat) (cb : Option Callback) (ctx : Ctx) (tx rxp : Option Ptr) (n : Nat) :
    (s.submit i cb ctx tx rxp n).ptr = s.ptr := rfl
@[simp] theorem State.submit_rem (i : Nat) (cb : Option Callback) (ctx : Ctx) (tx rxp : Option Ptr) (n : Nat) :
    (s.submit i cb ctx tx rxp n).rem = s.rem := rfl
@[simp] theorem State.submit_cnt (i : Nat) (cb : Option Callback) (ctx : Ctx) (tx rxp : Option Ptr) (n : Nat) :
    (s.submit i cb ctx tx rxp n).cnt = s.cnt := rfl
@[simp] theorem State.submit_st (i : Nat) (cb : Option Callback) (ctx : Ctx) (tx rxp : Option Ptr) (n : Nat) :
    (s.submit i cb ctx tx rxp n).st = s.st := rfl
@[simp] theorem State.submit_ident (i : Nat) (cb : Option Callback) (ctx : Ctx) (tx rxp : Option Ptr) (n : Nat) :
    (s.submit i cb ctx tx rxp n).ident = s.ident := rfl
@[simp] theorem State.submit_held (i : Nat) (cb : Option Callback) (ctx : Ctx) (tx rxp : Option Ptr) (n : Nat) :
    (s.submit i cb ctx tx rxp n).held = s.held := rfl
@[simp] theorem State.submit_phase (i : Nat) (cb : Option Callback) (ctx : Ctx) (tx rxp : Option Ptr) (n : Nat) :
    (s.submit i cb ctx tx rxp n).phase = s.phase := rfl
@[simp] theorem State.submit_handler (i : Nat) (cb : Option Callback) (ctx : Ctx) (tx rxp : Option Ptr) (n : Nat) :
    (s.submit i cb ctx tx rxp n).handler = s.handler := rfl
@[simp] theorem State.submit_insts (i : Nat) (cb : Option Callback) (ctx : Ctx) (tx rxp : Option Ptr) (n : Nat) :
    (s.submit i cb ctx tx rxp n).insts = s.insts := rfl
@[simp] theorem State.submit_csAsserted (i : Nat) (cb : Option Callback) (ctx : Ctx) (tx rxp : Option Ptr) (n : Nat) :
    (s.submit i cb ctx tx rxp n).csAsserted = s.csAsserted := rfl
@[simp] theorem State.submit_busCfg (i : Nat) (cb : Option Callback) (ctx : Ctx) (tx rxp : Option Ptr) (n : Nat) :
    (s.submit i cb ctx tx rxp n).busCfg = s.busCfg := rfl
@[simp] theorem State.submit_slot (i : Nat) (cb : Option Callback) (ctx : Ctx) (tx rxp : Option Ptr) (n : Nat) :
    (s.submit i cb ctx tx rxp n).slot = { tag := .pending, owner := some i, cb := cb, ctx := ctx } := rfl
@[simp] theorem State.submit_eng (i : Nat) (cb : Option Callback) (ctx : Ctx) (tx rxp : Option Ptr) (n : Nat) :
    (s.submit i cb ctx tx rxp n).eng = some { tx := tx, rxp := rxp, n := n, performed := false } := rfl
@[simp] theorem State.submit_devs (i : Nat) (cb : Option Callback) (ctx : Ctx) (tx rxp : Option Ptr) (n : Nat) :
    (s.submit i cb ctx tx rxp n).devs = s.devs := rfl
@[simp] theorem State.submit_ram (i : Nat) (cb : Option Callback) (ctx : Ctx) (tx rxp : Option Ptr) (n : Nat) :
    (s.submit i cb ctx tx rxp n).ram = s.ram := rfl
@[simp] theorem State.submit_trace (i : Nat) (cb : Option Callback) (ctx : Ctx) (tx rxp : Option Ptr) (n : Nat) :
    (s.submit i cb ctx tx rxp n).trace = s.trace ++ [.xa tx rxp n] := rfl
@[simp] theorem State.submit_draws (i : Nat) (cb : Option Callback) (ctx : Ctx) (tx rxp : Option Ptr) (n : Nat) :
    (s.submit i cb ctx tx rxp n).draws = s.draws := rfl
@[simp] theorem State.submit_inputs (i : Nat) (cb : Option Callback) (ctx : Ctx) (tx rxp : Option Ptr) (n : Nat) :
    (s.submit i cb ctx tx rxp n).inputs = s.inputs := rfl

/-! ## `takeCompletion` -/

@[simp] theorem State.takeCompletion_cur : (s.takeCompletion).cur = s.cur := rfl
@[simp] theorem State.takeCompletion_f : (s.takeCompletion).f = s.f := rfl
@[simp] theorem State.takeCompletion_addr : (s.takeCompletion).addr = s.addr := rfl
@[simp] theorem State.takeCompletion_ptr : (s.takeCompletion).ptr = s.ptr := rfl
@[simp] theorem State.takeCompletion_rem : (s.takeCompletion).rem = s.rem := rfl
@[simp] theorem State.takeCompletion_cnt : (s.takeCompletion).cnt = s.cnt := rfl
@[simp] theorem State.takeCompletion_st : (s.takeCompletion).st = s.st := rfl
@[simp] theorem State.takeCompletion_ident : (s.takeCompletion).ident = s.ident := rfl
@[simp] theorem State.takeCompletion_held : (s.takeCompletion).held = s.held := rfl
@[simp] theorem State.takeCompletion_phase : (s.takeCompletion).phase = s.phase := rfl
@[simp] theorem State.takeCompletion_handler : (s.takeCompletion).handler = some .c1 := rfl
@[simp] theorem State.takeCompletion_insts : (s.takeCompletion).insts = s.insts := rfl
@[simp] theorem State.takeCompletion_csAsserted :
    (s.takeCompletion).csAsserted = s.csAsserted := rfl
@[simp] theorem State.takeCompletion_busCfg : (s.takeCompletion).busCfg = s.busCfg := rfl
@[simp] theorem State.takeCompletion_slot : (s.takeCompletion).slot = s.slot := rfl
@[simp] theorem State.takeCompletion_eng : (s.takeCompletion).eng = s.eng := rfl
@[simp] theorem State.takeCompletion_devs : (s.takeCompletion).devs = s.devs := rfl
@[simp] theorem State.takeCompletion_ram : (s.takeCompletion).ram = s.ram := rfl
@[simp] theorem State.takeCompletion_trace : (s.takeCompletion).trace = s.trace := rfl
@[simp] theorem State.takeCompletion_draws : (s.takeCompletion).draws = s.draws := rfl
@[simp] theorem State.takeCompletion_inputs : (s.takeCompletion).inputs = s.inputs := rfl

/-! ## `returnFromCompletion` -/

@[simp] theorem State.returnFromCompletion_cur : (s.returnFromCompletion).cur = s.cur := rfl
@[simp] theorem State.returnFromCompletion_f : (s.returnFromCompletion).f = s.f := rfl
@[simp] theorem State.returnFromCompletion_addr : (s.returnFromCompletion).addr = s.addr := rfl
@[simp] theorem State.returnFromCompletion_ptr : (s.returnFromCompletion).ptr = s.ptr := rfl
@[simp] theorem State.returnFromCompletion_rem : (s.returnFromCompletion).rem = s.rem := rfl
@[simp] theorem State.returnFromCompletion_cnt : (s.returnFromCompletion).cnt = s.cnt := rfl
@[simp] theorem State.returnFromCompletion_st : (s.returnFromCompletion).st = s.st := rfl
@[simp] theorem State.returnFromCompletion_ident : (s.returnFromCompletion).ident = s.ident := rfl
@[simp] theorem State.returnFromCompletion_held : (s.returnFromCompletion).held = s.held := rfl
@[simp] theorem State.returnFromCompletion_phase : (s.returnFromCompletion).phase = s.phase := rfl
@[simp] theorem State.returnFromCompletion_handler : (s.returnFromCompletion).handler = none := rfl
@[simp] theorem State.returnFromCompletion_insts : (s.returnFromCompletion).insts = s.insts := rfl
@[simp] theorem State.returnFromCompletion_csAsserted :
    (s.returnFromCompletion).csAsserted = s.csAsserted := rfl
@[simp] theorem State.returnFromCompletion_busCfg :
    (s.returnFromCompletion).busCfg = s.busCfg := rfl
@[simp] theorem State.returnFromCompletion_slot : (s.returnFromCompletion).slot = s.slot := rfl
@[simp] theorem State.returnFromCompletion_eng : (s.returnFromCompletion).eng = s.eng := rfl
@[simp] theorem State.returnFromCompletion_devs : (s.returnFromCompletion).devs = s.devs := rfl
@[simp] theorem State.returnFromCompletion_ram : (s.returnFromCompletion).ram = s.ram := rfl
@[simp] theorem State.returnFromCompletion_trace : (s.returnFromCompletion).trace = s.trace := rfl
@[simp] theorem State.returnFromCompletion_draws : (s.returnFromCompletion).draws = s.draws := rfl
@[simp] theorem State.returnFromCompletion_inputs :
    (s.returnFromCompletion).inputs = s.inputs := rfl

/-! ## `stepC2` -/

@[simp] theorem State.stepC2_cur : (s.stepC2).cur = s.cur := rfl
@[simp] theorem State.stepC2_f : (s.stepC2).f = s.f := rfl
@[simp] theorem State.stepC2_addr : (s.stepC2).addr = s.addr := rfl
@[simp] theorem State.stepC2_ptr : (s.stepC2).ptr = s.ptr := rfl
@[simp] theorem State.stepC2_rem : (s.stepC2).rem = s.rem := rfl
@[simp] theorem State.stepC2_cnt : (s.stepC2).cnt = s.cnt := rfl
@[simp] theorem State.stepC2_st : (s.stepC2).st = s.st := rfl
@[simp] theorem State.stepC2_ident : (s.stepC2).ident = s.ident := rfl
@[simp] theorem State.stepC2_held : (s.stepC2).held = s.held := rfl
@[simp] theorem State.stepC2_phase : (s.stepC2).phase = s.phase := rfl
@[simp] theorem State.stepC2_handler : (s.stepC2).handler = some .c3 := rfl
@[simp] theorem State.stepC2_insts : (s.stepC2).insts = s.insts := rfl
@[simp] theorem State.stepC2_csAsserted : (s.stepC2).csAsserted = s.csAsserted := rfl
@[simp] theorem State.stepC2_busCfg : (s.stepC2).busCfg = s.busCfg := rfl
@[simp] theorem State.stepC2_slot :
    (s.stepC2).slot = { s.slot with owner := none, tag := .idle } := rfl
@[simp] theorem State.stepC2_eng : (s.stepC2).eng = none := rfl
@[simp] theorem State.stepC2_devs : (s.stepC2).devs = s.devs := rfl
@[simp] theorem State.stepC2_ram : (s.stepC2).ram = s.ram := rfl
@[simp] theorem State.stepC2_trace : (s.stepC2).trace = s.trace := rfl
@[simp] theorem State.stepC2_draws : (s.stepC2).draws = s.draws := rfl
@[simp] theorem State.stepC2_inputs : (s.stepC2).inputs = s.inputs := rfl

/-! ## `stepC3` -/

@[simp] theorem State.stepC3_cur : (s.stepC3).cur = s.cur := rfl
@[simp] theorem State.stepC3_f : (s.stepC3).f = s.f := rfl
@[simp] theorem State.stepC3_addr : (s.stepC3).addr = s.addr := rfl
@[simp] theorem State.stepC3_ptr : (s.stepC3).ptr = s.ptr := rfl
@[simp] theorem State.stepC3_rem : (s.stepC3).rem = s.rem := rfl
@[simp] theorem State.stepC3_cnt : (s.stepC3).cnt = s.cnt := rfl
@[simp] theorem State.stepC3_st : (s.stepC3).st = s.st := rfl
@[simp] theorem State.stepC3_ident : (s.stepC3).ident = s.ident := rfl
@[simp] theorem State.stepC3_held : (s.stepC3).held = s.held := rfl
@[simp] theorem State.stepC3_phase : (s.stepC3).phase = s.phase := rfl
@[simp] theorem State.stepC3_handler : (s.stepC3).handler = some .c4 := rfl
@[simp] theorem State.stepC3_insts : (s.stepC3).insts = s.insts := rfl
@[simp] theorem State.stepC3_csAsserted : (s.stepC3).csAsserted = s.csAsserted := rfl
@[simp] theorem State.stepC3_busCfg : (s.stepC3).busCfg = s.busCfg := rfl
@[simp] theorem State.stepC3_slot : (s.stepC3).slot = s.slot := rfl
@[simp] theorem State.stepC3_eng : (s.stepC3).eng = s.eng := rfl
@[simp] theorem State.stepC3_devs : (s.stepC3).devs = s.devs := rfl
@[simp] theorem State.stepC3_ram : (s.stepC3).ram = s.ram := rfl
@[simp] theorem State.stepC3_trace : (s.stepC3).trace = s.trace ++ [.cb s.slot.cb s.slot.ctx] := rfl
@[simp] theorem State.stepC3_draws : (s.stepC3).draws = s.draws := rfl
@[simp] theorem State.stepC3_inputs : (s.stepC3).inputs = s.inputs := rfl

/-! ## `stepC4` -/

@[simp] theorem State.stepC4_cur : (s.stepC4).cur = s.cur := rfl
@[simp] theorem State.stepC4_f : (s.stepC4).f = s.f := rfl
@[simp] theorem State.stepC4_addr : (s.stepC4).addr = s.addr := rfl
@[simp] theorem State.stepC4_ptr : (s.stepC4).ptr = s.ptr := rfl
@[simp] theorem State.stepC4_rem : (s.stepC4).rem = s.rem := rfl
@[simp] theorem State.stepC4_cnt : (s.stepC4).cnt = s.cnt := rfl
@[simp] theorem State.stepC4_st : (s.stepC4).st = s.st := rfl
@[simp] theorem State.stepC4_ident : (s.stepC4).ident = s.ident := rfl
@[simp] theorem State.stepC4_held : (s.stepC4).held = s.held := rfl
@[simp] theorem State.stepC4_phase : (s.stepC4).phase = s.phase := rfl
@[simp] theorem State.stepC4_handler : (s.stepC4).handler = none := rfl
@[simp] theorem State.stepC4_insts : (s.stepC4).insts = s.insts := rfl
@[simp] theorem State.stepC4_csAsserted : (s.stepC4).csAsserted = s.csAsserted := rfl
@[simp] theorem State.stepC4_busCfg : (s.stepC4).busCfg = s.busCfg := rfl
@[simp] theorem State.stepC4_slot : (s.stepC4).slot = { s.slot with cb := none } := rfl
@[simp] theorem State.stepC4_eng : (s.stepC4).eng = s.eng := rfl
@[simp] theorem State.stepC4_devs : (s.stepC4).devs = s.devs := rfl
@[simp] theorem State.stepC4_ram : (s.stepC4).ram = s.ram := rfl
@[simp] theorem State.stepC4_trace : (s.stepC4).trace = s.trace := rfl
@[simp] theorem State.stepC4_draws : (s.stepC4).draws = s.draws := rfl
@[simp] theorem State.stepC4_inputs : (s.stepC4).inputs = s.inputs := rfl

/-! ## `goto` -/

@[simp] theorem State.goto_cur (op : HostOp) (k : Nat) : (s.goto op k).cur = s.cur := rfl
@[simp] theorem State.goto_f (op : HostOp) (k : Nat) : (s.goto op k).f = s.f := rfl
@[simp] theorem State.goto_addr (op : HostOp) (k : Nat) : (s.goto op k).addr = s.addr := rfl
@[simp] theorem State.goto_ptr (op : HostOp) (k : Nat) : (s.goto op k).ptr = s.ptr := rfl
@[simp] theorem State.goto_rem (op : HostOp) (k : Nat) : (s.goto op k).rem = s.rem := rfl
@[simp] theorem State.goto_cnt (op : HostOp) (k : Nat) : (s.goto op k).cnt = s.cnt := rfl
@[simp] theorem State.goto_st (op : HostOp) (k : Nat) : (s.goto op k).st = s.st := rfl
@[simp] theorem State.goto_ident (op : HostOp) (k : Nat) : (s.goto op k).ident = s.ident := rfl
@[simp] theorem State.goto_held (op : HostOp) (k : Nat) : (s.goto op k).held = s.held := rfl
@[simp] theorem State.goto_phase (op : HostOp) (k : Nat) : (s.goto op k).phase = .busy op k := rfl
@[simp] theorem State.goto_handler (op : HostOp) (k : Nat) :
    (s.goto op k).handler = s.handler := rfl
@[simp] theorem State.goto_insts (op : HostOp) (k : Nat) : (s.goto op k).insts = s.insts := rfl
@[simp] theorem State.goto_csAsserted (op : HostOp) (k : Nat) :
    (s.goto op k).csAsserted = s.csAsserted := rfl
@[simp] theorem State.goto_busCfg (op : HostOp) (k : Nat) : (s.goto op k).busCfg = s.busCfg := rfl
@[simp] theorem State.goto_slot (op : HostOp) (k : Nat) : (s.goto op k).slot = s.slot := rfl
@[simp] theorem State.goto_eng (op : HostOp) (k : Nat) : (s.goto op k).eng = s.eng := rfl
@[simp] theorem State.goto_devs (op : HostOp) (k : Nat) : (s.goto op k).devs = s.devs := rfl
@[simp] theorem State.goto_ram (op : HostOp) (k : Nat) : (s.goto op k).ram = s.ram := rfl
@[simp] theorem State.goto_trace (op : HostOp) (k : Nat) : (s.goto op k).trace = s.trace := rfl
@[simp] theorem State.goto_draws (op : HostOp) (k : Nat) : (s.goto op k).draws = s.draws := rfl
@[simp] theorem State.goto_inputs (op : HostOp) (k : Nat) : (s.goto op k).inputs = s.inputs := rfl

/-! ## `returnOp` -/

@[simp] theorem State.returnOp_cur (op : HostOp) : (s.returnOp op).cur = s.cur := rfl
@[simp] theorem State.returnOp_f (op : HostOp) : (s.returnOp op).f = s.f := rfl
@[simp] theorem State.returnOp_addr (op : HostOp) : (s.returnOp op).addr = s.addr := rfl
@[simp] theorem State.returnOp_ptr (op : HostOp) : (s.returnOp op).ptr = s.ptr := rfl
@[simp] theorem State.returnOp_rem (op : HostOp) : (s.returnOp op).rem = s.rem := rfl
@[simp] theorem State.returnOp_cnt (op : HostOp) : (s.returnOp op).cnt = s.cnt := rfl
@[simp] theorem State.returnOp_st (op : HostOp) : (s.returnOp op).st = s.st := rfl
@[simp] theorem State.returnOp_ident (op : HostOp) : (s.returnOp op).ident = s.ident := rfl
@[simp] theorem State.returnOp_held (op : HostOp) : (s.returnOp op).held = s.held := rfl
@[simp] theorem State.returnOp_phase (op : HostOp) : (s.returnOp op).phase = .idle := rfl
@[simp] theorem State.returnOp_handler (op : HostOp) : (s.returnOp op).handler = s.handler := rfl
@[simp] theorem State.returnOp_insts (op : HostOp) : (s.returnOp op).insts = s.insts := rfl
@[simp] theorem State.returnOp_csAsserted (op : HostOp) :
    (s.returnOp op).csAsserted = s.csAsserted := rfl
@[simp] theorem State.returnOp_busCfg (op : HostOp) : (s.returnOp op).busCfg = s.busCfg := rfl
@[simp] theorem State.returnOp_slot (op : HostOp) : (s.returnOp op).slot = s.slot := rfl
@[simp] theorem State.returnOp_eng (op : HostOp) : (s.returnOp op).eng = s.eng := rfl
@[simp] theorem State.returnOp_devs (op : HostOp) : (s.returnOp op).devs = s.devs := rfl
@[simp] theorem State.returnOp_ram (op : HostOp) : (s.returnOp op).ram = s.ram := rfl
@[simp] theorem State.returnOp_trace (op : HostOp) :
    (s.returnOp op).trace = s.trace ++ [.ret op (s.result op)] := rfl
@[simp] theorem State.returnOp_draws (op : HostOp) : (s.returnOp op).draws = s.draws := rfl
@[simp] theorem State.returnOp_inputs (op : HostOp) : (s.returnOp op).inputs = s.inputs := rfl

/-! ## `advanceChunk` -/

@[simp] theorem State.advanceChunk_cur : (s.advanceChunk).cur = s.cur := rfl
@[simp] theorem State.advanceChunk_f : (s.advanceChunk).f = s.f := rfl
@[simp] theorem State.advanceChunk_addr : (s.advanceChunk).addr = s.addr + s.cnt := rfl
@[simp] theorem State.advanceChunk_ptr : (s.advanceChunk).ptr = s.ptr + s.cnt := rfl
@[simp] theorem State.advanceChunk_rem : (s.advanceChunk).rem = s.rem - s.cnt := rfl
@[simp] theorem State.advanceChunk_cnt : (s.advanceChunk).cnt = s.cnt := rfl
@[simp] theorem State.advanceChunk_st : (s.advanceChunk).st = s.st := rfl
@[simp] theorem State.advanceChunk_ident : (s.advanceChunk).ident = s.ident := rfl
@[simp] theorem State.advanceChunk_held : (s.advanceChunk).held = s.held := rfl
@[simp] theorem State.advanceChunk_phase : (s.advanceChunk).phase = s.phase := rfl
@[simp] theorem State.advanceChunk_handler : (s.advanceChunk).handler = s.handler := rfl
@[simp] theorem State.advanceChunk_insts : (s.advanceChunk).insts = s.insts := rfl
@[simp] theorem State.advanceChunk_csAsserted : (s.advanceChunk).csAsserted = s.csAsserted := rfl
@[simp] theorem State.advanceChunk_busCfg : (s.advanceChunk).busCfg = s.busCfg := rfl
@[simp] theorem State.advanceChunk_slot : (s.advanceChunk).slot = s.slot := rfl
@[simp] theorem State.advanceChunk_eng : (s.advanceChunk).eng = s.eng := rfl
@[simp] theorem State.advanceChunk_devs : (s.advanceChunk).devs = s.devs := rfl
@[simp] theorem State.advanceChunk_ram : (s.advanceChunk).ram = s.ram := rfl
@[simp] theorem State.advanceChunk_trace : (s.advanceChunk).trace = s.trace := rfl
@[simp] theorem State.advanceChunk_draws : (s.advanceChunk).draws = s.draws := rfl
@[simp] theorem State.advanceChunk_inputs : (s.advanceChunk).inputs = s.inputs := rfl

/-! ## `sleep` -/

@[simp] theorem State.sleep_cur (op : HostOp) (k : Nat) : (s.sleep op k).cur = s.cur := rfl
@[simp] theorem State.sleep_f (op : HostOp) (k : Nat) : (s.sleep op k).f = s.f := rfl
@[simp] theorem State.sleep_addr (op : HostOp) (k : Nat) : (s.sleep op k).addr = s.addr := rfl
@[simp] theorem State.sleep_ptr (op : HostOp) (k : Nat) : (s.sleep op k).ptr = s.ptr := rfl
@[simp] theorem State.sleep_rem (op : HostOp) (k : Nat) : (s.sleep op k).rem = s.rem := rfl
@[simp] theorem State.sleep_cnt (op : HostOp) (k : Nat) : (s.sleep op k).cnt = s.cnt := rfl
@[simp] theorem State.sleep_st (op : HostOp) (k : Nat) : (s.sleep op k).st = s.st := rfl
@[simp] theorem State.sleep_ident (op : HostOp) (k : Nat) : (s.sleep op k).ident = s.ident := rfl
@[simp] theorem State.sleep_held (op : HostOp) (k : Nat) : (s.sleep op k).held = s.held := rfl
@[simp] theorem State.sleep_phase (op : HostOp) (k : Nat) :
    (s.sleep op k).phase = .busy op (k - pollBack) := rfl
@[simp] theorem State.sleep_handler (op : HostOp) (k : Nat) :
    (s.sleep op k).handler = s.handler := rfl
@[simp] theorem State.sleep_insts (op : HostOp) (k : Nat) : (s.sleep op k).insts = s.insts := rfl
@[simp] theorem State.sleep_csAsserted (op : HostOp) (k : Nat) :
    (s.sleep op k).csAsserted = s.csAsserted := rfl
@[simp] theorem State.sleep_busCfg (op : HostOp) (k : Nat) : (s.sleep op k).busCfg = s.busCfg := rfl
@[simp] theorem State.sleep_slot (op : HostOp) (k : Nat) : (s.sleep op k).slot = s.slot := rfl
@[simp] theorem State.sleep_eng (op : HostOp) (k : Nat) : (s.sleep op k).eng = s.eng := rfl
@[simp] theorem State.sleep_devs (op : HostOp) (k : Nat) : (s.sleep op k).devs = s.devs := rfl
@[simp] theorem State.sleep_ram (op : HostOp) (k : Nat) : (s.sleep op k).ram = s.ram := rfl
@[simp] theorem State.sleep_trace (op : HostOp) (k : Nat) :
    (s.sleep op k).trace = s.trace ++ [.sms Config.tPollMs] := rfl
@[simp] theorem State.sleep_draws (op : HostOp) (k : Nat) : (s.sleep op k).draws = s.draws := rfl
@[simp] theorem State.sleep_inputs (op : HostOp) (k : Nat) : (s.sleep op k).inputs = s.inputs := rfl

/-! ## `hold` -/

@[simp] theorem State.hold_cur (r : Request) : (s.hold r).cur = s.cur := rfl
@[simp] theorem State.hold_f (r : Request) : (s.hold r).f = s.f := rfl
@[simp] theorem State.hold_addr (r : Request) : (s.hold r).addr = s.addr := rfl
@[simp] theorem State.hold_ptr (r : Request) : (s.hold r).ptr = s.ptr := rfl
@[simp] theorem State.hold_rem (r : Request) : (s.hold r).rem = s.rem := rfl
@[simp] theorem State.hold_cnt (r : Request) : (s.hold r).cnt = s.cnt := rfl
@[simp] theorem State.hold_st (r : Request) : (s.hold r).st = s.st := rfl
@[simp] theorem State.hold_ident (r : Request) : (s.hold r).ident = s.ident := rfl
@[simp] theorem State.hold_held (r : Request) : (s.hold r).held = s.held := rfl
@[simp] theorem State.hold_phase (r : Request) : (s.hold r).phase = s.phase := rfl
@[simp] theorem State.hold_handler (r : Request) : (s.hold r).handler = s.handler := rfl
@[simp] theorem State.hold_insts (r : Request) : (s.hold r).insts = s.insts := rfl
@[simp] theorem State.hold_csAsserted (r : Request) : (s.hold r).csAsserted = s.csAsserted := rfl
@[simp] theorem State.hold_busCfg (r : Request) : (s.hold r).busCfg = s.busCfg := rfl
@[simp] theorem State.hold_slot (r : Request) : (s.hold r).slot = s.slot := rfl
@[simp] theorem State.hold_eng (r : Request) : (s.hold r).eng = s.eng := rfl
@[simp] theorem State.hold_devs (r : Request) : (s.hold r).devs = s.devs := rfl
@[simp] theorem State.hold_ram (r : Request) : (s.hold r).ram = s.ram := rfl
@[simp] theorem State.hold_trace (r : Request) : (s.hold r).trace = s.trace := rfl
@[simp] theorem State.hold_draws (r : Request) : (s.hold r).draws = s.draws := rfl
@[simp] theorem State.hold_inputs (r : Request) :
    (s.hold r).inputs = .packet (.request (encodeRequest r)) :: s.inputs := rfl

/-! ## `exchanged` -/

@[simp] theorem State.exchanged_cur (tx : List Byte) :
    (s.exchanged tx).cur = s.cur := by unfold State.exchanged; split <;> rfl
@[simp] theorem State.exchanged_f (tx : List Byte) :
    (s.exchanged tx).f = s.f := by unfold State.exchanged; split <;> rfl
@[simp] theorem State.exchanged_addr (tx : List Byte) :
    (s.exchanged tx).addr = s.addr := by unfold State.exchanged; split <;> rfl
@[simp] theorem State.exchanged_ptr (tx : List Byte) :
    (s.exchanged tx).ptr = s.ptr := by unfold State.exchanged; split <;> rfl
@[simp] theorem State.exchanged_rem (tx : List Byte) :
    (s.exchanged tx).rem = s.rem := by unfold State.exchanged; split <;> rfl
@[simp] theorem State.exchanged_cnt (tx : List Byte) :
    (s.exchanged tx).cnt = s.cnt := by unfold State.exchanged; split <;> rfl
@[simp] theorem State.exchanged_st (tx : List Byte) :
    (s.exchanged tx).st = s.st := by unfold State.exchanged; split <;> rfl
@[simp] theorem State.exchanged_ident (tx : List Byte) :
    (s.exchanged tx).ident = s.ident := by unfold State.exchanged; split <;> rfl
@[simp] theorem State.exchanged_held (tx : List Byte) :
    (s.exchanged tx).held = s.held := by unfold State.exchanged; split <;> rfl
@[simp] theorem State.exchanged_phase (tx : List Byte) :
    (s.exchanged tx).phase = s.phase := by unfold State.exchanged; split <;> rfl
@[simp] theorem State.exchanged_handler (tx : List Byte) :
    (s.exchanged tx).handler = s.handler := by unfold State.exchanged; split <;> rfl
@[simp] theorem State.exchanged_insts (tx : List Byte) :
    (s.exchanged tx).insts = s.insts := by unfold State.exchanged; split <;> rfl
@[simp] theorem State.exchanged_csAsserted (tx : List Byte) :
    (s.exchanged tx).csAsserted = s.csAsserted := by unfold State.exchanged; split <;> rfl
@[simp] theorem State.exchanged_busCfg (tx : List Byte) :
    (s.exchanged tx).busCfg = s.busCfg := by unfold State.exchanged; split <;> rfl
@[simp] theorem State.exchanged_slot (tx : List Byte) :
    (s.exchanged tx).slot = s.slot := by unfold State.exchanged; split <;> rfl
@[simp] theorem State.exchanged_eng (tx : List Byte) :
    (s.exchanged tx).eng = s.eng := by unfold State.exchanged; split <;> rfl
@[simp] theorem State.exchanged_ram (tx : List Byte) :
    (s.exchanged tx).ram = s.ram := by unfold State.exchanged; split <;> rfl
@[simp] theorem State.exchanged_trace (tx : List Byte) :
    (s.exchanged tx).trace = s.trace := by unfold State.exchanged; split <;> rfl
@[simp] theorem State.exchanged_draws (tx : List Byte) :
    (s.exchanged tx).draws = s.draws + 2 * tx.length := by unfold State.exchanged; split <;> rfl
@[simp] theorem State.exchanged_inputs (tx : List Byte) :
    (s.exchanged tx).inputs = s.inputs := by unfold State.exchanged; split <;> rfl

/-! ## `engineStore` -/

@[simp] theorem State.engineStore_cur (x : Transfer) (rx : List Byte) :
    (s.engineStore x rx).cur = s.cur := by unfold State.engineStore; split <;> rfl
@[simp] theorem State.engineStore_f (x : Transfer) (rx : List Byte) :
    (s.engineStore x rx).f = s.f := by unfold State.engineStore; split <;> rfl
@[simp] theorem State.engineStore_addr (x : Transfer) (rx : List Byte) :
    (s.engineStore x rx).addr = s.addr := by unfold State.engineStore; split <;> rfl
@[simp] theorem State.engineStore_ptr (x : Transfer) (rx : List Byte) :
    (s.engineStore x rx).ptr = s.ptr := by unfold State.engineStore; split <;> rfl
@[simp] theorem State.engineStore_rem (x : Transfer) (rx : List Byte) :
    (s.engineStore x rx).rem = s.rem := by unfold State.engineStore; split <;> rfl
@[simp] theorem State.engineStore_cnt (x : Transfer) (rx : List Byte) :
    (s.engineStore x rx).cnt = s.cnt := by unfold State.engineStore; split <;> rfl
@[simp] theorem State.engineStore_st (x : Transfer) (rx : List Byte) :
    (s.engineStore x rx).st = s.st := by unfold State.engineStore; split <;> rfl
@[simp] theorem State.engineStore_ident (x : Transfer) (rx : List Byte) :
    (s.engineStore x rx).ident = s.ident := by unfold State.engineStore; split <;> rfl
@[simp] theorem State.engineStore_held (x : Transfer) (rx : List Byte) :
    (s.engineStore x rx).held = s.held := by unfold State.engineStore; split <;> rfl
@[simp] theorem State.engineStore_phase (x : Transfer) (rx : List Byte) :
    (s.engineStore x rx).phase = s.phase := by unfold State.engineStore; split <;> rfl
@[simp] theorem State.engineStore_handler (x : Transfer) (rx : List Byte) :
    (s.engineStore x rx).handler = s.handler := by unfold State.engineStore; split <;> rfl
@[simp] theorem State.engineStore_insts (x : Transfer) (rx : List Byte) :
    (s.engineStore x rx).insts = s.insts := by unfold State.engineStore; split <;> rfl
@[simp] theorem State.engineStore_csAsserted (x : Transfer) (rx : List Byte) :
    (s.engineStore x rx).csAsserted = s.csAsserted := by unfold State.engineStore; split <;> rfl
@[simp] theorem State.engineStore_busCfg (x : Transfer) (rx : List Byte) :
    (s.engineStore x rx).busCfg = s.busCfg := by unfold State.engineStore; split <;> rfl
@[simp] theorem State.engineStore_slot (x : Transfer) (rx : List Byte) :
    (s.engineStore x rx).slot = s.slot := by unfold State.engineStore; split <;> rfl
@[simp] theorem State.engineStore_eng (x : Transfer) (rx : List Byte) :
    (s.engineStore x rx).eng = s.eng := by unfold State.engineStore; split <;> rfl
@[simp] theorem State.engineStore_devs (x : Transfer) (rx : List Byte) :
    (s.engineStore x rx).devs = s.devs := by unfold State.engineStore; split <;> rfl
@[simp] theorem State.engineStore_trace (x : Transfer) (rx : List Byte) :
    (s.engineStore x rx).trace = s.trace := by unfold State.engineStore; split <;> rfl
@[simp] theorem State.engineStore_draws (x : Transfer) (rx : List Byte) :
    (s.engineStore x rx).draws = s.draws := by unfold State.engineStore; split <;> rfl
@[simp] theorem State.engineStore_inputs (x : Transfer) (rx : List Byte) :
    (s.engineStore x rx).inputs = s.inputs := by unfold State.engineStore; split <;> rfl

/-! ## `perform` -/

@[simp] theorem State.perform_cur : (s.perform).cur = s.cur := by
  unfold State.perform
  repeat' split
  all_goals simp
@[simp] theorem State.perform_f : (s.perform).f = s.f := by
  unfold State.perform
  repeat' split
  all_goals simp
@[simp] theorem State.perform_addr : (s.perform).addr = s.addr := by
  unfold State.perform
  repeat' split
  all_goals simp
@[simp] theorem State.perform_ptr : (s.perform).ptr = s.ptr := by
  unfold State.perform
  repeat' split
  all_goals simp
@[simp] theorem State.perform_rem : (s.perform).rem = s.rem := by
  unfold State.perform
  repeat' split
  all_goals simp
@[simp] theorem State.perform_cnt : (s.perform).cnt = s.cnt := by
  unfold State.perform
  repeat' split
  all_goals simp
@[simp] theorem State.perform_st : (s.perform).st = s.st := by
  unfold State.perform
  repeat' split
  all_goals simp
@[simp] theorem State.perform_ident : (s.perform).ident = s.ident := by
  unfold State.perform
  repeat' split
  all_goals simp
@[simp] theorem State.perform_held : (s.perform).held = s.held := by
  unfold State.perform
  repeat' split
  all_goals simp
@[simp] theorem State.perform_phase : (s.perform).phase = s.phase := by
  unfold State.perform
  repeat' split
  all_goals simp
@[simp] theorem State.perform_handler : (s.perform).handler = s.handler := by
  unfold State.perform
  repeat' split
  all_goals simp
@[simp] theorem State.perform_insts : (s.perform).insts = s.insts := by
  unfold State.perform
  repeat' split
  all_goals simp
@[simp] theorem State.perform_csAsserted : (s.perform).csAsserted = s.csAsserted := by
  unfold State.perform
  repeat' split
  all_goals simp
@[simp] theorem State.perform_busCfg : (s.perform).busCfg = s.busCfg := by
  unfold State.perform
  repeat' split
  all_goals simp
@[simp] theorem State.perform_slot : (s.perform).slot = s.slot := by
  unfold State.perform
  repeat' split
  all_goals simp
@[simp] theorem State.perform_inputs : (s.perform).inputs = s.inputs := by
  unfold State.perform
  repeat' split
  all_goals simp

/-! ## `finish` -/

@[simp] theorem State.finish_cur (i : Nat) : (s.finish i).cur = s.cur := by
  unfold State.finish
  repeat' split
  all_goals simp
@[simp] theorem State.finish_f (i : Nat) : (s.finish i).f = s.f := by
  unfold State.finish
  repeat' split
  all_goals simp
@[simp] theorem State.finish_addr (i : Nat) : (s.finish i).addr = s.addr := by
  unfold State.finish
  repeat' split
  all_goals simp
@[simp] theorem State.finish_ptr (i : Nat) : (s.finish i).ptr = s.ptr := by
  unfold State.finish
  repeat' split
  all_goals simp
@[simp] theorem State.finish_rem (i : Nat) : (s.finish i).rem = s.rem := by
  unfold State.finish
  repeat' split
  all_goals simp
@[simp] theorem State.finish_cnt (i : Nat) : (s.finish i).cnt = s.cnt := by
  unfold State.finish
  repeat' split
  all_goals simp
@[simp] theorem State.finish_st (i : Nat) : (s.finish i).st = s.st := by
  unfold State.finish
  repeat' split
  all_goals simp
@[simp] theorem State.finish_ident (i : Nat) : (s.finish i).ident = s.ident := by
  unfold State.finish
  repeat' split
  all_goals simp
@[simp] theorem State.finish_held (i : Nat) : (s.finish i).held = s.held := by
  unfold State.finish
  repeat' split
  all_goals simp
@[simp] theorem State.finish_phase (i : Nat) : (s.finish i).phase = s.phase := by
  unfold State.finish
  repeat' split
  all_goals simp
@[simp] theorem State.finish_handler (i : Nat) : (s.finish i).handler = s.handler := by
  unfold State.finish
  repeat' split
  all_goals simp
@[simp] theorem State.finish_insts (i : Nat) : (s.finish i).insts = s.insts := by
  unfold State.finish
  repeat' split
  all_goals simp
@[simp] theorem State.finish_csAsserted (i : Nat) : (s.finish i).csAsserted = s.csAsserted := by
  unfold State.finish
  repeat' split
  all_goals simp
@[simp] theorem State.finish_busCfg (i : Nat) : (s.finish i).busCfg = s.busCfg := by
  unfold State.finish
  repeat' split
  all_goals simp
@[simp] theorem State.finish_slot (i : Nat) : (s.finish i).slot = s.slot := by
  unfold State.finish
  repeat' split
  all_goals simp
@[simp] theorem State.finish_eng (i : Nat) : (s.finish i).eng = s.eng := by
  unfold State.finish
  repeat' split
  all_goals simp
@[simp] theorem State.finish_ram (i : Nat) : (s.finish i).ram = s.ram := by
  unfold State.finish
  repeat' split
  all_goals simp
@[simp] theorem State.finish_inputs (i : Nat) : (s.finish i).inputs = s.inputs := by
  unfold State.finish
  repeat' split
  all_goals simp

/-! ## `stepC1` -/

@[simp] theorem State.stepC1_cur : (s.stepC1).cur = s.cur := by unfold State.stepC1; split <;> rfl
@[simp] theorem State.stepC1_f : (s.stepC1).f = s.f := by unfold State.stepC1; split <;> rfl
@[simp] theorem State.stepC1_addr :
    (s.stepC1).addr = s.addr := by unfold State.stepC1; split <;> rfl
@[simp] theorem State.stepC1_ptr : (s.stepC1).ptr = s.ptr := by unfold State.stepC1; split <;> rfl
@[simp] theorem State.stepC1_rem : (s.stepC1).rem = s.rem := by unfold State.stepC1; split <;> rfl
@[simp] theorem State.stepC1_cnt : (s.stepC1).cnt = s.cnt := by unfold State.stepC1; split <;> rfl
@[simp] theorem State.stepC1_st : (s.stepC1).st = s.st := by unfold State.stepC1; split <;> rfl
@[simp] theorem State.stepC1_ident :
    (s.stepC1).ident = s.ident := by unfold State.stepC1; split <;> rfl
@[simp] theorem State.stepC1_held :
    (s.stepC1).held = s.held := by unfold State.stepC1; split <;> rfl
@[simp] theorem State.stepC1_phase :
    (s.stepC1).phase = s.phase := by unfold State.stepC1; split <;> rfl
@[simp] theorem State.stepC1_handler :
    (s.stepC1).handler = some .c2 := by unfold State.stepC1; split <;> rfl
@[simp] theorem State.stepC1_busCfg :
    (s.stepC1).busCfg = s.busCfg := by unfold State.stepC1; split <;> rfl
@[simp] theorem State.stepC1_slot :
    (s.stepC1).slot = s.slot := by unfold State.stepC1; split <;> rfl
@[simp] theorem State.stepC1_eng : (s.stepC1).eng = s.eng := by unfold State.stepC1; split <;> rfl
@[simp] theorem State.stepC1_ram : (s.stepC1).ram = s.ram := by unfold State.stepC1; split <;> rfl
@[simp] theorem State.stepC1_draws :
    (s.stepC1).draws = s.draws := by unfold State.stepC1; split <;> rfl
@[simp] theorem State.stepC1_inputs :
    (s.stepC1).inputs = s.inputs := by unfold State.stepC1; split <;> rfl

/-! ## `foreignMove` -/

@[simp] theorem State.foreignMove_cur :
    (s.foreignMove).cur = s.cur := by unfold State.foreignMove; split <;> rfl
@[simp] theorem State.foreignMove_f :
    (s.foreignMove).f = s.f := by unfold State.foreignMove; split <;> rfl
@[simp] theorem State.foreignMove_addr :
    (s.foreignMove).addr = s.addr := by unfold State.foreignMove; split <;> rfl
@[simp] theorem State.foreignMove_ptr :
    (s.foreignMove).ptr = s.ptr := by unfold State.foreignMove; split <;> rfl
@[simp] theorem State.foreignMove_rem :
    (s.foreignMove).rem = s.rem := by unfold State.foreignMove; split <;> rfl
@[simp] theorem State.foreignMove_cnt :
    (s.foreignMove).cnt = s.cnt := by unfold State.foreignMove; split <;> rfl
@[simp] theorem State.foreignMove_st :
    (s.foreignMove).st = s.st := by unfold State.foreignMove; split <;> rfl
@[simp] theorem State.foreignMove_ident :
    (s.foreignMove).ident = s.ident := by unfold State.foreignMove; split <;> rfl
@[simp] theorem State.foreignMove_held :
    (s.foreignMove).held = s.held := by unfold State.foreignMove; split <;> rfl
@[simp] theorem State.foreignMove_phase :
    (s.foreignMove).phase = s.phase := by unfold State.foreignMove; split <;> rfl
@[simp] theorem State.foreignMove_handler :
    (s.foreignMove).handler = s.handler := by unfold State.foreignMove; split <;> rfl
@[simp] theorem State.foreignMove_insts :
    (s.foreignMove).insts = s.insts := by unfold State.foreignMove; split <;> rfl
@[simp] theorem State.foreignMove_csAsserted :
    (s.foreignMove).csAsserted = s.csAsserted := by unfold State.foreignMove; split <;> rfl
@[simp] theorem State.foreignMove_slot :
    (s.foreignMove).slot = s.slot := by unfold State.foreignMove; split <;> rfl
@[simp] theorem State.foreignMove_eng :
    (s.foreignMove).eng = s.eng := by unfold State.foreignMove; split <;> rfl
@[simp] theorem State.foreignMove_devs :
    (s.foreignMove).devs = s.devs := by unfold State.foreignMove; split <;> rfl
@[simp] theorem State.foreignMove_ram :
    (s.foreignMove).ram = s.ram := by unfold State.foreignMove; split <;> rfl
@[simp] theorem State.foreignMove_trace :
    (s.foreignMove).trace = s.trace := by unfold State.foreignMove; split <;> rfl
@[simp] theorem State.foreignMove_draws :
    (s.foreignMove).draws = s.draws := by unfold State.foreignMove; split <;> rfl
@[simp] theorem State.foreignMove_inputs :
    (s.foreignMove).inputs = s.inputs := by unfold State.foreignMove; split <;> rfl

/-! ## `envMove` -/

@[simp] theorem State.envMove_cur (e : EnvMove) :
    (s.envMove e).cur = s.cur := by cases e <;> simp [State.envMove]
@[simp] theorem State.envMove_f (e : EnvMove) :
    (s.envMove e).f = s.f := by cases e <;> simp [State.envMove]
@[simp] theorem State.envMove_addr (e : EnvMove) :
    (s.envMove e).addr = s.addr := by cases e <;> simp [State.envMove]
@[simp] theorem State.envMove_ptr (e : EnvMove) :
    (s.envMove e).ptr = s.ptr := by cases e <;> simp [State.envMove]
@[simp] theorem State.envMove_rem (e : EnvMove) :
    (s.envMove e).rem = s.rem := by cases e <;> simp [State.envMove]
@[simp] theorem State.envMove_cnt (e : EnvMove) :
    (s.envMove e).cnt = s.cnt := by cases e <;> simp [State.envMove]
@[simp] theorem State.envMove_st (e : EnvMove) :
    (s.envMove e).st = s.st := by cases e <;> simp [State.envMove]
@[simp] theorem State.envMove_ident (e : EnvMove) :
    (s.envMove e).ident = s.ident := by cases e <;> simp [State.envMove]
@[simp] theorem State.envMove_held (e : EnvMove) :
    (s.envMove e).held = s.held := by cases e <;> simp [State.envMove]
@[simp] theorem State.envMove_phase (e : EnvMove) :
    (s.envMove e).phase = s.phase := by cases e <;> simp [State.envMove]
@[simp] theorem State.envMove_handler (e : EnvMove) :
    (s.envMove e).handler = s.handler := by cases e <;> simp [State.envMove]
@[simp] theorem State.envMove_insts (e : EnvMove) :
    (s.envMove e).insts = s.insts := by cases e <;> simp [State.envMove]
@[simp] theorem State.envMove_csAsserted (e : EnvMove) :
    (s.envMove e).csAsserted = s.csAsserted := by cases e <;> simp [State.envMove]
@[simp] theorem State.envMove_slot (e : EnvMove) :
    (s.envMove e).slot = s.slot := by cases e <;> simp [State.envMove]
@[simp] theorem State.envMove_inputs (e : EnvMove) :
    (s.envMove e).inputs = s.inputs := by cases e <;> simp [State.envMove]

/-! ## `capture` -/

@[simp] theorem State.capture_cur (c : Cmd) (rx : List Byte) :
    (s.capture c rx).cur = s.cur := by cases c <;> rfl
@[simp] theorem State.capture_f (c : Cmd) (rx : List Byte) :
    (s.capture c rx).f = s.f := by cases c <;> rfl
@[simp] theorem State.capture_addr (c : Cmd) (rx : List Byte) :
    (s.capture c rx).addr = s.addr := by cases c <;> rfl
@[simp] theorem State.capture_ptr (c : Cmd) (rx : List Byte) :
    (s.capture c rx).ptr = s.ptr := by cases c <;> rfl
@[simp] theorem State.capture_rem (c : Cmd) (rx : List Byte) :
    (s.capture c rx).rem = s.rem := by cases c <;> rfl
@[simp] theorem State.capture_cnt (c : Cmd) (rx : List Byte) :
    (s.capture c rx).cnt = s.cnt := by cases c <;> rfl
@[simp] theorem State.capture_held (c : Cmd) (rx : List Byte) :
    (s.capture c rx).held = s.held := by cases c <;> rfl
@[simp] theorem State.capture_phase (c : Cmd) (rx : List Byte) :
    (s.capture c rx).phase = s.phase := by cases c <;> rfl
@[simp] theorem State.capture_handler (c : Cmd) (rx : List Byte) :
    (s.capture c rx).handler = s.handler := by cases c <;> rfl
@[simp] theorem State.capture_insts (c : Cmd) (rx : List Byte) :
    (s.capture c rx).insts = s.insts := by cases c <;> rfl
@[simp] theorem State.capture_csAsserted (c : Cmd) (rx : List Byte) :
    (s.capture c rx).csAsserted = s.csAsserted := by cases c <;> rfl
@[simp] theorem State.capture_busCfg (c : Cmd) (rx : List Byte) :
    (s.capture c rx).busCfg = s.busCfg := by cases c <;> rfl
@[simp] theorem State.capture_slot (c : Cmd) (rx : List Byte) :
    (s.capture c rx).slot = s.slot := by cases c <;> rfl
@[simp] theorem State.capture_eng (c : Cmd) (rx : List Byte) :
    (s.capture c rx).eng = s.eng := by cases c <;> rfl
@[simp] theorem State.capture_devs (c : Cmd) (rx : List Byte) :
    (s.capture c rx).devs = s.devs := by cases c <;> rfl
@[simp] theorem State.capture_ram (c : Cmd) (rx : List Byte) :
    (s.capture c rx).ram = s.ram := by cases c <;> rfl
@[simp] theorem State.capture_trace (c : Cmd) (rx : List Byte) :
    (s.capture c rx).trace = s.trace := by cases c <;> rfl
@[simp] theorem State.capture_draws (c : Cmd) (rx : List Byte) :
    (s.capture c rx).draws = s.draws := by cases c <;> rfl
@[simp] theorem State.capture_inputs (c : Cmd) (rx : List Byte) :
    (s.capture c rx).inputs = s.inputs := by cases c <;> rfl

/-! ## `sendFrame` -/

@[simp] theorem State.sendFrame_cur (c : Cmd) :
    (s.sendFrame c).cur = s.cur := by simp [State.sendFrame, State.exchangeBytes]
@[simp] theorem State.sendFrame_f (c : Cmd) :
    (s.sendFrame c).f = s.loadFrame c := by simp [State.sendFrame, State.exchangeBytes]
@[simp] theorem State.sendFrame_addr (c : Cmd) :
    (s.sendFrame c).addr = s.addr := by simp [State.sendFrame, State.exchangeBytes]
@[simp] theorem State.sendFrame_ptr (c : Cmd) :
    (s.sendFrame c).ptr = s.ptr := by simp [State.sendFrame, State.exchangeBytes]
@[simp] theorem State.sendFrame_rem (c : Cmd) :
    (s.sendFrame c).rem = s.rem := by simp [State.sendFrame, State.exchangeBytes]
@[simp] theorem State.sendFrame_cnt (c : Cmd) :
    (s.sendFrame c).cnt = s.cnt := by simp [State.sendFrame, State.exchangeBytes]
@[simp] theorem State.sendFrame_held (c : Cmd) :
    (s.sendFrame c).held = s.held := by simp [State.sendFrame, State.exchangeBytes]
@[simp] theorem State.sendFrame_phase (c : Cmd) :
    (s.sendFrame c).phase = s.phase := by simp [State.sendFrame, State.exchangeBytes]
@[simp] theorem State.sendFrame_handler (c : Cmd) :
    (s.sendFrame c).handler = s.handler := by simp [State.sendFrame, State.exchangeBytes]
@[simp] theorem State.sendFrame_insts (c : Cmd) :
    (s.sendFrame c).insts = s.insts := by simp [State.sendFrame, State.exchangeBytes]
@[simp] theorem State.sendFrame_csAsserted (c : Cmd) :
    (s.sendFrame c).csAsserted = s.csAsserted := by simp [State.sendFrame, State.exchangeBytes]
@[simp] theorem State.sendFrame_busCfg (c : Cmd) :
    (s.sendFrame c).busCfg = s.busCfg := by simp [State.sendFrame, State.exchangeBytes]
@[simp] theorem State.sendFrame_slot (c : Cmd) :
    (s.sendFrame c).slot = s.slot := by simp [State.sendFrame, State.exchangeBytes]
@[simp] theorem State.sendFrame_eng (c : Cmd) :
    (s.sendFrame c).eng = s.eng := by simp [State.sendFrame, State.exchangeBytes]
@[simp] theorem State.sendFrame_ram (c : Cmd) :
    (s.sendFrame c).ram = s.ram := by simp [State.sendFrame, State.exchangeBytes]
@[simp] theorem State.sendFrame_draws (c : Cmd) :
    (s.sendFrame c).draws = s.draws + 2 * (c.sent (s.loadFrame c)).length := by simp [State.sendFrame, State.exchangeBytes]
@[simp] theorem State.sendFrame_inputs (c : Cmd) :
    (s.sendFrame c).inputs = s.inputs := by simp [State.sendFrame, State.exchangeBytes]

/-! ## `receiveData` -/

@[simp] theorem State.receiveData_cur :
    (s.receiveData).cur = s.cur := by simp [State.receiveData, State.exchangeNone]
@[simp] theorem State.receiveData_f :
    (s.receiveData).f = s.f := by simp [State.receiveData, State.exchangeNone]
@[simp] theorem State.receiveData_addr :
    (s.receiveData).addr = s.addr := by simp [State.receiveData, State.exchangeNone]
@[simp] theorem State.receiveData_ptr :
    (s.receiveData).ptr = s.ptr := by simp [State.receiveData, State.exchangeNone]
@[simp] theorem State.receiveData_rem :
    (s.receiveData).rem = s.rem := by simp [State.receiveData, State.exchangeNone]
@[simp] theorem State.receiveData_cnt :
    (s.receiveData).cnt = s.cnt := by simp [State.receiveData, State.exchangeNone]
@[simp] theorem State.receiveData_st :
    (s.receiveData).st = s.st := by simp [State.receiveData, State.exchangeNone]
@[simp] theorem State.receiveData_ident :
    (s.receiveData).ident = s.ident := by simp [State.receiveData, State.exchangeNone]
@[simp] theorem State.receiveData_held :
    (s.receiveData).held = s.held := by simp [State.receiveData, State.exchangeNone]
@[simp] theorem State.receiveData_phase :
    (s.receiveData).phase = s.phase := by simp [State.receiveData, State.exchangeNone]
@[simp] theorem State.receiveData_handler :
    (s.receiveData).handler = s.handler := by simp [State.receiveData, State.exchangeNone]
@[simp] theorem State.receiveData_insts :
    (s.receiveData).insts = s.insts := by simp [State.receiveData, State.exchangeNone]
@[simp] theorem State.receiveData_csAsserted :
    (s.receiveData).csAsserted = s.csAsserted := by simp [State.receiveData, State.exchangeNone]
@[simp] theorem State.receiveData_busCfg :
    (s.receiveData).busCfg = s.busCfg := by simp [State.receiveData, State.exchangeNone]
@[simp] theorem State.receiveData_slot :
    (s.receiveData).slot = s.slot := by simp [State.receiveData, State.exchangeNone]
@[simp] theorem State.receiveData_eng :
    (s.receiveData).eng = s.eng := by simp [State.receiveData, State.exchangeNone]
@[simp] theorem State.receiveData_inputs :
    (s.receiveData).inputs = s.inputs := by simp [State.receiveData, State.exchangeNone]

/-! ## `sendData` -/

@[simp] theorem State.sendData_cur :
    (s.sendData).cur = s.cur := by simp [State.sendData, State.exchangeBytes]
@[simp] theorem State.sendData_f :
    (s.sendData).f = s.f := by simp [State.sendData, State.exchangeBytes]
@[simp] theorem State.sendData_addr :
    (s.sendData).addr = s.addr := by simp [State.sendData, State.exchangeBytes]
@[simp] theorem State.sendData_ptr :
    (s.sendData).ptr = s.ptr := by simp [State.sendData, State.exchangeBytes]
@[simp] theorem State.sendData_rem :
    (s.sendData).rem = s.rem := by simp [State.sendData, State.exchangeBytes]
@[simp] theorem State.sendData_cnt :
    (s.sendData).cnt = s.cnt := by simp [State.sendData, State.exchangeBytes]
@[simp] theorem State.sendData_st :
    (s.sendData).st = s.st := by simp [State.sendData, State.exchangeBytes]
@[simp] theorem State.sendData_ident :
    (s.sendData).ident = s.ident := by simp [State.sendData, State.exchangeBytes]
@[simp] theorem State.sendData_held :
    (s.sendData).held = s.held := by simp [State.sendData, State.exchangeBytes]
@[simp] theorem State.sendData_phase :
    (s.sendData).phase = s.phase := by simp [State.sendData, State.exchangeBytes]
@[simp] theorem State.sendData_handler :
    (s.sendData).handler = s.handler := by simp [State.sendData, State.exchangeBytes]
@[simp] theorem State.sendData_insts :
    (s.sendData).insts = s.insts := by simp [State.sendData, State.exchangeBytes]
@[simp] theorem State.sendData_csAsserted :
    (s.sendData).csAsserted = s.csAsserted := by simp [State.sendData, State.exchangeBytes]
@[simp] theorem State.sendData_busCfg :
    (s.sendData).busCfg = s.busCfg := by simp [State.sendData, State.exchangeBytes]
@[simp] theorem State.sendData_slot :
    (s.sendData).slot = s.slot := by simp [State.sendData, State.exchangeBytes]
@[simp] theorem State.sendData_eng :
    (s.sendData).eng = s.eng := by simp [State.sendData, State.exchangeBytes]
@[simp] theorem State.sendData_ram :
    (s.sendData).ram = s.ram := by simp [State.sendData, State.exchangeBytes]
@[simp] theorem State.sendData_inputs :
    (s.sendData).inputs = s.inputs := by simp [State.sendData, State.exchangeBytes]

/-! ## `enter` -/

@[simp] theorem State.enter_cur (r : Request) :
    (s.enter r).cur = s.cur := by obtain ⟨op, _, _, _, _, _, _, _⟩ := r; cases op <;> rfl
@[simp] theorem State.enter_f (r : Request) :
    (s.enter r).f = s.f := by obtain ⟨op, _, _, _, _, _, _, _⟩ := r; cases op <;> rfl
@[simp] theorem State.enter_st (r : Request) :
    (s.enter r).st = s.st := by obtain ⟨op, _, _, _, _, _, _, _⟩ := r; cases op <;> rfl
@[simp] theorem State.enter_ident (r : Request) :
    (s.enter r).ident = s.ident := by obtain ⟨op, _, _, _, _, _, _, _⟩ := r; cases op <;> rfl
@[simp] theorem State.enter_held (r : Request) :
    (s.enter r).held = s.held := by obtain ⟨op, _, _, _, _, _, _, _⟩ := r; cases op <;> rfl
@[simp] theorem State.enter_phase (r : Request) :
    (s.enter r).phase = s.phase := by obtain ⟨op, _, _, _, _, _, _, _⟩ := r; cases op <;> rfl
@[simp] theorem State.enter_handler (r : Request) :
    (s.enter r).handler = s.handler := by obtain ⟨op, _, _, _, _, _, _, _⟩ := r; cases op <;> rfl
@[simp] theorem State.enter_insts (r : Request) :
    (s.enter r).insts = s.insts := by obtain ⟨op, _, _, _, _, _, _, _⟩ := r; cases op <;> rfl
@[simp] theorem State.enter_csAsserted (r : Request) :
    (s.enter r).csAsserted = s.csAsserted := by obtain ⟨op, _, _, _, _, _, _, _⟩ := r; cases op <;> rfl
@[simp] theorem State.enter_busCfg (r : Request) :
    (s.enter r).busCfg = s.busCfg := by obtain ⟨op, _, _, _, _, _, _, _⟩ := r; cases op <;> rfl
@[simp] theorem State.enter_slot (r : Request) :
    (s.enter r).slot = s.slot := by obtain ⟨op, _, _, _, _, _, _, _⟩ := r; cases op <;> rfl
@[simp] theorem State.enter_eng (r : Request) :
    (s.enter r).eng = s.eng := by obtain ⟨op, _, _, _, _, _, _, _⟩ := r; cases op <;> rfl
@[simp] theorem State.enter_devs (r : Request) :
    (s.enter r).devs = s.devs := by obtain ⟨op, _, _, _, _, _, _, _⟩ := r; cases op <;> rfl
@[simp] theorem State.enter_ram (r : Request) :
    (s.enter r).ram = s.ram := by obtain ⟨op, _, _, _, _, _, _, _⟩ := r; cases op <;> rfl
@[simp] theorem State.enter_trace (r : Request) :
    (s.enter r).trace = s.trace := by obtain ⟨op, _, _, _, _, _, _, _⟩ := r; cases op <;> rfl
@[simp] theorem State.enter_draws (r : Request) :
    (s.enter r).draws = s.draws := by obtain ⟨op, _, _, _, _, _, _, _⟩ := r; cases op <;> rfl
@[simp] theorem State.enter_inputs (r : Request) :
    (s.enter r).inputs = s.inputs := by obtain ⟨op, _, _, _, _, _, _, _⟩ := r; cases op <;> rfl

/-! ## `accept` -/

@[simp] theorem State.accept_cur (r : Request) : (s.accept r).cur = r.i := by simp [State.accept]
@[simp] theorem State.accept_f (r : Request) : (s.accept r).f = s.f := by simp [State.accept]
@[simp] theorem State.accept_st (r : Request) : (s.accept r).st = s.st := by simp [State.accept]
@[simp] theorem State.accept_ident (r : Request) :
    (s.accept r).ident = s.ident := by simp [State.accept]
@[simp] theorem State.accept_held (r : Request) :
    (s.accept r).held = { status := r.status, cb := r.cb, ctx := r.ctx } := by simp [State.accept]
@[simp] theorem State.accept_phase (r : Request) :
    (s.accept r).phase = .busy r.op 0 := by simp [State.accept]
@[simp] theorem State.accept_handler (r : Request) :
    (s.accept r).handler = s.handler := by simp [State.accept]
@[simp] theorem State.accept_insts (r : Request) :
    (s.accept r).insts = s.insts := by simp [State.accept]
@[simp] theorem State.accept_csAsserted (r : Request) :
    (s.accept r).csAsserted = s.csAsserted := by simp [State.accept]
@[simp] theorem State.accept_busCfg (r : Request) :
    (s.accept r).busCfg = s.busCfg := by simp [State.accept]
@[simp] theorem State.accept_slot (r : Request) :
    (s.accept r).slot = s.slot := by simp [State.accept]
@[simp] theorem State.accept_eng (r : Request) : (s.accept r).eng = s.eng := by simp [State.accept]
@[simp] theorem State.accept_devs (r : Request) :
    (s.accept r).devs = s.devs := by simp [State.accept]
@[simp] theorem State.accept_ram (r : Request) : (s.accept r).ram = s.ram := by simp [State.accept]
@[simp] theorem State.accept_trace (r : Request) :
    (s.accept r).trace = s.trace := by simp [State.accept]
@[simp] theorem State.accept_draws (r : Request) :
    (s.accept r).draws = s.draws := by simp [State.accept]
@[simp] theorem State.accept_inputs (r : Request) :
    (s.accept r).inputs = s.inputs := by simp [State.accept]

/-! ## `popRun` -/

@[simp] theorem State.popRun_cur : (s.popRun).cur = s.cur := by unfold State.popRun; split <;> rfl
@[simp] theorem State.popRun_f : (s.popRun).f = s.f := by unfold State.popRun; split <;> rfl
@[simp] theorem State.popRun_addr :
    (s.popRun).addr = s.addr := by unfold State.popRun; split <;> rfl
@[simp] theorem State.popRun_ptr : (s.popRun).ptr = s.ptr := by unfold State.popRun; split <;> rfl
@[simp] theorem State.popRun_rem : (s.popRun).rem = s.rem := by unfold State.popRun; split <;> rfl
@[simp] theorem State.popRun_cnt : (s.popRun).cnt = s.cnt := by unfold State.popRun; split <;> rfl
@[simp] theorem State.popRun_st : (s.popRun).st = s.st := by unfold State.popRun; split <;> rfl
@[simp] theorem State.popRun_ident :
    (s.popRun).ident = s.ident := by unfold State.popRun; split <;> rfl
@[simp] theorem State.popRun_held :
    (s.popRun).held = s.held := by unfold State.popRun; split <;> rfl
@[simp] theorem State.popRun_phase :
    (s.popRun).phase = s.phase := by unfold State.popRun; split <;> rfl
@[simp] theorem State.popRun_handler :
    (s.popRun).handler = s.handler := by unfold State.popRun; split <;> rfl
@[simp] theorem State.popRun_insts :
    (s.popRun).insts = s.insts := by unfold State.popRun; split <;> rfl
@[simp] theorem State.popRun_csAsserted :
    (s.popRun).csAsserted = s.csAsserted := by unfold State.popRun; split <;> rfl
@[simp] theorem State.popRun_busCfg :
    (s.popRun).busCfg = s.busCfg := by unfold State.popRun; split <;> rfl
@[simp] theorem State.popRun_slot :
    (s.popRun).slot = s.slot := by unfold State.popRun; split <;> rfl
@[simp] theorem State.popRun_eng : (s.popRun).eng = s.eng := by unfold State.popRun; split <;> rfl
@[simp] theorem State.popRun_devs :
    (s.popRun).devs = s.devs := by unfold State.popRun; split <;> rfl
@[simp] theorem State.popRun_ram : (s.popRun).ram = s.ram := by unfold State.popRun; split <;> rfl
@[simp] theorem State.popRun_trace :
    (s.popRun).trace = s.trace := by unfold State.popRun; split <;> rfl
@[simp] theorem State.popRun_draws :
    (s.popRun).draws = s.draws := by unfold State.popRun; split <;> rfl

end Sys2Proof.Machine
end

