-- ==== Sys2Proof/Laws/Sequencer.lean ====
section
/-! SUPPORT. The laws of the sequencer: how a stretch of steps unrolls, what the opening of a transaction gives, and what one whole command transaction does. -/

namespace Sys2Proof.Machine

/-! ## Instances and chip selects -/

theorem State.inst_eq_of_insts {s t : State} (h : s.insts = t.insts) (i : Nat) : s.inst i = t.inst i := by
  simp [State.inst, h]

theorem State.inst_getElem {s : State} {i : Nat} (h : i < s.insts.length) : s.inst i = s.insts[i] := by
  simp [State.inst, h]

@[simp] theorem State.openTxn_inst_csId (s : State) (i j : Nat) :
    ((s.openTxn i).inst j).csId = (s.inst j).csId := by
  simp only [State.inst, State.openTxn_insts, List.getD_eq_getElem?_getD, List.getElem?_modify]
  cases s.insts[j]? <;> simp
  split <;> rfl

@[simp] theorem State.openTxn_inst_shared (s : State) (i j : Nat) :
    ((s.openTxn i).inst j).shared = (s.inst j).shared := by
  simp only [State.inst, State.openTxn_insts, List.getD_eq_getElem?_getD, List.getElem?_modify]
  cases s.insts[j]? <;> simp
  split <;> rfl

@[simp] theorem insertCs_nil (c : Nat) : insertCs c [] = [c] := rfl

/-- With distinct identifiers, the instance found by its own identifier is itself. -/
theorem findIdx?_csId {l : List Inst} (h : (l.map fun x => x.csId).Nodup) {i : Nat} {x : Inst}
    (hi : l[i]? = some x) : l.findIdx? (fun y => decide (y.csId = x.csId)) = some i := by
  obtain ⟨hlt, hx⟩ := List.getElem?_eq_some_iff.1 hi
  rw [List.findIdx?_eq_some_iff_getElem]
  refine ⟨hlt, by simp [hx], fun j hj => ?_⟩
  simp only [decide_eq_true_eq]
  intro e
  refine List.pairwise_iff_getElem.1 h j i (by simpa using Nat.lt_trans hj hlt) (by simpa using hlt) hj ?_
  simp [hx, e]

/-! ## Stretches of steps -/

/-- `j` atomic steps lead from `s` to `t` in any longer stretch. -/
def Steps (j : Nat) (s t : State) : Prop := ∀ n, runOp (n + j) s = runOp n t

theorem Steps.refl (s : State) : Steps 0 s s := fun _ => rfl

theorem Steps.trans {j k : Nat} {s t u : State} (h : Steps j s t) (h' : Steps k t u) :
    Steps (j + k) s u := fun n => by
  rw [Nat.add_comm j k, ← Nat.add_assoc, h, h']

theorem Steps.of_eq {j : Nat} {s t u : State} (h : Steps j s t) (e : t = u) : Steps j s u := e ▸ h

theorem runOp_idle {s : State} (h : s.phase = .idle) (n : Nat) : runOp n s = s := by
  cases n with
  | zero => rfl
  | succ n => simp [runOp, h]

/-- A stretch that ends with the operation returned. -/
theorem Steps.run {j n : Nat} {s t : State} (h : Steps j s t) (ht : t.phase = .idle) (hn : j ≤ n) :
    runOp n s = t := by
  obtain ⟨m, rfl⟩ := Nat.exists_eq_add_of_le hn
  rw [Nat.add_comm, h, runOp_idle ht]

/-- One step that is no sleep. -/
theorem Steps.one {s : State} {op : HostOp} {k : Nat} {m : Micro} (hp : s.phase = .busy op k)
    (hm : microAt op k = some m) (hs : ¬(m = .poll ∧ wip s.st = true)) :
    Steps 1 s (opStep op k m s) := fun n => by
  simp only [runOp, hp, hm, if_neg hs]

/-- The sleep of the poll loop ends a stretch when no other agent moves next. -/
theorem runOp_sleep {s : State} {op : HostOp} {k n : Nat} (hp : s.phase = .busy op k)
    (hm : microAt op k = some .poll) (hw : wip s.st = true)
    (hi : ∀ e r, s.inputs ≠ .env e :: r) : runOp (n + 1) s = s.sleep op k := by
  simp only [runOp, hp, hm]
  rw [if_pos ⟨trivial, hw⟩]

/-- An agent that is due moves during the sleep, and the stretch goes on. -/
theorem Steps.sleep {s : State} {op : HostOp} {k : Nat} {e : EnvMove} {r : List Input}
    (hp : s.phase = .busy op k) (hm : microAt op k = some .poll) (hw : wip s.st = true)
    (hi : s.inputs = .env e :: r) :
    Steps 1 s ({ s.sleep op k with inputs := r }.envMove e) := fun n => by
  simp only [runOp, hp, hm, hi]
  rw [if_pos ⟨trivial, hw⟩]

theorem State.goto_self {s : State} {op : HostOp} {k : Nat} (h : s.phase = .busy op k) :
    s.goto op k = s := by
  cases s; simp only [State.goto]; congr; exact h.symm

/-! ## One transaction -/

/-- The state after the opening of a transaction on instance `i` (R112). -/
def State.afterOpening (i : Nat) (s : State) : State :=
  (if (s.inst i).shared then (s.configure i).emit (.settle Config.tSettle) else s).openTxn i

theorem Steps.opening {s : State} {op : HostOp} {k : Nat} (hp : s.phase = .busy op k)
    (h0 : microAt op k = some .configure) (h1 : microAt op (k + 1) = some .settle)
    (h2 : microAt op (k + 2) = some .select) :
    Steps 3 s ((s.afterOpening s.cur).goto op (k + 3)) := by
  have a := Steps.one hp h0 (by simp)
  have b := Steps.one (s := opStep op k .configure s) (k := k + 1) (by rfl) h1 (by simp)
  have c := Steps.one (s := opStep op (k + 1) .settle (opStep op k .configure s)) (k := k + 2)
    (by rfl) h2 (by simp)
  have := (a.trans b).trans c
  have e : opStep op (k + 2) .select (opStep op (k + 1) .settle (opStep op k .configure s)) =
      (s.afterOpening s.cur).goto op (k + 3) := by
    by_cases hs : (s.inst s.cur).shared = true
    · simp [opStep, State.micro, State.afterOpening, hs, State.inst_eq_of_insts (s := State.goto op (k+1) (s.configure s.cur)) (t := s) (by simp)]
      rfl
    · simp [opStep, State.micro, State.afterOpening, hs, State.inst_eq_of_insts (s := State.goto op (k+1) s) (t := s) (by simp)]
      rfl
  rwa [e] at this

/-- The conditions under which instance `i` opens a transaction with its chip `d` alone on a bus that is ours. -/
structure State.CanOpen (i : Nat) (x : Inst) (d : Device) (s : State) : Prop where
  free : s.csAsserted = []
  inst : s.insts[i]? = some x
  closed : x.txnOpen = false
  distinct : (s.insts.map fun x => x.csId).Nodup
  bus : x.shared = true ∨ s.busCfg = .ours
  device : s.devs[i]? = some d
  present : d.present = true

theorem State.CanOpen.inst_eq {i : Nat} {x : Inst} {d : Device} {s : State} (h : s.CanOpen i x d) :
    s.inst i = x := by simp [State.inst, h.inst]

theorem modify_of_getElem? {α : Type} {l : List α} {i : Nat} {x : α} (h : l[i]? = some x)
    (g : α → α) : l.modify i g = l.set i (g x) := by
  apply List.ext_getElem?
  intro j
  rw [List.getElem?_modify, List.getElem?_set]
  split
  · next e =>
    subst e
    rw [h, if_pos (List.getElem?_eq_some_iff.1 h).1]
    rfl
  · cases l[j]? <;> rfl

/-- What the opening gives: the chip selected alone, on a bus that is ours. -/
theorem State.CanOpen.opened {i : Nat} {x : Inst} {d : Device} {s : State} (h : s.CanOpen i x d) :
    s.afterOpening i = { s with
      insts := s.insts.set i { x with txnOpen := true }
      csAsserted := [x.csId], busCfg := .ours, devs := s.devs.set i d.select
      trace := s.trace ++ s.openingEvents i ++ [.cs i .asserted] } := by
  have hi := h.inst_eq
  have h1 := modify_of_getElem? h.inst fun x => { x with txnOpen := true }
  have h2 := modify_of_getElem? h.device Device.select
  have hf := h.free
  have hx : ∀ t : State, t.insts = s.insts → t.inst i = x := fun t e => by
    rw [State.inst_eq_of_insts e, hi]
  unfold State.afterOpening State.openingEvents
  rw [hi]
  split
  · simp [State.openTxn, State.csAssert, State.setTxnOpen, State.modDev, State.emit,
      State.configure, hf, h1, h2, hx]
  · next hs =>
    have hb := h.bus.resolve_left hs
    simp [State.openTxn, State.csAssert, State.setTxnOpen, State.modDev, State.emit,
      hf, h1, h2, hx, hb]

/-- Instance `i`'s chip `d` is the only one selected, on a bus that is ours. -/
structure State.Selected (i : Nat) (x : Inst) (d : Device) (s : State) : Prop where
  alone : s.csAsserted = [x.csId]
  inst : s.insts[i]? = some x
  distinct : (s.insts.map fun x => x.csId).Nodup
  bus : s.busCfg = .ours
  device : s.devs[i]? = some d

/-- The opened state has the chip selected. -/
theorem State.CanOpen.selected {i : Nat} {x : Inst} {d : Device} {s : State} (h : s.CanOpen i x d) :
    (s.afterOpening i).Selected i { x with txnOpen := true } d.select := by
  obtain ⟨hi, hx⟩ := List.getElem?_eq_some_iff.1 h.inst
  obtain ⟨hd, -⟩ := List.getElem?_eq_some_iff.1 h.device
  rw [h.opened]
  refine ⟨rfl, by simp [hi], ?_, rfl, by simp [hd]⟩
  have : (s.insts.set i { x with txnOpen := true }).map (fun x => x.csId) =
      s.insts.map fun x => x.csId := by
    apply List.ext_getElem?
    intro j
    rw [List.getElem?_map, List.getElem?_set]
    split
    · next e => subst e; simp [hi, hx]
    · simp
  simpa [this] using h.distinct

/-- With one chip selected on a bus that is ours, what is sent reaches it and what comes back is what it answers. -/
theorem State.Selected.exchange {s : State} {i : Nat} {x : Inst} {d : Device}
    (h : s.Selected i x d) (tx : List Byte) :
    s.answers tx = d.answers (s.draws + tx.length) tx ∧
      s.exchanged tx = { s with
        draws := s.draws + 2 * tx.length, devs := s.devs.set i (d.receive tx) } := by
  have h1 : s.busDevice = some i := by
    simp only [State.busDevice, h.alone]
    exact findIdx?_csId h.distinct h.inst
  have h2 : s.onWire tx = tx := by simp [State.onWire, h.bus]
  constructor
  · simp [State.answers, h1, h.device, h.bus, h2]
  · simp [State.exchanged, h1, h2, State.modDev, modify_of_getElem? h.device]

/-- A frame sent to the selected chip. -/
theorem State.Selected.sendFrame {s : State} {i : Nat} {x : Inst} {d : Device}
    (h : s.Selected i x d) (c : Cmd) {tx : List Byte} (ht : c.sent (s.loadFrame c) = tx) :
    s.sendFrame c = { ({ s with f := s.loadFrame c }).capture c (d.answers (s.draws + tx.length) tx) with
      draws := s.draws + 2 * tx.length, devs := s.devs.set i (d.receive tx)
      trace := s.trace ++ [.x (some tx) (d.answers (s.draws + tx.length) tx)] } := by
  have h' : ({ s with f := s.loadFrame c } : State).Selected i x d :=
    ⟨h.alone, h.inst, h.distinct, h.bus, h.device⟩
  obtain ⟨e1, e2⟩ := h'.exchange tx
  simp only [State.sendFrame, State.exchangeBytes, ht, e1, e2]
  cases c <;> rfl

/-- The deassertion of the selected chip commits what it holds. -/
theorem State.Selected.endTxn {s : State} {i : Nat} {x : Inst} {d : Device} (h : s.Selected i x d) :
    s.endTxn i = { s with
      insts := s.insts.set i { x with txnOpen := false }, csAsserted := []
      devs := s.devs.set i d.commit, trace := s.trace ++ [.cs i .deasserted] } := by
  have h1 := modify_of_getElem? h.inst fun x => { x with txnOpen := false }
  have h2 := modify_of_getElem? h.device Device.commit
  have hi : s.inst i = x := by simp [State.inst, h.inst]
  simp [State.endTxn, State.csDeassert, State.setTxnOpen, State.modDev, State.emit, h.alone, hi, h1, h2]

/-- The data phase of a blocking read from the selected chip. -/
theorem State.Selected.receiveData {s : State} {i : Nat} {x : Inst} {d : Device}
    (h : s.Selected i x d) {n : Nat} (hn : s.cnt.toNat = n) {tx rx : List Byte}
    (ht : freeBytes s.draws n = tx) (hr : d.answers (s.draws + n + n) tx = rx) :
    s.receiveData = { s with
      draws := s.draws + 3 * n, devs := s.devs.set i (d.receive tx)
      ram := memWrite s.ram s.ptr rx, trace := s.trace ++ [.x none rx] } := by
  have h' : (s.drew n).Selected i x d := ⟨h.alone, h.inst, h.distinct, h.bus, h.device⟩
  obtain ⟨e1, e2⟩ := h'.exchange tx
  have hl : tx.length = n := by rw [← ht]; simp
  simp only [State.receiveData, State.exchangeNone, State.placeholder, hn, ht, e1, e2]
  rw [show (s.drew n).draws + tx.length = s.draws + n + n by rw [hl]; rfl, hr, hl]
  simp only [State.emit, State.drew]
  rw [show s.draws + n + 2 * n = s.draws + 3 * n by omega]

/-- The data phase of a blocking write to the selected chip. -/
theorem State.Selected.sendData {s : State} {i : Nat} {x : Inst} {d : Device}
    (h : s.Selected i x d) {tx : List Byte} (ht : memRead s.ram s.ptr s.cnt.toNat = tx) :
    s.sendData = { s with
      draws := s.draws + 2 * tx.length, devs := s.devs.set i (d.receive tx)
      trace := s.trace ++ [.x (some tx) (d.answers (s.draws + tx.length) tx)] } := by
  obtain ⟨e1, e2⟩ := h.exchange tx
  simp only [State.sendData, State.exchangeBytes, ht, e1, e2]
  rfl

/-- The state after a transaction has been opened on `s.cur` and one frame sent: `d` has received it. -/
def State.afterFrame (c : Cmd) (op : HostOp) (k : Nat) (x : Inst) (d : Device) (fr rx : List Byte)
    (s : State) : State :=
  { ({ s with f := s.loadFrame c }).capture c rx with
    phase := .busy op k
    insts := s.insts.set s.cur { x with txnOpen := true }
    csAsserted := [x.csId], busCfg := .ours
    devs := s.devs.set s.cur (d.select.receive fr)
    draws := s.draws + 2 * fr.length
    trace := s.trace ++ s.openingEvents s.cur ++ [.cs s.cur .asserted, .x (some fr) rx] }

/-- The first four steps of every transaction. -/
theorem Steps.frame {s : State} {op : HostOp} {k : Nat} {c : Cmd} {x : Inst} {d : Device}
    {fr rx : List Byte} (hp : s.phase = .busy op k) (ho : s.CanOpen s.cur x d)
    (h0 : microAt op k = some .configure) (h1 : microAt op (k + 1) = some .settle)
    (h2 : microAt op (k + 2) = some .select) (h3 : microAt op (k + 3) = some (.send c))
    (he : c.sent (s.loadFrame c) = fr)
    (hr : d.select.answers (s.draws + fr.length) fr = rx) :
    Steps 4 s (s.afterFrame c op (k + 4) x d fr rx) ∧
      (s.afterFrame c op (k + 4) x d fr rx).Selected s.cur { x with txnOpen := true }
        (d.select.receive fr) := by
  obtain ⟨hd, -⟩ := List.getElem?_eq_some_iff.1 ho.device
  have a := Steps.opening hp h0 h1 h2
  have hs := ho.selected
  have hs' : ((s.afterOpening s.cur).goto op (k + 3)).Selected s.cur { x with txnOpen := true } d.select :=
    ⟨hs.alone, hs.inst, hs.distinct, hs.bus, hs.device⟩
  have b := a.trans (Steps.one (k := k + 3) (by rfl) h3 (by simp))
  have hl : ((s.afterOpening s.cur).goto op (k + 3)).loadFrame c = s.loadFrame c := by
    rw [ho.opened]; cases c <;> rfl
  have e1 := hs'.sendFrame c (hl ▸ he)
  have e : opStep op (k + 3) (.send c) ((s.afterOpening s.cur).goto op (k + 3)) =
      s.afterFrame c op (k + 4) x d fr rx := by
    simp only [opStep, State.micro, e1]
    rw [hl, ho.opened]
    cases c <;> simp [State.goto, State.capture, hr, State.afterFrame]
  refine ⟨b.of_eq e, ?_⟩
  rw [ho.opened] at hs
  exact ⟨rfl, hs.inst, hs.distinct, rfl, by simp [State.afterFrame, hd]⟩

/-- The deassertion of the selected chip that has received the whole frame of `w`, as a step. -/
theorem Steps.deselect {s : State} {op : HostOp} {k : Nat} {x : Inst} {d e : Device} {w : Wire}
    (hp : s.phase = .busy op k) (h : s.Selected s.cur x { e with rxq := encodeFrame w })
    (hk : microAt op k = some .deselect) (hw : w.wellFormed = true)
    (hpr : d.present = true) (hed : e.released = d.released) :
    Steps 1 s { s with
      phase := .busy op (k + 1), insts := s.insts.set s.cur { x with txnOpen := false }, csAsserted := []
      devs := s.devs.set s.cur (d.act w).released, trace := s.trace ++ [.cs s.cur .deasserted] } := by
  refine (Steps.one hp hk (by simp)).of_eq ?_
  have hpe : ({ e with rxq := encodeFrame w } : Device).present = true := by
    have : e.released.present = d.released.present := by rw [hed]
    exact this.trans hpr
  have hc : Device.commit { e with rxq := encodeFrame w } = (d.act w).released := by
    rw [Device.commit_frame hpe hw rfl, e.act_released, ← e.act_released [] w, ← d.act_released [] w]
    exact congrArg (fun x => (Device.act x w).released) hed
  simp only [opStep, State.micro]
  rw [h.endTxn, hc]
  rfl

/-- One whole command transaction with no data phase, opening to deassertion: five steps, after which only PHASE, the frame registers, the captured register, the device, `bus_cfg` and the trace differ. -/
theorem Steps.command {s : State} {op : HostOp} {k : Nat} {c : Cmd} {x : Inst} {d : Device} {w : Wire}
    {rx : List Byte} (hp : s.phase = .busy op k) (ho : s.CanOpen s.cur x d)
    (h0 : microAt op k = some .configure) (h1 : microAt op (k + 1) = some .settle)
    (h2 : microAt op (k + 2) = some .select) (h3 : microAt op (k + 3) = some (.send c))
    (h4 : microAt op (k + 4) = some .deselect)
    (hw : w.wellFormed = true) (he : c.sent (s.loadFrame c) = encodeFrame w)
    (hr : d.select.answers (s.draws + (encodeFrame w).length) (encodeFrame w) = rx) :
    Steps 5 s { ({ s with f := s.loadFrame c }).capture c rx with
      phase := .busy op (k + 5)
      busCfg := .ours
      devs := s.devs.set s.cur (d.act w).released
      draws := s.draws + 2 * (encodeFrame w).length
      trace := s.trace ++ s.openingEvents s.cur ++ [.cs s.cur .asserted,
        .x (some (encodeFrame w)) rx, .cs s.cur .deasserted] } := by
  obtain ⟨hi, hx⟩ := List.getElem?_eq_some_iff.1 ho.inst
  have hset : s.insts.set s.cur { x with txnOpen := false } = s.insts := by
    have : ({ x with txnOpen := false } : Inst) = x := by
      cases x; have := ho.closed; simp_all
    rw [this, ← hx]; exact List.set_getElem_self hi
  obtain ⟨a, hsel⟩ := Steps.frame hp ho h0 h1 h2 h3 he hr
  have hcur : (s.afterFrame c op (k + 4) x d (encodeFrame w) rx).cur = s.cur := by cases c <;> rfl
  have b := Steps.deselect (s := s.afterFrame c op (k + 4) x d (encodeFrame w) rx) (k := k + 4)
    (d := d) (e := d) (by rfl) (by rw [hcur]; simpa [Device.receive, Device.select] using hsel) h4 hw ho.present rfl
  refine (a.trans b).of_eq ?_
  simp only [hcur]
  cases c <;> simp [State.afterFrame, State.capture, hset, ho.free]

/-- One whole `READ` transaction into the host's buffer: six steps. -/
theorem Steps.readIn {s : State} {op : HostOp} {k : Nat} {x : Inst} {d : Device} {n : Nat}
    {fr tx rx0 rx : List Byte} {a : WireAddr} (hp : s.phase = .busy op k) (ho : s.CanOpen s.cur x d)
    (h0 : microAt op k = some .configure) (h1 : microAt op (k + 1) = some .settle)
    (h2 : microAt op (k + 2) = some .select) (h3 : microAt op (k + 3) = some (.send .read))
    (h4 : microAt op (k + 4) = some .dataIn) (h5 : microAt op (k + 5) = some .deselect)
    (hn : s.cnt.toNat = n) (hn1 : 1 ≤ n)
    (hf : (buildFrame Config.opREAD s.addr).bytes = fr) (ha : fr = Config.opREAD :: addrBytes a)
    (hr0 : d.select.answers (s.draws + 4) fr = rx0)
    (ht : freeBytes (s.draws + 8) n = tx)
    (hr : (d.select.receive fr).answers (s.draws + 8 + n + n) tx = rx) :
    Steps 6 s { s with
      f := buildFrame Config.opREAD s.addr, phase := .busy op (k + 6), busCfg := .ours
      devs := s.devs.set s.cur d.released, ram := memWrite s.ram s.ptr rx
      draws := s.draws + 8 + 3 * n
      trace := s.trace ++ s.openingEvents s.cur ++ [.cs s.cur .asserted, .x (some fr) rx0,
        .x none rx, .cs s.cur .deasserted] } := by
  obtain ⟨hi, hx⟩ := List.getElem?_eq_some_iff.1 ho.inst
  have hset : s.insts.set s.cur { x with txnOpen := false } = s.insts := by
    have : ({ x with txnOpen := false } : Inst) = x := by
      cases x; have := ho.closed; simp_all
    rw [this, ← hx]; exact List.set_getElem_self hi
  have hl : fr.length = 4 := by rw [ha]; rfl
  have htl : tx.length = n := by rw [← ht]; simp
  obtain ⟨p, hsel⟩ := Steps.frame (rx := rx0) hp ho h0 h1 h2 h3 hf (by rw [hl]; exact hr0)
  generalize hs1 : s.afterFrame .read op (k + 4) x d fr rx0 = s1 at p hsel
  have q := Steps.one (s := s1) (k := k + 4) (by rw [← hs1]; rfl) h4 (by simp)
  have e := hsel.receiveData (n := n) (tx := tx) (rx := rx) (by rw [← hs1]; exact hn)
    (by rw [← hs1]; simp only [State.afterFrame, hl]; exact ht)
    (by rw [← hs1]; simp only [State.afterFrame, hl]; exact hr)
  have e' : opStep op (k + 4) .dataIn s1 = { s1 with
      draws := s1.draws + 3 * n, devs := s1.devs.set s.cur ((d.select.receive fr).receive tx)
      ram := memWrite s1.ram s1.ptr rx, trace := s1.trace ++ [.x none rx]
      phase := .busy op (k + 5) } := by
    simp only [opStep, State.micro, e]; rfl
  have hd1 : s.cur < s1.devs.length := (List.getElem?_eq_some_iff.1 hsel.device).1
  have r := Steps.deselect (s := opStep op (k + 4) .dataIn s1) (k := k + 5) (d := d) (e := d)
    (x := { x with txnOpen := true }) (w := .read a tx)
    (by rw [e']) (by
      have hc : (opStep op (k + 4) .dataIn s1).cur = s.cur := by rw [e', ← hs1]; rfl
      rw [hc, e']
      refine ⟨hsel.alone, hsel.inst, hsel.distinct, hsel.bus, ?_⟩
      simp [hd1, Device.receive, Device.select, encodeFrame, ha])
    h5 (by simp [Wire.wellFormed, dataFits, htl, hn1]) ho.present rfl
  refine ((p.trans q).trans r).of_eq ?_
  rw [e', ← hs1]
  simp [State.afterFrame, State.capture, State.loadFrame, hset, ho.free, hl, Device.act]

/-- One whole `PP` transaction from the host's buffer: six steps. -/
theorem Steps.programOut {s : State} {op : HostOp} {k : Nat} {x : Inst} {d : Device} {n : Nat}
    {fr tx rx0 rx : List Byte} {a : WireAddr} (hp : s.phase = .busy op k) (ho : s.CanOpen s.cur x d)
    (h0 : microAt op k = some .configure) (h1 : microAt op (k + 1) = some .settle)
    (h2 : microAt op (k + 2) = some .select) (h3 : microAt op (k + 3) = some (.send .pp))
    (h4 : microAt op (k + 4) = some .dataOut) (h5 : microAt op (k + 5) = some .deselect)
    (hn : s.cnt.toNat = n) (hn1 : 1 ≤ n)
    (hf : (buildFrame Config.opPP s.addr).bytes = fr) (ha : fr = Config.opPP :: addrBytes a)
    (hr0 : d.select.answers (s.draws + 4) fr = rx0)
    (ht : memRead s.ram s.ptr n = tx)
    (hr : (d.select.receive fr).answers (s.draws + 8 + n) tx = rx) :
    Steps 6 s { s with
      f := buildFrame Config.opPP s.addr, phase := .busy op (k + 6), busCfg := .ours
      devs := s.devs.set s.cur (d.act (.pp a tx)).released
      draws := s.draws + 8 + 2 * n
      trace := s.trace ++ s.openingEvents s.cur ++ [.cs s.cur .asserted, .x (some fr) rx0,
        .x (some tx) rx, .cs s.cur .deasserted] } := by
  obtain ⟨hi, hx⟩ := List.getElem?_eq_some_iff.1 ho.inst
  have hset : s.insts.set s.cur { x with txnOpen := false } = s.insts := by
    have : ({ x with txnOpen := false } : Inst) = x := by
      cases x; have := ho.closed; simp_all
    rw [this, ← hx]; exact List.set_getElem_self hi
  have hl : fr.length = 4 := by rw [ha]; rfl
  have htl : tx.length = n := by rw [← ht]; simp [memRead_length]
  obtain ⟨p, hsel⟩ := Steps.frame (rx := rx0) hp ho h0 h1 h2 h3 hf (by rw [hl]; exact hr0)
  generalize hs1 : s.afterFrame .pp op (k + 4) x d fr rx0 = s1 at p hsel
  have q := Steps.one (s := s1) (k := k + 4) (by rw [← hs1]; rfl) h4 (by simp)
  have e := hsel.sendData (tx := tx) (by rw [← hs1]; simp only [State.afterFrame, State.capture, hn, ht])
  have hdr : s1.draws = s.draws + 8 := by rw [← hs1]; simp [State.afterFrame, hl]
  rw [htl, hdr, hr] at e
  have e' : opStep op (k + 4) .dataOut s1 = { s1 with
      draws := s.draws + 8 + 2 * n, devs := s1.devs.set s.cur ((d.select.receive fr).receive tx)
      trace := s1.trace ++ [.x (some tx) rx], phase := .busy op (k + 5) } := by
    simp only [opStep, State.micro, e]; rfl
  have hd1 : s.cur < s1.devs.length := (List.getElem?_eq_some_iff.1 hsel.device).1
  have r := Steps.deselect (s := opStep op (k + 4) .dataOut s1) (k := k + 5) (d := d) (e := d)
    (x := { x with txnOpen := true }) (w := .pp a tx)
    (by rw [e']) (by
      have hc : (opStep op (k + 4) .dataOut s1).cur = s.cur := by rw [e', ← hs1]; rfl
      rw [hc, e']
      refine ⟨hsel.alone, hsel.inst, hsel.distinct, hsel.bus, ?_⟩
      simp [hd1, Device.receive, Device.select, encodeFrame, ha])
    h5 (by simp [Wire.wellFormed, dataFits, htl, hn1]) ho.present rfl
  refine ((p.trans q).trans r).of_eq ?_
  rw [e', ← hs1]
  simp [State.afterFrame, State.capture, State.loadFrame, hset, ho.free]

/-! ## Requests -/

/-- A host instruction is the request it stands for, issued. -/
theorem exec_issue {i : Instr} {r : Request} (h : hostRequest i = some r) (s : State) :
    exec i s = s.issue r := by
  cases i <;> simp [hostRequest] at h <;> subst h <;> rfl

theorem State.wholeTurn.burst {s : State} (h : s.wholeTurn) : s.burst = Config.maxSteps := by
  unfold State.burst
  split
  · next n r e => exact absurd e (h n r)
  · rfl

theorem State.wholeTurn.popRun {s : State} (h : s.wholeTurn) : s.popRun = s := by
  unfold State.popRun
  split
  · next n r e => exact absurd e (h n r)
  · rfl

/-- An accepted request runs a whole stretch from the first step of its operation. -/
theorem exec_accepted {i : Instr} {r : Request} {s : State} (h : hostRequest i = some r)
    (hh : s.handler = none) (hp : s.phase = .idle) (hr : s.refusalOf r = none) (hw : s.wholeTurn) :
    exec i s = .next (runOp Config.maxSteps (s.accept r)) := by
  have ha : (s.accept r).wholeTurn := by simpa [State.wholeTurn] using hw
  have h1 : State.proceed (s.accept r) = runOp Config.maxSteps (s.accept r) := by
    unfold State.proceed
    rw [ha.burst, ha.popRun, State.accept_handler, hh]
  rw [exec_issue h]
  simp only [State.issue, hh, hp, hr, h1]
  simp

/-- The conditions of the statements about one operation are those of its transactions. -/
theorem State.Ready.canOpen {i : Nat} {d : Device} {s t : State} (h : s.Ready i d)
    (hc : t.csAsserted = s.csAsserted) (hi : t.insts = s.insts)
    (hb : t.busCfg = s.busCfg ∨ t.busCfg = .ours) {e : Device} (hd : t.devs[i]? = some e)
    (hp : e.present = true) : t.CanOpen i (s.inst i) e := by
  have hx : s.insts[i]? = some (s.inst i) := by
    simp [State.inst, List.getElem?_eq_getElem h.exists_]
  refine ⟨hc.trans h.chipSelects, hi ▸ hx, h.closed, hi ▸ h.csDistinct, ?_, hd, hp⟩
  rcases h.bus with h | h
  · exact .inl h
  · rcases hb with hb | hb
    · exact .inr (hb.trans h)
    · exact .inr hb

/-! ## The completion handler -/

/-- The handler's four steps, run through (R177, R232). -/
theorem runHandler_all {s : State} {n : Nat} (h : s.handler = some .c1) (hn : 4 ≤ n) :
    runHandler n s = s.stepC1.stepC2.stepC3.stepC4 := by
  obtain ⟨m, rfl⟩ := Nat.exists_eq_add_of_le hn
  rw [Nat.add_comm]
  simp only [runHandler, h, State.handlerStep, State.stepC1_handler, State.stepC2_handler,
    State.stepC3_handler]
  cases m with
  | zero => rfl
  | succ m => simp [runHandler]

/-! ## Raw transactions -/

/-- A raw transaction on a free bus with the chip that is there: the device acts on the frame and lets go of it, and one event records it (R191). -/
theorem State.wireTransaction_next {i : Nat} {w : Wire} {d : Device} {s : State}
    (hc : s.csAsserted = []) (hd : s.devs[i]? = some d) (hp : d.present = true)
    (hw : w.wellFormed = true) :
    s.wireTransaction i (encodeFrame w) = .next { s with
      devs := s.devs.set i (d.act w).released, draws := s.draws + (encodeFrame w).length
      trace := s.trace ++ [.wire i (encodeFrame w) (d.select.answers s.draws (encodeFrame w))] } := by
  have e : d.afterTransaction (encodeFrame w) = (d.act w).released := by
    unfold Device.afterTransaction
    rw [Device.commit_frame (d := d.select.receive (encodeFrame w)) hp hw (by simp)]
    exact d.act_released _ w
  simp [State.wireTransaction, hd, hc, State.emit, State.modDev, modify_of_getElem? hd, e,
    Device.inTransaction]

/-- Bytes that are no command change nothing in the device but the bytes it holds (U19, N16; log 19). -/
theorem Device.afterTransaction_unknown {d : Device} {mosi : List Byte} {e : DecodeError}
    (h : decodeFrame mosi = .error e) : d.afterTransaction mosi = d.released := by
  simp [Device.afterTransaction, Device.commit, Device.select, Device.receive, h, Device.released]

end Sys2Proof.Machine
end

