-- ==== Sys2Proof/Laws/Step.lean ====
section
/-! SUPPORT. The induction over everything a step can do, packaged once: a property that every atomic piece keeps is kept by every step. -/

namespace Sys2Proof.Machine

/-- What a property must be kept by to be kept by every step: one field for each atomic piece a step is made of. -/
structure State.Kept (P : State → Prop) : Prop where
  /-- the inputs are the model's own (log 12) -/
  inputs : ∀ s l, P s → P { s with inputs := l }
  /-- a move of another agent (R20) -/
  env : ∀ s e, P s → P (s.envMove e)
  /-- one atomic step of the sequencer in caller context -/
  op : ∀ s op k m, P s → s.handler = none → s.phase = .busy op k → microAt op k = some m →
    P (opStep op k m s)
  /-- one atomic step of the completion handler (R177) -/
  handler : ∀ s h, P s → s.handler = some h → P (s.handlerStep h)
  /-- the completion is taken (R231) -/
  take : ∀ s, P s → s.completionEnabled = true → P s.takeCompletion
  /-- a request is accepted (R222) -/
  accept : ∀ s r, P s → s.handler = none → s.phase = .idle → s.refusalOf r = none → P (s.accept r)
  /-- a raw transaction (log 17) -/
  wire : ∀ s i mosi t, P s → s.wireTransaction i mosi = .next t → P t
  /-- a host write to its buffers (R53) -/
  ram : ∀ s p bytes, P s → P { s with ram := memWrite s.ram p bytes }
  /-- a reset of the sequencer (R250) -/
  reset : ∀ s, P s → P s.resetNow

/-- A sleep is the poll step of a busy status. -/
theorem opStep_poll {op : HostOp} {k : Nat} {s : State} (h : wip s.st = true) :
    opStep op k .poll s = s.sleep op k := by simp [opStep, h]

theorem State.opStep_handler (op : HostOp) (k : Nat) (m : Micro) (s : State) :
    (opStep op k m s).handler = s.handler := by
  cases m with
  | poll => simp only [opStep]; split <;> simp
  | chunk e => simp only [opStep]; split <;> simp
  | configure => simp only [opStep, State.micro]; split <;> simp
  | settle => simp only [opStep, State.micro]; split <;> simp
  | configureOnce => simp only [opStep, State.micro]; split <;> simp
  | send c => cases c <;> simp [opStep, State.micro]
  | _ => simp [opStep, State.micro]

namespace State.Kept

variable {P : State → Prop}

theorem runOp (K : Kept P) : ∀ n s, P s → s.handler = none → P (runOp n s) := by
  intro n
  induction n with
  | zero => intro s h _; exact h
  | succ n ih =>
    intro s h hh
    unfold Machine.runOp
    split
    · exact h
    · next op k hp =>
      split
      · exact h
      · next m hm =>
        split
        · next hw =>
          have h1 := K.op s op k m h hh hp hm
          rw [hw.1, opStep_poll hw.2] at h1
          split
          · exact ih _ (K.env _ _ (K.inputs _ _ h1))
              (by rw [State.envMove_handler]; exact hh)
          · exact h1
        · exact ih _ (K.op s op k m h hh hp hm) (by rw [State.opStep_handler]; exact hh)

theorem runHandler (K : Kept P) : ∀ n s, P s → P (runHandler n s) := by
  intro n
  induction n with
  | zero => intro s h; exact h
  | succ n ih =>
    intro s h
    unfold Machine.runHandler
    split
    · exact h
    · next c hc => exact ih _ (K.handler s c h hc)

theorem popRun (K : Kept P) (s : State) (h : P s) : P s.popRun := by
  unfold State.popRun
  split
  · exact K.inputs _ _ h
  · exact h

theorem proceed (K : Kept P) (s : State) (h : P s) : P s.proceed := by
  unfold State.proceed
  have hp := K.popRun s h
  have hh : s.popRun.handler = s.handler := by unfold State.popRun; split <;> rfl
  split
  · exact K.runHandler _ _ hp
  · next hn => exact K.runOp _ _ hp (hh.trans hn)

theorem issue (K : Kept P) (s t : State) (r : Request) (h : P s) (e : s.issue r = .next t) : P t := by
  unfold State.issue at e
  split at e
  · cases e
  · next hh =>
    have hh : s.handler = none := Decidable.not_not.mp hh
    split at e
    · cases e; exact K.inputs _ _ h
    · next hp =>
      have hp : s.phase = .idle := Decidable.not_not.mp hp
      split at e
      · cases e
      · next hr => cases e; exact K.proceed _ (K.accept s r h hh hp hr)

theorem completion (K : Kept P) (s t : State) (h : P s) (e : execCompletion s = .next t) : P t := by
  unfold execCompletion at e
  split at e
  · next hc => cases e; exact K.proceed _ (K.take s h hc)
  · cases e

theorem exec (K : Kept P) (i : Instr) (s t : State) (h : P s) (e : exec i s = .next t) : P t := by
  cases i with
  | completion => exact K.completion s t h e
  | jedecid i a b c => exact K.wire s i _ t h e
  | rdsr i a => exact K.wire s i _ t h e
  | wrsr i a => exact K.wire s i _ t h e
  | wren i => exact K.wire s i _ t h e
  | read i a b => exact K.wire s i _ t h e
  | pp i a b => exact K.wire s i _ t h e
  | se i a => exact K.wire s i _ t h e
  | be i a => exact K.wire s i _ t h e
  | ce i => exact K.wire s i _ t h e
  | _ => exact K.issue s t _ h e

theorem arrive (K : Kept P) (p : Packet) (s t : State) (h : P s) (e : s.arrive p = .next t) : P t := by
  unfold State.arrive at e
  split at e
  · exact K.exec _ s t h e
  · cases p with
    | request bytes => cases e
    | wire i mosi => exact K.wire s i mosi t h e
    | completion => cases e

/-- A property that every atomic piece keeps is kept by every step. -/
theorem step (K : Kept P) (s t : State) (h : P s) (e : step s = .next t) : P t := by
  unfold Machine.step at e
  split at e
  · cases e; exact K.proceed s h
  · cases e; exact K.proceed s h
  · cases e; exact K.env _ _ (K.inputs _ _ h)
  · cases e; exact K.reset _ (K.inputs _ _ h)
  · next p rest _ =>
    split at e
    · cases e; exact K.proceed s h
    · exact K.arrive p _ t (K.inputs s rest h) e
  · next p n rest _ =>
    split at e
    · cases e; exact K.proceed s h
    · unfold State.hostRead at e
      split at e
      · cases e
      · cases e; exact K.inputs s rest h
  · next p bytes rest _ =>
    split at e
    · cases e; exact K.proceed s h
    · unfold State.hostWrite at e
      split at e
      · cases e
      · cases e; exact K.ram { s with inputs := rest } p bytes (K.inputs s rest h)

end State.Kept

/-! ## Runs -/

/-- The first step of a run. -/
theorem run_succ {s t : State} (h : step s = .next t) (n : Nat) :
    Host.Core.run core (n + 1) s = Host.Core.run core n t := by
  simp [Host.Core.run, core, h]

/-- A run that is refused at once goes nowhere. -/
theorem run_refused {s : State} {r : Refusal} (h : step s = .refused r) (n : Nat) :
    Host.Core.run core (n + 1) s = .refused r := by
  simp [Host.Core.run, core, h]

/-- A state that a step leaves as it is ends a run. -/
theorem run_stutter {s : State} (h : step s = .next s) (n : Nat) :
    Host.Core.run core n s = .next s := by
  induction n with
  | zero => rfl
  | succ n ih => rw [run_succ h, ih]

namespace State

variable {P : State → Prop} {s t : State}

theorem eventually_now (h : P s) : s.eventually P := ⟨0, s, rfl, h⟩

theorem eventually_step (e : Machine.step s = .next t) (h : t.eventually P) : s.eventually P := by
  obtain ⟨n, u, hu, hp⟩ := h
  exact ⟨n + 1, u, (run_succ e n).trans hu, hp⟩

theorem always_step (h : P s) (e : Machine.step s = .next t) (ht : t.always P) : s.always P := by
  intro n u hu
  cases n with
  | zero => cases hu; exact h
  | succ n => exact ht n u ((run_succ e n).symm.trans hu)

theorem always_stutter (h : P s) (e : Machine.step s = .next s) : s.always P := by
  intro n u hu
  rw [run_stutter e] at hu
  cases hu
  exact h

/-- With nothing further to happen, only what holds already happens eventually. -/
theorem eventually_stutter (h : s.eventually P) (e : Machine.step s = .next s) : P s := by
  obtain ⟨n, t, ht, hp⟩ := h
  rw [run_stutter e] at ht
  cases ht
  exact hp

/-- A run that is refused at once has only its first state. -/
theorem eventually_refused {r : Refusal} (h : s.eventually P) (e : Machine.step s = .refused r) : P s := by
  obtain ⟨n, t, ht, hp⟩ := h
  cases n with
  | zero => cases ht; exact hp
  | succ n => rw [run_refused e] at ht; cases ht

end State
end Sys2Proof.Machine
end

