-- ==== Sys2Proof/Tests/Slice0.lean ====
section
/-! SUPPORT. Tests: words written out from the spec's encodings, ill-formed terms that the checks refuse, small steps of every instruction with results taken from spec/95_test_vectors.md, and for every statement with hypotheses a state and operands that meet them. -/

namespace Sys2Proof.Tests

open Machine

/-! ## Small states -/

def ok : Host.Outcome State Fault Refusal → Option State
  | .next s => some s
  | .fault _ => none
  | .refused _ => none

def refusal : Host.Outcome State Fault Refusal → Option Refusal
  | .next _ => none
  | .fault _ => none
  | .refused r => some r

/-- Instance 0 on a dedicated bus, `begin` done, with one chip (the convention of 95_test_vectors.md). -/
def demo (d : Device) (l : List Input) : State :=
  { State.reset with
      busCfg := .ours, insts := [{ Inst.fresh 0 0 false with begun := true }], devs := [d], inputs := l }

/-- The reference part with a given status register. -/
def withSr (sr : Byte) : Device := { Device.reference with sr := sr }

/-- A chip with a protection scheme, which may refuse any write or erase (log 43). -/
def guarded : Device := { Device.reference with protection := some 1 }

/-- A busy chip: WIP and WEL set, a page program under way. -/
def busyDev : Device := { Device.reference with sr := 3, job := some (.prog [(0x1000, 0x11)]) }

/-- Two instances on a shared bus that another master has left in its own configuration. -/
def sharedDemo (l : List Input) : State :=
  { State.reset with
      busCfg := .foreign
      insts := [{ Inst.fresh 0 0 true with begun := true }, { Inst.fresh 0 1 true with begun := true }]
      devs := [Device.reference, Device.reference], inputs := l }

/-- After `pageReadAsync 0, 0x000100, 0x200, 4, 7, 9` has returned (V6). -/
def pendingDemo (done : Bool) (h : Option HandlerStep) (l : List Input) : State :=
  { demo { Device.reference with rxq := [0x03, 0x00, 0x01, 0x00] } l with
      insts := [{ Inst.fresh 0 0 false with begun := true, txnOpen := true }]
      csAsserted := [0], handler := h
      slot := { tag := .pending, owner := some 0, cb := some 7, ctx := 9 }
      eng := some { tx := none, rxp := some 0x200, n := 4, performed := done } }

/-- The host memory `wb` of program P2: `10 11 ... 23` at 0x100. -/
def wb : Memory := (List.range 20).map fun k => (0x100 + k, BitVec.ofNat 8 (0x10 + k))

def rets (es : List Event) : List (HostOp × RetVal) :=
  es.filterMap fun e => match e with | .ret op v => some (op, v) | _ => none

def sleeps (es : List Event) : Nat :=
  (es.filter fun e => match e with | .sms _ => true | _ => false).length

/-- The command a frame decodes to, and the reason when it decodes to none. -/
def frame (bs : List Byte) : Option Wire :=
  match decodeFrame bs with
  | .ok w => some w
  | .error _ => none

def frameError (bs : List Byte) : Option DecodeError :=
  match decodeFrame bs with
  | .ok _ => none
  | .error e => some e

/-- The same of a request. -/
def request (bs : List Byte) : Option Instr :=
  match decode (.request bs) with
  | .ok i => some i
  | .error _ => none

def requestError (bs : List Byte) : Option DecodeError :=
  match decode (.request bs) with
  | .ok _ => none
  | .error e => some e

/-! ## WellFormed refuses ill-formed terms, and takes data phases of any length (R201, R203) -/

theorem test_wf_index_256 : (Instr.begin 256).wellFormed = false := by decide
theorem test_wf_index_255 : (Instr.begin 255).wellFormed = true := by decide
theorem test_wf_index_every_host_op :
    [Instr.readStatus 256, .isWriteInProgress 256, .waitForWriteComplete 256, .writeStatus 256 0,
      .writeEnable 256, .jedecIdRead 256, .isValidChip 256, .pageReadSync 256 0 0 1,
      .pageReadAsync 256 0 0 1 none 0, .pageWriteSync 256 0 0 1, .pageWriteAsync 256 0 0 1 none 0,
      .rangeRead 256 0 0 1, .rangeWrite 256 0 0 1, .sectorErase 256 0, .blockErase 256 0,
      .chipErase 256].all (fun i => !i.wellFormed) = true := by decide
theorem test_wf_read_no_data : (Instr.read 0 0 []).wellFormed = false := by decide
theorem test_wf_read_257 : (Instr.read 0 0 (List.replicate 257 0)).wellFormed = true := by
  show dataFits (List.replicate 257 0) = true
  unfold dataFits; rw [List.length_replicate]; rfl
theorem test_wf_pp_no_data : (Instr.pp 0 0 []).wellFormed = false := by decide
theorem test_wf_pp_257 : (Instr.pp 0 0 (List.replicate 257 0)).wellFormed = true := by
  show dataFits (List.replicate 257 0) = true
  unfold dataFits; rw [List.length_replicate]; rfl


/-! ## Decoding: words from R81, R82, R90 -/

theorem test_decode_read :
    frame [0x03, 0x00, 0x10, 0xFA, 0x00, 0x00] = some (.read 0x0010FA [0, 0]) := by decide
theorem test_decode_pp :
    frame [0x02, 0x12, 0x34, 0x56, 0x11, 0x22] = some (.pp 0x123456 [0x11, 0x22]) := by decide
theorem test_decode_se : frame [0xD7, 0x00, 0x10, 0x00] = some (.se 0x001000) := by decide
theorem test_decode_be : frame [0xD8, 0x02, 0x00, 0x00] = some (.be 0x020000) := by decide
theorem test_decode_ce : frame [0xC7] = some .ce := by decide
theorem test_decode_wren : frame [0x06] = some .wren := by decide
theorem test_decode_rdsr : frame [0x05, 0x00] = some (.rdsr 0x00) := by decide
theorem test_decode_wrsr : frame [0x01, 0x80] = some (.wrsr 0x80) := by decide
theorem test_decode_jedecid : frame [0x9F, 0, 0, 0] = some (.jedecid 0 0 0) := by decide
theorem test_decode_reserved_opcode : frameError [0x20, 0, 0, 0] = some (.unknownOpcode 0x20) := by decide
theorem test_decode_short_se : frameError [0xD7, 0, 0] = some (.badFrameLength 0xD7) := by decide
theorem test_decode_read_no_data : frameError [0x03, 0, 0, 0] = some (.badFrameLength 0x03) := by decide
/-- A `READ` frame longer than the sequencer ever sends is still a `READ` (R201). -/
theorem test_decode_read_257 :
    frame (0x03 :: 0 :: 0 :: 0 :: List.replicate 257 0) = some (.read 0 (List.replicate 257 0)) := by
  have h : dataFits (List.replicate 257 0) = true := by
    unfold dataFits; rw [List.length_replicate]; rfl
  unfold frame decodeFrame
  simp only [Config.opJEDECID, Config.opRDSR, Config.opWRSR, Config.opWREN, Config.opREAD]
  rw [if_neg (by decide), if_neg (by decide), if_neg (by decide), if_neg (by decide), if_pos trivial]
  simp only [decodeData, h]
  rfl
theorem test_decode_empty : frameError [] = some .emptyFrame := by decide

/-- One request word with each field distinct: code, instance, addr, len, p, status, callback, context. -/
theorem test_decode_request :
    request [0x09, 3, 0xFA, 0x10, 0x00, 0x01, 0x04, 0, 0, 0, 0x00, 0x02, 0, 0, 0x80,
      1, 0x07, 0, 0, 0, 0x09, 0, 0, 0] = some (.pageReadAsync 3 0x010010FA 0x200 4 (some 7) 9) := by
  decide
theorem test_decode_request_write_status :
    request [0x04, 1, 0, 0, 0, 0, 0, 0, 0, 0, 0, 0, 0, 0, 0x80, 0, 0, 0, 0, 0, 0, 0, 0, 0] =
      some (.writeStatus 1 0x80) := by decide
theorem test_decode_code_17 :
    requestError (0x11 :: List.replicate 23 0) = some (.unknownOp 0x11) := by decide
theorem test_decode_code_31 :
    requestError (0x1F :: List.replicate 23 0) = some (.unknownOp 0x1F) := by decide
theorem test_decode_bits_above_code :
    requestError (0x20 :: List.replicate 23 0) = some .malformedRequest := by decide
/-- `readStatus` ignores the callback field, whatever its mark (R90). -/
theorem test_decode_unused_fields :
    request [0x01, 2, 9, 9, 9, 9, 9, 9, 9, 9, 9, 9, 9, 9, 9, 2, 9, 9, 9, 9, 9, 9, 9, 9] =
      some (.readStatus 2) := by decide
theorem test_decode_short_request : requestError [0x00] = some .malformedRequest := by decide

theorem test_table_host_codes :
    (List.range 17).map (decodeTableWord 8) =
      [some (.begin 0), some (.readStatus 0), some (.isWriteInProgress 0),
        some (.waitForWriteComplete 0), some (.writeStatus 0 0), some (.writeEnable 0),
        some (.jedecIdRead 0), some (.isValidChip 0), some (.pageReadSync 0 0 0 0),
        some (.pageReadAsync 0 0 0 0 none 0), some (.pageWriteSync 0 0 0 0),
        some (.pageWriteAsync 0 0 0 0 none 0), some (.rangeRead 0 0 0 0), some (.rangeWrite 0 0 0 0),
        some (.sectorErase 0 0), some (.blockErase 0 0), some (.chipErase 0)] := by decide
theorem test_table_wire :
    [decodeTableWord 32 0x9F000000, decodeTableWord 16 0x0500, decodeTableWord 16 0x0100,
      decodeTableWord 32 0x03000000, decodeTableWord 32 0x02000000, decodeTableWord 32 0xD7000000,
      decodeTableWord 32 0xD8000000, decodeTableWord 8 0xC7] =
      [some (.jedecid 0 0 0 0), some (.rdsr 0 0), some (.wrsr 0 0), some (.read 0 0 [0]),
        some (.pp 0 0 [0]), some (.se 0 0), some (.be 0 0), some (.ce 0)] := by decide

/-- The next step after reset with a table word placed runs it: `begin` completes, a wire command reaches the chip. -/
theorem test_fetch_begin :
    (ok (step (State.reset.withFetchWord 8 0x00))).map (fun s => (s.insts.map (·.begun), s.busCfg)) =
      some ([true], .ours) := by decide
theorem test_fetch_ce_ignored_without_wel :
    (ok (step (State.reset.withFetchWord 8 0xC7))).map (fun s => s.devs) =
      some [Device.reference] := by decide

/-! ## Frame builder and geometry (V1, V2, V3) -/

theorem test_build_frame :
    (buildFrame 0x02 0x00123456).bytes = [0x02, 0x12, 0x34, 0x56] ∧
      (buildFrame 0x03 0x000010FA).bytes = [0x03, 0x00, 0x10, 0xFA] := by decide
theorem test_build_frame_wraps :
    (buildFrame 0x02 0x01ABCDEF).bytes = [0x02, 0xAB, 0xCD, 0xEF] ∧
      (buildFrame 0x03 0x01000000).bytes = [0x03, 0, 0, 0] := by decide
theorem test_geometry :
    (pageOffset 0x012345, pageStart 0x012345, sectorOf 0x012345, blockOf 0x012345) =
      (0x45, 0x012300, 0x12, 1) := by decide
theorem test_wip_only_bit_0 : (wip 0xFE, wip 0x01, wip 0x7C, wip 0xFF) = (false, true, false, true) := by decide
theorem test_wel : (wel 0x02, wel 0xFD) = (true, false) := by decide
theorem test_srwd : (srwd 0x80, srwd 0x7F) = (true, false) := by decide

/-- The exits of the two chunk loops and the ends of every step list are `Return` (R156, R157). -/
theorem test_chunk_exits : microAt .rangeRead 8 = some .ret ∧ microAt .rangeWrite 26 = some .ret := by decide

/-! ## One step of each instruction -/

theorem test_begin_dedicated :
    (ok (exec (.begin 0) State.reset)).map (fun s => (s.trace, s.busCfg, s.insts.map (·.begun))) =
      some ([.cs 0 .deasserted, .cfg 0, .ret .begin .nothing], .ours, [true]) := by decide
theorem test_begin_shared :
    (ok (exec (.begin 1) (sharedDemo []))).map (fun s => (s.trace, s.busCfg)) =
      some ([.cs 1 .deasserted, .ret .begin .nothing], .foreign) := by decide

/-- The bus holds this design's settings once `begin` has configured it, and nothing is known of it before (R9, R27). -/
theorem test_begin_settings :
    State.reset.busSettings = none ∧
      (ok (exec (.begin 0) State.reset)).map State.busSettings = some (some Config.spiSettings) := ⟨rfl, rfl⟩

theorem test_readStatus :
    (ok (exec (.readStatus 0) (demo (withSr 0x02) []))).map (fun s => (rets s.trace, s.st, s.devs)) =
      some ([(.readStatus, .byte 0x02)], 0x02, [withSr 0x02]) := by decide
/-- V4: on a shared bus every transaction configures and settles first. -/
theorem test_readStatus_shared :
    (ok (exec (.readStatus 0) (sharedDemo []))).map (fun s => (s.trace.take 3, s.busCfg)) =
      some ([.cfg 0, .settle Config.tSettle, .cs 0 .asserted], .ours) := rfl

theorem test_isWriteInProgress_set :
    (ok (exec (.isWriteInProgress 0) (demo busyDev []))).map (fun s => rets s.trace) =
      some [(.isWriteInProgress, .bit true)] := by decide
theorem test_isWriteInProgress_clear :
    (ok (exec (.isWriteInProgress 0) (demo (withSr 0x02) []))).map (fun s => rets s.trace) =
      some [(.isWriteInProgress, .bit false)] := by decide

theorem test_wait_idle :
    (ok (exec (.waitForWriteComplete 0) (demo (withSr 0) []))).map
      (fun s => (wireCmds 0 s.trace, sleeps s.trace, rets s.trace)) =
      some ([0x05], 0, [(.waitForWriteComplete, .nothing)]) := by decide
/-- V5: two busy polls and two sleeps, the device finishing during the second. -/
theorem test_wait_two_sleeps :
    (ok (exec (.waitForWriteComplete 0) (demo busyDev [.env .foreign, .env (.finish 0)]))).map
      (fun s => (wireCmds 0 s.trace, sleeps s.trace, rets s.trace, s.st)) =
      some ([0x05, 0x05, 0x05], 2, [(.waitForWriteComplete, .nothing)], 0) := by decide

theorem test_writeStatus_ignored_without_wel :
    (ok (exec (.writeStatus 0 0x80) (demo (withSr 0) []))).map (fun s => (wireCmds 0 s.trace, s.devs)) =
      some ([0x05, 0x01], [withSr 0]) := by decide
theorem test_writeStatus_accepted_with_wel :
    (ok (exec (.writeStatus 0 0x80) (demo (withSr 2) []))).map (fun s => (s.f.b1, s.devs.map (·.job), s.devs.map (·.sr))) =
      some (0x80, [some (.writeSR 0x80)], [3]) := by decide

theorem test_writeEnable :
    (ok (exec (.writeEnable 0) (demo (withSr 0x80) []))).map (fun s => (wireCmds 0 s.trace, s.devs)) =
      some ([0x06], [withSr 0x82]) := by decide
theorem test_writeEnable_delay_after_deselect :
    (ok (exec (.writeEnable 0) (demo (withSr 0) []))).map (fun s => (s.trace.drop 2).map
      fun e => match e with | .cs _ .deasserted => 1 | .dus _ => 2 | .ret _ _ => 3 | _ => 0) =
      some [1, 2, 3] := by decide

theorem test_jedecIdRead :
    (ok (exec (.jedecIdRead 0) (demo (withSr 0) []))).map (fun s => rets s.trace) =
      some [(.jedecIdRead, .bytes3 ⟨0x9D, 0x13, 0x44⟩)] := by decide
theorem test_isValidChip :
    (ok (exec (.isValidChip 0) (demo (withSr 0) []))).map (fun s => rets s.trace) =
      some [(.isValidChip, .bit true)] := by decide
theorem test_isValidChip_last_byte :
    (ok (exec (.isValidChip 0) (demo { withSr 0 with ident := ⟨0x9D, 0x13, 0x43⟩ } []))).map
      (fun s => rets s.trace) = some [(.isValidChip, .bit false)] := by decide

/-- V6: the linear content across a page boundary. -/
theorem test_pageReadSync_crosses :
    (ok (exec (.pageReadSync 0 0xFE 0x200 3)
        (demo { withSr 0 with mem := [(0xFE, 0xA4), (0xFF, 0xA5), (0x100, 0xA6)] } []))).map
      (fun s => (s.ram, rets s.trace)) =
      some ([(0x200, 0xA4), (0x201, 0xA5), (0x202, 0xA6)], [(.pageReadSync, .nothing)]) := by decide
theorem test_pageReadSync_length_257 :
    refusal (exec (.pageReadSync 0 0 0 257) (demo (withSr 0) [])) = some .badLength := by decide

theorem test_pageReadAsync :
    (ok (exec (.pageReadAsync 0 0x100 0x200 4 (some 7) 9) (demo (withSr 0) []))).map
      (fun s => (s.slot, s.eng, s.insts, s.devs)) =
      some ((pendingDemo false none []).slot, (pendingDemo false none []).eng,
        (pendingDemo false none []).insts, (pendingDemo false none []).devs) := by decide
theorem test_pageReadAsync_no_callback :
    refusal (exec (.pageReadAsync 0 0x100 0x200 4 none 9) (demo (withSr 0) [])) = some .nullCallback := by
  decide

/-- V6: `pageWriteSync 0, 0x001000, buf, 2` with `buf = 11 22`, one busy poll. -/
theorem test_pageWriteSync :
    (ok (exec (.pageWriteSync 0 0x1000 0x100 2)
        { demo (withSr 0) [.env (.finish 0)] with ram := [(0x100, 0x11), (0x101, 0x22)] })).map
      (fun s => (wireCmds 0 s.trace, s.devs, sleeps s.trace, s.inputs)) =
      some ([0x05, 0x06, 0x02, 0x05, 0x05],
        [{ withSr 0 with mem := [(0x1000, 0x11), (0x1001, 0x22)] }], 1, []) := by decide
/-- The page wrap (V10, P4): two bytes at 0x1FF land at 0x1FF and 0x100. -/
theorem test_pageWriteSync_wraps :
    (ok (exec (.pageWriteSync 0 0x1FF 0x100 2)
        { demo (withSr 0) [.env (.finish 0)] with ram := [(0x100, 0x11), (0x101, 0x22)] })).map
      (fun s => s.devs.map (·.mem)) = some [[(0x100, 0x22), (0x1FF, 0x11)]] := by decide

theorem test_pageWriteAsync :
    (ok (exec (.pageWriteAsync 0 0x1000 0x100 2 (some 7) 9) (demo (withSr 0) []))).map
      (fun s => (wireCmds 0 s.trace, s.eng, s.devs)) =
      some ([0x05, 0x06, 0x02], some { tx := some 0x100, rxp := none, n := 2, performed := false },
        [{ withSr 2 with rxq := [0x02, 0x00, 0x10, 0x00] }]) := by decide
theorem test_pageWriteAsync_length_300 :
    refusal (exec (.pageWriteAsync 0 0 0x100 300 (some 7) 9) (demo (withSr 0) [])) = some .badLength := by
  decide

/-- E1: address 250, length 20: two page reads, the bytes in order. -/
theorem test_rangeRead :
    (ok (exec (.rangeRead 0 250 0x200 20)
        (demo { withSr 0 with mem := [(250, 1), (255, 2), (256, 3), (269, 4), (270, 5)] } []))).map
      (fun s => (wireCmds 0 s.trace, s.ram, s.addr, s.rem)) =
      some ([0x03, 0x03], [(0x200, 1), (0x205, 2), (0x206, 3), (0x213, 4)], 270, 0) := by decide
theorem test_rangeRead_zero :
    (ok (exec (.rangeRead 0 250 0x200 0) (demo (withSr 0) []))).map (fun s => s.trace) =
      some [.ret .rangeRead .nothing] := by decide

/-- E2: the same two-chunk split for a write, each a complete page write. -/
theorem test_rangeWrite :
    (ok (exec (.rangeWrite 0 250 0x100 20)
        { demo (withSr 0) [.env (.finish 0), .env (.finish 0)] with ram := wb })).map
      (fun s => (wireCmds 0 s.trace, s.devs.map (·.mem))) =
      some ([0x05, 0x06, 0x02, 0x05, 0x05, 0x05, 0x06, 0x02, 0x05, 0x05],
        [(List.range 20).map fun k => (250 + k, BitVec.ofNat 8 (0x10 + k))]) := by decide
theorem test_rangeWrite_zero :
    (ok (exec (.rangeWrite 0 250 0x100 0) (demo (withSr 0) []))).map (fun s => s.trace) =
      some [.ret .rangeWrite .nothing] := by decide

theorem test_sectorErase :
    (ok (exec (.sectorErase 0 0x1234)
        (demo { withSr 0 with mem := [(0xFFF, 1), (0x1000, 2), (0x1FFF, 3), (0x2000, 4)] }
          [.env (.finish 0)]))).map (fun s => (wireCmds 0 s.trace, s.devs.map (·.mem))) =
      some ([0x05, 0x06, 0xD7, 0x05, 0x05], [[(0xFFF, 1), (0x2000, 4)]]) := by decide
/-- The erase keeps running while the device is busy and nobody else moves. -/
theorem test_sectorErase_sleeps :
    (ok (exec (.sectorErase 0 0x1234) (demo (withSr 0) []))).map
      (fun s => (s.phase, s.devs.map (·.job))) =
      some (.busy .sectorErase 17, [some (.eraseSector 1)]) := by decide
theorem test_blockErase :
    (ok (exec (.blockErase 0 0x2ABCD)
        (demo { withSr 0 with mem := [(0x1FFFF, 1), (0x20000, 2), (0x2FFFF, 3), (0x30000, 4)] }
          [.env (.finish 0)]))).map (fun s => (wireCmds 0 s.trace, s.devs.map (·.mem))) =
      some ([0x05, 0x06, 0xD8, 0x05, 0x05], [[(0x1FFFF, 1), (0x30000, 4)]]) := by decide
theorem test_chipErase :
    (ok (exec (.chipErase 0) (demo { withSr 0 with mem := [(0, 1), (0xFFFFF, 2)] }
          [.env (.finish 0)]))).map (fun s => (wireCmds 0 s.trace, s.devs)) =
      some ([0x05, 0x06, 0xC7, 0x05, 0x05], [withSr 0]) := by decide

/-- V9: the completion closes the transaction, empties the slot and calls back once. -/
theorem test_completion :
    (ok (exec .completion (pendingDemo true none []))).map
      (fun s => (s.trace, s.slot, s.eng, s.insts)) =
      some ([.cs 0 .deasserted, .cb (some 7) 9], { tag := .idle, owner := none, cb := none, ctx := 9 },
        none, (demo Device.reference []).insts) := by decide
theorem test_completion_before_perform :
    refusal (exec .completion (pendingDemo false none [])) = some .completionNotEnabled := by decide

/-- V9: the engine stores what the device returns. -/
theorem test_perform :
    (ok (step { pendingDemo false none [.env .perform] with
        devs := [{ Device.reference with mem := [(0x100, 0xDE), (0x103, 0xEF)], rxq := [3, 0, 1, 0] }] })).map
      (fun s => (s.ram, s.eng.map (·.performed))) =
      some ([(0x200, 0xDE), (0x203, 0xEF)], some true) := by decide
theorem test_buffer_race :
    refusal (step (pendingDemo false none [.hostRead 0x203 1])) = some .bufferRace ∧
      refusal (step (pendingDemo false none [.hostRead 0x204 1])) = none := by decide

/-- The MISO bytes of a raw transaction. -/
def miso (es : List Event) : List (List Byte) :=
  es.filterMap fun e => match e with | .wire _ _ r => some r | _ => none

theorem test_wire_jedecid :
    (ok (exec (.jedecid 0 0 0 0) (demo (withSr 0) []))).map
      (fun s => (miso s.trace).map (·.drop 1)) = some [[0x9D, 0x13, 0x44]] := by decide
theorem test_wire_rdsr :
    (ok (exec (.rdsr 0 0) (demo busyDev []))).map (fun s => (miso s.trace).map (·.drop 1)) =
      some [[0x03]] := by decide
theorem test_wire_wrsr :
    (ok (exec (.wrsr 0 0x80) (demo (withSr 2) []))).map (fun s => s.devs) =
      some [{ withSr 3 with job := some (.writeSR 0x80) }] := by decide
theorem test_wire_wren :
    (ok (exec (.wren 0) (demo (withSr 0) []))).map (fun s => s.devs) = some [withSr 2] := by decide
theorem test_wire_wren_busy :
    (ok (exec (.wren 0) (demo { busyDev with sr := 1 } []))).map (fun s => s.devs) =
      some [{ busyDev with sr := 1 }] := by decide
/-- No dummy byte: the first data byte is frame byte 4 (R202). -/
theorem test_wire_read :
    (ok (exec (.read 0 0xFF [0, 0]) (demo { withSr 0 with mem := [(0xFF, 0xA5), (0x100, 0xA6)] } []))).map
      (fun s => (miso s.trace).map (·.drop 4)) = some [[0xA5, 0xA6]] := by decide
theorem test_wire_pp_wraps :
    (ok (exec (.pp 0 0x1FF [0x11, 0x22]) (demo (withSr 2) []))).map (fun s => s.devs) =
      some [{ withSr 3 with job := some (.prog [(0x1FF, 0x11), (0x100, 0x22)]) }] := by decide
theorem test_wire_pp_ignored :
    (ok (exec (.pp 0 0x1000 [0x11, 0x22]) (demo (withSr 0) []))).map (fun s => s.devs) =
      some [withSr 0] := by decide
theorem test_wire_se :
    (ok (exec (.se 0 0x1234) (demo (withSr 2) []))).map (fun s => s.devs) =
      some [{ withSr 3 with job := some (.eraseSector 1) }] := by decide
theorem test_wire_be :
    (ok (exec (.be 0 0x02ABCD) (demo (withSr 2) []))).map (fun s => s.devs) =
      some [{ withSr 3 with job := some (.eraseBlock 2) }] := by decide
theorem test_wire_ce :
    (ok (exec (.ce 0) (demo (withSr 2) []))).map (fun s => s.devs) =
      some [{ withSr 3 with job := some .eraseChip }] := by decide

/-- Of 257 data bytes the first does not count; the last is aimed where it was (log 44). -/
theorem test_pp_257 (data : List Byte) (h : data.length = 256) :
    progWrites 0x1FF (0x11 :: data) = (data.zipIdx 1).map (fun b => (progTarget 0x1FF b.2, b.1)) ∧
      progTarget 0x1FF 1 = 0x100 ∧ progTarget 0x1FF 256 = 0x1FF := by
  refine ⟨?_, by decide, by decide⟩
  unfold progWrites
  rw [List.length_cons, h]
  rfl
/-- Bytes that are no command reach the device, which ignores them (R210, U19, N16). -/
theorem test_wire_unknown_ignored :
    (ok (step (demo (withSr 2) [.packet (.wire 0 [0x20, 1, 2])]))).map
      (fun s => (s.devs, (miso s.trace).map (·.length), s.inputs)) = some ([withSr 2], [3], []) ∧
    (ok (step (demo (withSr 2) [.packet (.wire 0 [0xC7, 0])]))).map (fun s => s.devs) =
      some [withSr 2] := by decide

/-- V10: `old = 0xF0`, programmed with `0x3C`: overwrite gives `0x3C`, and gives `0x30`. -/
theorem test_merge : (mergeByte .overwrite 0xF0 0x3C, mergeByte .and 0xF0 0x3C, mergeByte .and 0xFF 0x3C) =
    (0x3C, 0x30, 0x3C) := by decide

/-! ## Witnesses: for every statement with hypotheses, a state and operands that meet them all -/

/-- The demonstration state is ready, whatever the inputs but a cut turn. -/
theorem demo_ready (d : Device) (l : List Input) (hp : d.present = true)
    (ht : (demo d l).wholeTurn) : (demo d l).Ready 0 d where
  handler := rfl
  phase := rfl
  slot := rfl
  chipSelects := rfl
  exists_ := by show 0 < 1; decide
  closed := rfl
  csDistinct := by show ([0] : List Nat).Nodup; decide
  turn := ht
  begun := rfl
  bus := Or.inr rfl
  device := rfl
  present := hp

/-- The second instance of the shared bus is ready while the bus is Foreign. -/
theorem shared_ready : (sharedDemo []).Ready 1 Device.reference where
  handler := rfl
  phase := rfl
  slot := rfl
  chipSelects := rfl
  exists_ := by show 1 < 2; decide
  closed := rfl
  csDistinct := by show ([0, 1] : List Nat).Nodup; decide
  turn := nofun
  begun := rfl
  bus := Or.inl rfl
  device := rfl
  present := rfl

/-- A busy chip on the second instance of the shared bus, three moves of others before it finishes. -/
def waiting3 : State :=
  { sharedDemo [.env .foreign, .env (.finish 0), .env .perform, .env (.finish 1)] with
      devs := [busyDev, busyDev] }

theorem waiting3_ready : waiting3.Ready 1 busyDev where
  handler := rfl
  phase := rfl
  slot := rfl
  chipSelects := rfl
  exists_ := by show 1 < 2; decide
  closed := rfl
  csDistinct := by show ([0, 1] : List Nat).Nodup; decide
  turn := nofun
  begun := rfl
  bus := Or.inl rfl
  device := rfl
  present := rfl

/-- Five polls and four sleeps, the bus configured again after the foreign master's move (R112, R128). -/
theorem test_wait_among_others :
    (ok (exec (.waitForWriteComplete 1) waiting3)).map (fun s =>
      (wireCmds 1 s.trace, sleeps s.trace, s.devs.map (·.job), s.busCfg)) =
      some (List.replicate 5 0x05, 4, [none, none], .ours) := by decide

theorem idle_ready : (demo (withSr 0) []).Ready 0 (withSr 0) := demo_ready _ _ rfl nofun
theorem wel_ready : (demo (withSr 2) []).Ready 0 (withSr 2) := demo_ready _ _ rfl nofun
theorem busy_ready : (demo busyDev []).Ready 0 busyDev := demo_ready _ _ rfl nofun
theorem idle_ok : (withSr 0).ok := by unfold Device.ok; decide
theorem busy_ok : busyDev.ok := by unfold Device.ok; decide
theorem empty_ramOk : ramOk [] := by unfold ramOk; decide
theorem wb_ramOk : ramOk wb := by unfold ramOk; decide

/-- The instance, device and memory part of the invariant of the demonstration state. -/
theorem demo_inv (d : Device) (l : List Input) (h : d.ok) : (demo d l).Inv where
  config := ⟨by show 1 ≤ 1; decide, rfl, by show ([0] : List Nat).Nodup; decide, by
    intro x hx y hy; cases List.mem_singleton.mp hx; cases List.mem_singleton.mp hy; exact ⟨rfl, rfl⟩⟩
  ram := empty_ramOk
  devices := by intro e he; cases List.mem_singleton.mp he; exact h
  slotOwner := by show SlotTag.idle = SlotTag.pending ↔ false = true; decide
  slotEngine := by show SlotTag.idle = SlotTag.pending ↔ false = true; decide
  slotCallback := by
    show false = true ↔ (SlotTag.idle = SlotTag.pending ∨ (none : Option HandlerStep) = some .c3
      ∨ (none : Option HandlerStep) = some .c4)
    decide
  ownerExists := nofun
  handlerPending := nofun
  handlerIdle := nofun
  onlyReturnLeft := fun _ => Or.inl rfl
  phaseStep := nofun
  asyncCallback := nofun
  txnOpen := by show ∀ i < 1, _; intro i hi; cases Nat.lt_one_iff.mp hi; exact ⟨nofun, nofun⟩
  chipSelects := rfl
  busOurs := fun h => absurd rfl h
  openingOurs := nofun
  dedicatedOurs := fun _ _ => rfl

/-- The invariant with an exchange in flight. -/
theorem pending_inv (b : Bool) (l : List Input) : (pendingDemo b none l).Inv where
  config := ⟨by show 1 ≤ 1; decide, rfl, by show ([0] : List Nat).Nodup; decide, by
    intro x hx y hy; cases List.mem_singleton.mp hx; cases List.mem_singleton.mp hy; exact ⟨rfl, rfl⟩⟩
  ram := empty_ramOk
  devices := by
    intro e he; cases List.mem_singleton.mp he; unfold Device.ok; decide
  slotOwner := ⟨fun _ => rfl, fun _ => rfl⟩
  slotEngine := ⟨fun _ => rfl, fun _ => rfl⟩
  slotCallback := ⟨fun _ => Or.inl rfl, fun _ => rfl⟩
  ownerExists := by intro o h; cases h; show 0 < 1; decide
  handlerPending := nofun
  handlerIdle := nofun
  onlyReturnLeft := fun _ => Or.inl rfl
  phaseStep := nofun
  asyncCallback := nofun
  txnOpen := by
    show ∀ i < 1, _; intro i hi; cases Nat.lt_one_iff.mp hi; exact ⟨fun _ => rfl, fun _ => rfl⟩
  chipSelects := rfl
  busOurs := fun _ => rfl
  openingOurs := nofun
  dedicatedOurs := fun _ _ => rfl

theorem next_of_ok {o : Host.Outcome State Fault Refusal} (h : (ok o).isSome = true) :
    ∃ t, o = .next t := by
  cases o with
  | next t => exact ⟨t, rfl⟩
  | fault f => cases h
  | refused r => cases h

/-- An operation in progress: `rangeRead` after its first chunk's length is set (E1: 6 of 20 bytes at 250). -/
def chunking : State :=
  { demo (withSr 0) [.run 1] with phase := .busy .rangeRead 1, addr := 250, cnt := 6, rem := 20 }

/-- The submitting operation of V6 at its `Return`, the engine already done. -/
def atReturn : State := { pendingDemo true none [] with phase := .busy .pageReadAsync 5 }

theorem witness_DecodeEncode :
    (Instr.begin 255).wellFormed = true ∧ (Instr.read 7 0xFFFFFF [0]).wellFormed = true ∧
      (Instr.pp 0 0 (List.replicate 257 0)).wellFormed = true :=
  ⟨rfl, rfl, test_wf_pp_257⟩
theorem witness_FrameHasOneSpelling :
    decodeFrame [0xC7] = .ok .ce ∧ decodeFrame [0x03, 0, 0, 0, 0] = .ok (.read 0 [0]) := ⟨rfl, rfl⟩
theorem witness_ReservedHostCodes :
    0x11 ≤ (0x11 : Byte).toNat ∧ (0x1F : Byte).toNat ≤ 0x1F ∧ (List.replicate 23 (0 : Byte)).length = 23 ∧
      State.hostWaits (demo (withSr 0) [.packet (.request (0x1F :: List.replicate 23 0))]) = false ∧
      decode (.request (0x10 :: List.replicate 23 0)) = .ok (.chipErase 0) :=
  ⟨by decide, by decide, by decide, rfl, rfl⟩
theorem witness_ResetArrives : (pendingDemo false none [.reset]).inputs = .reset :: [] := rfl
/-- A packet that waits, one that is an instruction, a request and bytes on a free bus that are none, and a table word. -/
theorem witness_StepRunsTheDecodedInstruction :
    State.packetWaits .completion (pendingDemo true (some .c1) [.packet .completion]) = true ∧
      State.packetWaits (.request []) atReturn = true ∧
      State.packetWaits (.wire 0 [0xC7]) (demo (withSr 0) []) = false ∧
      decode (.wire 0 [0xC7]) = .ok (.ce 0) ∧ decode (.request [0]) = .error .malformedRequest ∧
      decode (.wire 0 []) = .error .emptyFrame ∧ (demo (withSr 0) []).devs[0]? = some (withSr 0) ∧
      (demo (withSr 0) []).csAsserted = [] ∧ decodeTableWord 8 0xC7 = some (.ce 0) :=
  ⟨rfl, rfl, rfl, rfl, rfl, rfl, rfl, rfl, by decide⟩
theorem witness_RequestWaitsWhileBusy :
    hostRequest (.begin 0) = some { op := .begin, i := 0 } ∧ chunking.handler = none ∧
      chunking.phase ≠ .idle := ⟨rfl, rfl, nofun⟩
/-- In caller context, and in the handler before c2 has emptied the slot. -/
theorem witness_RefusedWhilePending :
    hostRequest (.readStatus 5) = some { op := .readStatus, i := 5 } ∧
      (pendingDemo false none []).handler = none ∧ (pendingDemo false none []).phase = .idle ∧
      (pendingDemo false none []).slot.tag = .pending ∧
      (pendingDemo true (some .c2) []).handler ≠ none ∧
      (pendingDemo true (some .c2) []).slot.tag = .pending := ⟨rfl, rfl, rfl, rfl, nofun, rfl⟩
/-- The clauses of R224: an index at `N_INST`, and instance 0 after reset, not begun. -/
theorem witness_RefusedBeforeBegin :
    State.reset.handler = none ∧ State.reset.phase = .idle ∧ State.reset.insts.length ≤ 1 ∧
      0 < State.reset.insts.length ∧ State.reset.slot.tag = .idle ∧ HostOp.readStatus ≠ .begin ∧
      (State.reset.inst 0).begun = false := by decide
theorem witness_RefusedInCallback :
    (pendingDemo true (some .c4) []).handler = some .c4 ∧ (Instr.readStatus 0).wellFormed = true :=
  ⟨rfl, rfl⟩
/-- Lengths 0 and 257, and lengths 1 and 256 without a callback. -/
theorem witness_RefusedPageOperands :
    State.Ready 0 (withSr 0) (demo (withSr 0) []) ∧
      hostRequest (.pageReadAsync 0 0 0 256 none 0) =
        some { op := .pageReadAsync, i := 0, len := 256 } ∧
      isPage .pageReadSync = true ∧ isAsync .pageWriteAsync = true ∧
      256 < (257 : Len).toNat ∧ 1 ≤ (1 : Len).toNat ∧ (256 : Len).toNat ≤ 256 :=
  ⟨idle_ready, rfl, rfl, rfl, by decide, by decide, by decide⟩
/-- Accepted: 256 bytes across a page boundary. -/
theorem witness_AcceptedExactlyWhen :
    hostRequest (.pageWriteSync 0 0x1FF 0x100 256) =
        some { op := .pageWriteSync, i := 0, addr := 0x1FF, p := 0x100, len := 256 } ∧
      (demo (withSr 0) []).handler = none ∧ (demo (withSr 0) []).phase = .idle ∧
      (ok (exec (.pageWriteSync 0 0x1FF 0x100 256) (demo (withSr 0) [.run 0]))).isSome = true :=
  ⟨rfl, rfl, rfl, by decide⟩
/-- The window of V6's exchange is `0x200` to `0x203`: its last byte is touched, the next is not. -/
theorem witness_BufferRace :
    (∃ x q k j, (pendingDemo false none []).eng = some x ∧ (x.tx = some q ∨ x.rxp = some q) ∧ k < 1 ∧
        j < x.n ∧ ptrAt 0x203 k = ptrAt q j) ∧
      (¬∃ x q k j, (pendingDemo false none []).eng = some x ∧ (x.tx = some q ∨ x.rxp = some q) ∧ k < 1 ∧
        j < x.n ∧ ptrAt 0x204 k = ptrAt q j) ∧
      (pendingDemo false none [.hostRead 0x203 1]).hostWaits = false ∧
      (pendingDemo false none [.hostWrite 0x204 [1]]).hostWaits = false := by
  refine ⟨⟨_, 0x200, 0, 3, rfl, Or.inr rfl, by decide, by decide, by decide⟩, ?_, rfl, rfl⟩
  rintro ⟨x, q, k, j, h, hq, hk, hj, e⟩
  cases h
  cases hq with
  | inl h => cases h
  | inr h =>
    cases h
    cases Nat.lt_one_iff.mp hk
    have all : ∀ j < 4, ptrAt 0x204 0 ≠ ptrAt 0x200 j := by decide
    exact all j hj e
theorem witness_BeginPreparesAnInstance :
    (sharedDemo []).handler = none ∧ (sharedDemo []).phase = .idle ∧ 1 < (sharedDemo []).insts.length ∧
      (sharedDemo []).slot.tag = .idle ∧ (sharedDemo []).wholeTurn ∧
      0 < (pendingDemo false none []).insts.length ∧ (pendingDemo false none []).slot.tag = .pending :=
  ⟨rfl, rfl, by show 1 < 2; decide, rfl, nofun, by show 0 < 1; decide, rfl⟩
/-- The move is enabled; then disabled by a dedicated bus, by a chip select, and by an opening transaction. -/
theorem witness_ForeignMaster :
    (sharedDemo [.env .foreign]).anyShared = true ∧ (sharedDemo [.env .foreign]).csAsserted = [] ∧
      (sharedDemo [.env .foreign]).slot.tag = .idle ∧
      (sharedDemo [.env .foreign]).nextMicro ≠ some .settle ∧
      (sharedDemo [.env .foreign]).nextMicro ≠ some .select ∧
      (demo (withSr 0) [.env .foreign]).anyShared = false ∧
      (pendingDemo false none [.env .foreign]).csAsserted ≠ [] ∧
      (pendingDemo false none [.env .foreign]).slot.tag = .pending ∧
      { sharedDemo [.env .foreign] with phase := .busy .readStatus 1 }.nextMicro = some .settle ∧
      { sharedDemo [.env .foreign] with phase := .busy .readStatus 2 }.nextMicro = some .select := by
  decide
/-- For `ReadStatus`, `IsWriteInProgress`, `WriteEnable`, `JedecIdRead`, `IsValidChip`: idle, busy, and on a shared bus. -/
theorem witness_ReadStatus :
    State.Ready 0 (withSr 0) (demo (withSr 0) []) ∧ State.Ready 0 busyDev (demo busyDev []) ∧
      State.Ready 1 Device.reference (sharedDemo []) := ⟨idle_ready, busy_ready, shared_ready⟩
theorem witness_IsWriteInProgress : State.Ready 0 busyDev (demo busyDev []) := busy_ready
theorem witness_WriteEnable : State.Ready 0 (withSr 0) (demo (withSr 0) []) := idle_ready
theorem witness_JedecIdRead :
    State.Ready 0 (withSr 0) (demo (withSr 0) []) ∧ (withSr 0).sr.getLsbD 0 = false :=
  ⟨idle_ready, rfl⟩
theorem witness_IsValidChip :
    State.Ready 1 Device.reference (sharedDemo []) ∧ Device.reference.sr.getLsbD 0 = false :=
  ⟨shared_ready, rfl⟩
theorem witness_WaitOnAnIdleDevice :
    State.Ready 0 (withSr 2) (demo (withSr 2) []) ∧ (withSr 2).sr.getLsbD 0 = false :=
  ⟨wel_ready, rfl⟩
/-- No other move first; and three: a foreign master, another device, the idle engine. -/
theorem witness_WaitEndsWhenTheDeviceFinishes :
    State.Ready 0 busyDev (demo busyDev [.env (.finish 0)]) ∧ busyDev.sr.getLsbD 0 = true ∧
      busyDev.job ≠ none ∧ (demo busyDev [.env (.finish 0)]).eng = none ∧
      (demo busyDev [.env (.finish 0)]).anyShared = false ∧
      (demo busyDev [.env (.finish 0)]).inputs = [].map Input.env ++ .env (.finish 0) :: [] ∧
      State.Ready 1 busyDev waiting3 ∧ waiting3.eng = none ∧ (waiting3.inst 1).shared = true ∧
      .finish 1 ∉ [EnvMove.foreign, .finish 0, .perform] ∧ 6 * 3 + 13 ≤ Config.maxSteps ∧
      waiting3.inputs = [EnvMove.foreign, .finish 0, .perform].map Input.env ++ .env (.finish 1) :: [] :=
  ⟨demo_ready _ _ rfl nofun, rfl, nofun, rfl, rfl, rfl, waiting3_ready, rfl, rfl, by decide, by decide,
    rfl⟩
/-- For `WaitSleepsOnABusyDevice` and `WaitHangsWithoutFinish`: every operation that begins with a wait is accepted. -/
theorem witness_WaitSleepsOnABusyDevice :
    State.Ready 0 busyDev (demo busyDev []) ∧ busyDev.sr.getLsbD 0 = true ∧
      (∀ e rest, (demo busyDev []).inputs ≠ .env e :: rest) ∧ (demo busyDev []).inputs = [] ∧
      [Instr.waitForWriteComplete 0, .writeStatus 0 0x80, .pageWriteSync 0 0 0 256,
        .pageWriteAsync 0 0 0 1 (some 7) 9, .sectorErase 0 0, .blockErase 0 0, .chipErase 0].all
        (fun i => match hostRequest i with
          | some r => waitsFirst r.op && decide ((demo busyDev []).refusalOf r = none) && decide (r.i = 0)
          | none => false) = true :=
  ⟨busy_ready, rfl, nofun, rfl, by decide⟩
theorem witness_WriteStatus :
    State.Ready 0 (withSr 0) (demo (withSr 0) []) ∧ (withSr 0).sr.getLsbD 0 = false ∧
      State.Ready 0 (withSr 2) (demo (withSr 2) []) ∧ (withSr 2).sr.getLsbD 0 = false :=
  ⟨idle_ready, rfl, wel_ready, rfl⟩
/-- For `PageReadSync` and `PageReadAsync`: lengths 1 and 256, and an address whose byte the spec gives. -/
theorem witness_PageReadSync :
    State.Ready 0 (withSr 0) (demo (withSr 0) []) ∧ ramOk (demo (withSr 0) []).ram ∧
      1 ≤ (1 : Len).toNat ∧ (256 : Len).toNat ≤ 256 ∧ (withSr 0).sr.getLsbD 0 = false ∧
      (withSr 0).answersAt (flashAddr 0xFFFF0 + 15) :=
  ⟨idle_ready, empty_ramOk, by decide, by decide, rfl, Or.inl (by decide)⟩
theorem witness_PageReadAsync :
    State.Ready 1 Device.reference (sharedDemo []) ∧ 1 ≤ (256 : Len).toNat ∧ (256 : Len).toNat ≤ 256 :=
  ⟨shared_ready, by decide, by decide⟩
/-- For `PageWriteSync`, `SectorErase`, `BlockErase`, `ChipErase`: an idle device that finishes once. -/
theorem witness_PageWriteSync :
    State.Ready 0 (withSr 0) (demo (withSr 0) [.env (.finish 0)]) ∧ (withSr 0).ok ∧
      (withSr 0).sr.getLsbD 0 = false ∧ 1 ≤ (1 : Len).toNat ∧ (256 : Len).toNat ≤ 256 ∧
      (demo (withSr 0) [.env (.finish 0)]).inputs = .env (.finish 0) :: [] ∧
      (withSr 0).answersAt (flashAddr 0xFFFFF) ∧ (∀ w, (withSr 0).enabled.protects w = false) :=
  ⟨demo_ready _ _ rfl nofun, idle_ok, rfl, by decide, by decide, rfl, Or.inl (by decide), fun _ => rfl⟩
theorem witness_erases :
    State.Ready 0 (withSr 0) (demo (withSr 0) [.env (.finish 0)]) ∧ (withSr 0).ok ∧
      (withSr 0).sr.getLsbD 0 = false ∧
      (demo (withSr 0) [.env (.finish 0)]).inputs = .env (.finish 0) :: [] ∧
      (withSr 0).answersAt (flashAddr 0x01001234) ∧ (∀ w, (withSr 0).enabled.protects w = false) :=
  ⟨demo_ready _ _ rfl nofun, idle_ok, rfl, rfl, Or.inl (by decide), fun _ => rfl⟩
/-- For `ProtectionIsSilent`: a chip with a protection scheme, and each of the four operations accepted with its command. -/
theorem witness_ProtectionIsSilent :
    State.Ready 0 guarded (demo guarded []) ∧ guarded.sr.getLsbD 0 = false ∧
      (∀ e rest, (demo guarded []).inputs ≠ .env e :: rest) ∧
      [Instr.pageWriteSync 0 0x1FF 0x100 256, .sectorErase 0 0x1234, .blockErase 0 0, .chipErase 0].all
        (fun i => match hostRequest i with
          | some r => decide ((demo guarded []).refusalOf r = none) &&
              ((writeCommand [] r).bind startedJob).isSome && decide (r.i = 0)
          | none => false) = true :=
  ⟨demo_ready _ _ rfl nofun, rfl, nofun, by decide⟩
theorem witness_PageWriteAsync :
    State.Ready 0 (withSr 0) (demo (withSr 0) []) ∧ (withSr 0).sr.getLsbD 0 = false ∧
      1 ≤ (1 : Len).toNat ∧ (256 : Len).toNat ≤ 256 := ⟨idle_ready, rfl, by decide, by decide⟩
/-- A receiving exchange; no exchange; and one already performed. -/
theorem witness_EnginePerforms :
    (pendingDemo false none [.env .perform]).inputs = .env .perform :: [] ∧
      (pendingDemo false none [.env .perform]).eng = some ⟨none, some 0x200, 4, false⟩ ∧
      0 < (pendingDemo false none [.env .perform]).insts.length ∧
      ((pendingDemo false none [.env .perform]).insts.map fun y => y.csId).Nodup ∧
      (pendingDemo false none [.env .perform]).csAsserted =
        [((pendingDemo false none [.env .perform]).inst 0).csId] ∧
      (pendingDemo false none [.env .perform]).busCfg = .ours ∧
      (pendingDemo false none [.env .perform]).devs[0]? =
        some { Device.reference with rxq := [0x03, 0x00, 0x01, 0x00] } ∧
      (demo (withSr 0) [.env .perform]).eng = none ∧
      (∃ x, (pendingDemo true none [.env .perform]).eng = some x ∧ x.performed = true) :=
  ⟨rfl, rfl, by decide, by decide, rfl, rfl, rfl, rfl, ⟨_, rfl, rfl⟩⟩
theorem witness_Completion :
    (pendingDemo true none []).handler = none ∧ (pendingDemo true none []).slot.tag = .pending ∧
      (pendingDemo true none []).slot.owner = some 0 ∧
      (pendingDemo true none []).eng = some ⟨none, some 0x200, 4, true⟩ ∧
      (pendingDemo true none []).wholeTurn := ⟨rfl, rfl, rfl, rfl, nofun⟩
/-- Each of the four conditions. -/
theorem witness_CompletionNotEnabled :
    (demo (withSr 0) []).slot.tag = .idle ∧ (demo (withSr 0) []).eng = none ∧
      (∃ x, (pendingDemo false none []).eng = some x ∧ x.performed = false) ∧
      (pendingDemo true (some .c1) []).handler ≠ none := ⟨rfl, rfl, ⟨_, rfl, rfl⟩, nofun⟩
/-- For `AsyncReadLifecycle` and `AsyncWriteLifecycle`. -/
theorem witness_AsyncReadLifecycle :
    State.Ready 0 (withSr 0) (demo (withSr 0) [.env .perform, .packet .completion]) ∧
      ramOk (demo (withSr 0) []).ram ∧ (withSr 0).sr.getLsbD 0 = false ∧ 1 ≤ (1 : Len).toNat ∧
      (256 : Len).toNat ≤ 256 ∧
      (demo (withSr 0) [.env .perform, .packet .completion]).inputs =
        .env .perform :: .packet .completion :: [] ∧
      State.wholeTurn { demo (withSr 0) [.env .perform, .packet .completion] with inputs := [] } :=
  ⟨demo_ready _ _ rfl nofun, empty_ramOk, rfl, by decide, by decide, rfl, nofun⟩
theorem witness_CompletionAndReturnCommute :
    atReturn.phase = .busy .pageReadAsync 5 ∧ microAt .pageReadAsync 5 = some .ret ∧
      atReturn.completionEnabled = true ∧ atReturn.slot.owner = some 0 ∧ atReturn.inputs = [] :=
  ⟨rfl, rfl, rfl, rfl, rfl⟩
/-- A chunk cut by the page, and the last chunk of 1 byte. -/
theorem witness_ChunkArithmetic :
    (20 : Len) ≠ 0 ∧ (chunkLen 250 20).toNat < (20 : Len).toNat ∧ (chunkLen 255 1).toNat = 1 := by
  decide
theorem witness_ChunkStaysInPage :
    chunking.chunkInv ∧ ∃ t, step chunking = .next t := by
  refine ⟨?_, next_of_ok (by decide)⟩
  intro op k h _ _ _
  cases h
  decide
theorem witness_RangeOfLengthZero :
    State.Ready 0 (withSr 0) (demo (withSr 0) []) ∧ (demo (withSr 0) []).wholeTurn := ⟨idle_ready, nofun⟩
theorem witness_RangeReadIsLinear :
    State.Ready 1 Device.reference (sharedDemo []) ∧ ramOk (sharedDemo []).ram ∧ (20 : Len) ≠ 0 ∧
      Device.reference.sr.getLsbD 0 = false ∧ Device.reference.answersAt ((250 + 19) % 16777216) :=
  ⟨shared_ready, empty_ramOk, by decide, rfl, Or.inl (by decide)⟩
/-- E2: two chunks, so two finishes; the range ends inside the array. -/
theorem witness_RangeWriteIsLinear :
    State.Ready 0 (withSr 0) (demo (withSr 0) [.env (.finish 0), .env (.finish 0)]) ∧ (withSr 0).ok ∧
      (withSr 0).sr.getLsbD 0 = false ∧ (20 : Len) ≠ 0 ∧
      (demo (withSr 0) [.env (.finish 0), .env (.finish 0)]).inputs =
        List.replicate (chunkCount 250 20) (.env (.finish 0)) ++ [] ∧
      flashAddr 250 + (20 : Len).toNat ≤ 1048576 ∧ (∀ w, (withSr 0).enabled.protects w = false) :=
  ⟨demo_ready _ _ rfl nofun, idle_ok, rfl, by decide, by decide, by decide, fun _ => rfl⟩
/-- For the five statements about wire commands: a free bus and a chip, idle or busy; data of 257 bytes. -/
theorem witness_OnTheWire :
    (demo (withSr 0) []).csAsserted = [] ∧ (demo (withSr 0) []).devs[0]? = some (withSr 0) ∧
      (withSr 0).present = true ∧ (withSr 0).sr.getLsbD 0 = false ∧ (withSr 0).answersAt 0xFFFFF ∧
      (demo busyDev []).csAsserted = [] ∧ (demo busyDev []).devs[0]? = some busyDev ∧
      busyDev.present = true ∧ 1 ≤ (List.replicate 257 (0 : Byte)).length :=
  ⟨rfl, rfl, rfl, rfl, Or.inl (by decide), rfl, rfl, rfl, by rw [List.length_replicate]; decide⟩
theorem witness_WriteCommandsStartTheirJob :
    startedJob (.wrsr 0x80) = some (.writeSR 0x80) ∧ (Wire.wrsr 0x80).wellFormed = true ∧
      startedJob (.pp 0x1FF [0x11, 0x22]) = some (.prog (progWrites 0x1FF [0x11, 0x22])) ∧
      (Wire.pp 0x1FF [0x11, 0x22]).wellFormed = true ∧
      startedJob (.se 0x1234) = some (.eraseSector 1) ∧ startedJob (.be 0x02ABCD) = some (.eraseBlock 2) ∧
      startedJob .ce = some .eraseChip ∧ ([0x11, 0x22] : List Byte)[1]? = some 0x22 ∧
      (withSr 2).protects (.wrsr 0x80) = false := by decide
/-- Each kind of job, sector 255 and block 15, and a program inside the array; and no job. -/
theorem witness_FinishAppliesTheJob :
    (demo busyDev [.env (.finish 0)]).inputs = .env (.finish 0) :: [] ∧
      (demo busyDev [.env (.finish 0)]).devs[0]? = some busyDev ∧ busyDev.ok ∧
      busyDev.job = some (.prog [(0x1000, 0x11)]) ∧
      ([(0x1000, (0x11 : Byte))].map fun w => w.1).Nodup ∧
      (∀ w ∈ [(0x1000, (0x11 : Byte))], w.1 < 1048576) ∧
      { busyDev with job := some (.eraseSector 255) }.ok ∧ { busyDev with job := some (.eraseBlock 15) }.ok ∧
      { busyDev with job := some .eraseChip }.ok ∧ { busyDev with job := some (.writeSR 0xFC) }.ok ∧
      (withSr 0).ok ∧ (withSr 0).job = none := by
  refine ⟨rfl, rfl, busy_ok, rfl, by decide, by decide, ?_, ?_, ?_, ?_, idle_ok, rfl⟩ <;>
    (unfold Device.ok; decide)
theorem witness_InvAtReset :
    configOk (sharedDemo []).insts (sharedDemo []).devs ∧ (∀ d ∈ (sharedDemo []).devs, d.ok) ∧ ramOk wb := by
  refine ⟨⟨by decide, rfl, by decide, by decide⟩, ?_, wb_ramOk⟩
  unfold Device.ok
  decide
/-- For `InvKept`, `BusOwnership`, `SlotRules`, `ArrayChangesOnlyAtFinish`: idle and pending states and a step. -/
theorem witness_InvKept :
    (demo (withSr 0) [.packet (.request (encodeRequest { op := .readStatus, i := 0 }))]).Inv ∧
      (∃ t, step (demo (withSr 0) [.packet (.request (encodeRequest { op := .readStatus, i := 0 }))]) = .next t) ∧
      (pendingDemo true none [.packet .completion]).Inv ∧
      ∃ t, step (pendingDemo true none [.packet .completion]) = .next t :=
  ⟨demo_inv _ _ idle_ok, next_of_ok (by decide), pending_inv _ _, next_of_ok (by decide)⟩
theorem witness_SlotRules :
    (pendingDemo false none []).Inv ∧ (pendingDemo false none []).phase = .idle ∧
      (pendingDemo false none []).handler = none ∧ 0 < (pendingDemo false none []).insts.length :=
  ⟨pending_inv _ _, rfl, rfl, by show 0 < 1; decide⟩
theorem witness_DisciplineKept :
    (demo (withSr 0) [.packet (.request (encodeRequest { op := .chipErase, i := 0 }))]).Inv ∧
      (demo (withSr 0) [.packet (.request (encodeRequest { op := .chipErase, i := 0 }))]).Disciplined ∧
      ∃ t, step (demo (withSr 0) [.packet (.request (encodeRequest { op := .chipErase, i := 0 }))]) = .next t :=
  ⟨demo_inv _ _ idle_ok, ⟨fun _ _ _ h => (nomatch h), nofun, nofun, nofun, nofun⟩, next_of_ok (by decide)⟩
/-- A step that moves nothing of device 0 while its finish is still to come, and the finish itself. -/
theorem witness_ArrayChangesOnlyAtFinish :
    (∃ t, step (demo busyDev [.env .foreign, .env (.finish 0)]) = .next t) ∧
      ∃ t, step (demo busyDev [.env (.finish 0)]) = .next t :=
  ⟨next_of_ok (by decide), next_of_ok (by decide)⟩

/-! ## Fairness (R228, R229, D26) -/

/-- A host access outside the buffer before the engine's two moves does no harm. -/
theorem test_fairEngine :
    (pendingDemo false none [.hostRead 0x300 1, .env .perform, .packet .completion]).fairEngine := by
  refine State.always_step (fun _ _ => ?_) rfl (State.always_step (fun _ _ => ?_) rfl
    (State.always_step (fun _ _ => ?_) rfl (State.always_stutter (fun h => (h rfl).elim) rfl)))
  · exact State.eventually_step rfl (State.eventually_step rfl
      (State.eventually_now ⟨rfl, ⟨_, rfl⟩, _, rfl, by simp⟩))
  · exact State.eventually_step rfl (State.eventually_now ⟨rfl, ⟨_, rfl⟩, _, rfl, by simp⟩)
  · exact State.eventually_now ⟨rfl, ⟨_, rfl⟩, [], (List.append_nil _).symm, by simp⟩
/-- A completion raised before the exchange is performed completes nothing, whatever comes behind it. -/
theorem test_unfair_before_perform :
    ¬(pendingDemo false none [.packet .completion, .env .perform, .packet .completion]).fairEngine :=
  fun h => nomatch (State.eventually_refused (h 0 _ rfl nofun rfl) rfl).1
/-- The stuck state of R229: performed, and no completion ever comes. -/
theorem test_unfair_stuck : ¬(pendingDemo true none []).fairEngine := fun h => by
  obtain ⟨-, ⟨_, e⟩, -⟩ := State.eventually_stutter (h 0 _ rfl nofun rfl) rfl
  cases e
theorem test_fairDevice : (demo busyDev [.hostRead 0x300 1, .env (.finish 0)]).fairDevice := by
  have fin : ∀ l, State.finishes 0 (demo busyDev (.env (.finish 0) :: l)) := fun l =>
    State.eventually_step rfl (State.eventually_now ⟨_, rfl, by simp⟩)
  refine State.always_step ?_ rfl (State.always_step ?_ rfl (State.always_stutter ?_ rfl))
  all_goals
    intro i d hd hb
    cases i with
    | succ i => cases hd
    | zero => ?_
  · exact State.eventually_step rfl (fin [])
  · exact fin []
  · cases hd; cases hb

end Sys2Proof.Tests
end

section
/-! PROOFS. The frame builder (41_frame_builder.md R120): its frame is the opcode and the wire address of its argument, so only the low 24 bits of an address reach the chip (R55). -/

namespace Sys2Proof.Machine

/-- Shifting down and truncating, as the builder does, takes a slice of the word. -/
theorem setWidth_ushiftRight (a : Addr) (i n : Nat) :
    (a >>> i).setWidth n = a.extractLsb' i n :=
  BitVec.eq_of_toNat_eq (by simp)

/-- An address and its wire address have the same three address bytes. -/
theorem addrBytes_setWidth (a : Addr) :
    addrBytes (a.setWidth 24) =
      [a.extractLsb' 16 8, a.extractLsb' 8 8, a.extractLsb' 0 8] := by
  have slice (i : Nat) (h : i + 8 ≤ 24) :
      (a.setWidth 24).extractLsb' i 8 = a.extractLsb' i 8 := BitVec.extractLsb'_setWidth_of_le h
  simp only [addrBytes, slice 16 (by decide), slice 8 (by decide), slice 0 (by decide)]

/-- The frame on the wire: the opcode, then the wire address, high byte first (R120, R55). -/
theorem buildFrame_bytes (op : Byte) (a : Addr) :
    (buildFrame op a).bytes = op :: addrBytes (a.setWidth 24) := by
  have low : a.setWidth 8 = a.extractLsb' 0 8 := BitVec.setWidth_eq_extractLsb' (by decide)
  rw [addrBytes_setWidth, ← setWidth_ushiftRight, ← setWidth_ushiftRight, ← low]
  rfl

theorem Frame.bytes_injective : Function.Injective Frame.bytes := by
  rintro ⟨⟩ ⟨⟩ h
  simpa [Frame.bytes] using h

/-- The builder sees only the wire address (R55). -/
theorem buildFrame_eq_of_setWidth_eq (op : Byte) {a b : Addr}
    (h : a.setWidth 24 = b.setWidth 24) : buildFrame op a = buildFrame op b :=
  Frame.bytes_injective (by rw [buildFrame_bytes, buildFrame_bytes, h])

/-- 2^24 is zero on the wire: adding it changes no bit of the wire address. -/
theorem setWidth_add_two_pow_24 (a : Addr) :
    (a + 0x1000000).setWidth 24 = a.setWidth 24 := by
  have zero : (0x1000000 : Addr).setWidth 24 = 0#24 := by decide
  rw [BitVec.setWidth_add _ _ (by decide), zero, BitVec.add_zero]

/-- Settles O5: the frame is the opcode and the wire address, and 2^24 does not move the wire address. -/
theorem buildFrame_spec : Obligations.BuildFrame := by
  refine ⟨fun op a => ⟨?bytes, ?wraps, ?zero⟩, fun s => ?addressed⟩
  case bytes => rw [buildFrame_bytes, addrBytes_setWidth]
  case wraps => exact buildFrame_eq_of_setWidth_eq op (setWidth_add_two_pow_24 a)
  case zero => rfl
  case addressed => exact ⟨rfl, rfl, rfl, rfl⟩

end Sys2Proof.Machine
end

section
/-! PROOFS. The status operations (42_status_control.md R126, R127): one `RDSR` transaction and the return of what the status register holds. -/

namespace Sys2Proof.Machine

/-- WIP is bit 0 of the status byte and depends on no other (R31). -/
theorem wip_eq_getLsbD (v : Byte) : wip v = v.getLsbD 0 := by
  have mask : v &&& Config.maskWIP = (BitVec.ofBool (v.getLsbD 0)).setWidth 8 :=
    BitVec.and_one_eq_setWidth_ofBool_getLsbD
  rw [wip, mask]
  cases v.getLsbD 0 <;> decide

/-- A begun instance accepts every operation that is no page operation and takes no callback (R223). -/
theorem State.Ready.refusalOf_eq_none {i : Nat} {d : Device} {s : State} (h : s.Ready i d)
    {r : Request} (hi : r.i = i) (hpage : isPage r.op = false) (hasync : isAsync r.op = false) :
    s.refusalOf r = none := by
  subst hi
  simp [State.refusalOf, Nat.not_le.mpr h.exists_, h.slot, h.begun, hpage, hasync]

/-- The state after one `RDSR` transaction of the running operation with the device `d`, PHASE at step `k` (R126). -/
def State.afterRdsr (op : HostOp) (k : Nat) (d : Device) (s : State) : State :=
  { s with
    f := { s.f with b0 := Config.opRDSR, b1 := Config.dummyTx }
    st := d.sr
    phase := .busy op k
    busCfg := .ours
    devs := s.devs.set s.cur d.released
    draws := s.draws + 4
    trace := s.trace ++ s.pollEvents s.cur (Config.freeByte (s.draws + 2)) d.sr }

/-- One `RDSR` transaction, busy device or not: five steps, and `ST` holds the status register (R126, R198). -/
theorem Steps.rdsr {s : State} {op : HostOp} {k : Nat} {x : Inst} {d : Device}
    (hp : s.phase = .busy op k) (ho : s.CanOpen s.cur x d)
    (h0 : microAt op k = some .configure) (h1 : microAt op (k + 1) = some .settle)
    (h2 : microAt op (k + 2) = some .select) (h3 : microAt op (k + 3) = some (.send .rdsr))
    (h4 : microAt op (k + 4) = some .deselect) :
    Steps 5 s (s.afterRdsr op (k + 5) d) := by
  have answer := Device.answers_rdsr ho.present (s.draws + 2) Config.dummyTx
  refine (Steps.command hp ho h0 h1 h2 h3 h4 (w := .rdsr Config.dummyTx) rfl rfl answer).of_eq ?_
  simp [State.afterRdsr, State.capture, State.loadFrame, State.pollEvents, State.txnEvents,
    encodeFrame, Device.act]

/-- The operations that are one `RDSR` transaction and a return: `readStatus` and `isWriteInProgress` (R127). -/
def isStatusOp (op : HostOp) : Prop := op = .readStatus ∨ op = .isWriteInProgress

/-- The state in which a status operation on instance `i`, whose device is `d`, has returned. -/
def State.afterStatusOp (op : HostOp) (i : Nat) (d : Device) (s : State) : State :=
  { s with
    cur := i
    held := { status := 0, cb := none, ctx := 0 }
    f := { s.f with b0 := Config.opRDSR, b1 := Config.dummyTx }
    st := d.sr
    phase := .idle
    busCfg := .ours
    devs := s.devs.set i d.released
    draws := s.draws + 4
    trace := s.trace ++ s.pollEvents i (Config.freeByte (s.draws + 2)) d.sr ++
      [.ret op ({ s with st := d.sr }.result op)] }

section
variable {op : HostOp} {i : Nat} {d : Device} {s : State}

theorem microAt_statusOp (hop : isStatusOp op) (k : Nat) : microAt op k = progReadStatus[k]? := by
  rcases hop with rfl | rfl <;> rfl

theorem State.Ready.accepts_statusOp (h : s.Ready i d) (hop : isStatusOp op) :
    s.refusalOf { op := op, i := i } = none := by
  rcases hop with rfl | rfl <;> exact h.refusalOf_eq_none rfl rfl rfl

/-- The return of a status operation after its transaction: its result is read off `ST` alone. -/
theorem opStep_ret_statusOp (hop : isStatusOp op) :
    opStep op 5 .ret ((s.accept { op := op, i := i }).afterRdsr op 5 d) =
      s.afterStatusOp op i d := by
  rcases hop with rfl | rfl <;> rfl

/-- A status operation runs its transaction and returns (R126, R127). -/
theorem exec_statusOp {instr : Instr} (h : s.Ready i d) (hop : isStatusOp op)
    (hreq : hostRequest instr = some { op := op, i := i }) :
    exec instr s = .next (s.afterStatusOp op i d) := by
  let r : Request := { op := op, i := i }
  have opens : (s.accept r).CanOpen (s.accept r).cur (s.inst i) d := by
    rw [State.accept_cur]
    exact h.canOpen (by simp) (by simp) (.inl (by simp)) (by simpa using h.device) h.present
  have step := microAt_statusOp hop
  have poll := Steps.rdsr (State.accept_phase s r) opens (step 0) (step 1) (step 2) (step 3) (step 4)
  have ret := Steps.one (s := (s.accept r).afterRdsr op 5 d) rfl (step 5) (by simp)
  have whole := (poll.trans ret).of_eq (opStep_ret_statusOp hop)
  rw [exec_accepted hreq h.handler h.phase (h.accepts_statusOp hop) h.turn,
    whole.run rfl (by decide)]

/-- A status operation leaves everything but its registers, its device and the trace as it was, and the bus as one transaction of its instance leaves it. -/
theorem State.Ready.controlFrame_statusOp (h : s.Ready i d) :
    s.ControlFrame i (s.afterStatusOp op i d) where
  phase := rfl
  handler := rfl
  insts := rfl
  chipSelects := rfl
  slot := rfl
  eng := rfl
  bus := by
    rcases h.bus with shared | ours
    · exact (if_pos shared).symm
    · simp [afterStatusOp, busAfter, ours]
  others _ hj := List.getElem?_set_ne hj.symm
  count := List.length_set
  cur := rfl
  regs := ⟨rfl, rfl, rfl, rfl⟩
  ram := rfl
  inputs := rfl

theorem State.Ready.devs_afterStatusOp (h : s.Ready i d) :
    (s.afterStatusOp op i d).devs[i]? = some d.released := by
  obtain ⟨hi, -⟩ := List.getElem?_eq_some_iff.1 h.device
  exact List.getElem?_set_self hi

end

/-- Settles O20: the operation runs `readStatus`'s transaction, and its result, the WIP of `ST`, is bit 0. -/
theorem isWriteInProgress : Obligations.IsWriteInProgress := by
  intro i d s h
  refine ⟨s.afterStatusOp .isWriteInProgress i d, Config.freeByte (s.draws + 2),
    exec_statusOp h (.inr rfl) rfl, h.controlFrame_statusOp, h.devs_afterStatusOp,
    ?status, ?frame, ?ident, ?trace⟩
  case status => rfl
  case frame => rfl
  case ident => rfl
  case trace => rw [← wip_eq_getLsbD]; rfl

end Sys2Proof.Machine
end

section
/-! PROOFS. Requests from inside the callback (60_exceptions.md R226; log 15): the packet of a well-formed host instruction decodes to that instruction (R90; layout of log 1), and with the handler running its request is refused. -/

namespace Sys2Proof

/-- The four bytes of a word, joined in their order, are the word. -/
theorem word32_byteOf (w : BitVec 32) :
    word32 (byteOf w 0) (byteOf w 1) (byteOf w 2) (byteOf w 3) = w := by
  have high : byteOf w 3 ++ byteOf w 2 = w.extractLsb' 16 16 :=
    BitVec.extractLsb'_append_extractLsb'_eq_extractLsb' rfl
  have upper : w.extractLsb' 16 16 ++ byteOf w 1 = w.extractLsb' 8 24 :=
    BitVec.extractLsb'_append_extractLsb'_eq_extractLsb' rfl
  have whole : w.extractLsb' 8 24 ++ byteOf w 0 = w.extractLsb' 0 32 :=
    BitVec.extractLsb'_append_extractLsb'_eq_extractLsb' rfl
  rw [word32, high, upper, whole, BitVec.extractLsb'_eq_self]

/-- Every operation's code fits bits 4:0 of the code byte (R90). -/
theorem HostOp.code_lt (o : HostOp) : o.code < 32 := by
  cases o <;> decide

theorem HostOp.ofCode_code (o : HostOp) : HostOp.ofCode o.code = some o := by
  cases o <;> rfl

/-- The request layout loses nothing of a tuple whose instance fits its byte (log 1). -/
theorem decodeRequest_encodeRequest (r : Request) (hi : r.i < 256) :
    decodeRequest (encodeRequest r) = .ok r := by
  obtain ⟨op, i, addr, len, p, status, cb, ctx⟩ := r
  have hcode : op.code < 32 := op.code_lt
  have code : op.code % 256 = op.code := Nat.mod_eq_of_lt (by omega)
  have index : i % 256 = i := Nat.mod_eq_of_lt hi
  cases cb <;>
    simp [encodeRequest, encodeCallback, bytesOf, decodeRequest, decodeCallback, word32_byteOf,
      code, index, Nat.not_le.mpr hcode, HostOp.ofCode_code]

end Sys2Proof

namespace Sys2Proof.Machine

section
variable {i : Instr} {r : Request}

theorem instr_of_hostRequest (h : hostRequest i = some r) : r.instr = i := by
  cases i <;> cases h <;> rfl

theorem encode_of_hostRequest (h : hostRequest i = some r) :
    encode i = .request (encodeRequest r) := by
  cases i <;> cases h <;> rfl

theorem wellFormed_of_hostRequest (h : hostRequest i = some r) :
    i.wellFormed = indexFits r.i := by
  cases i <;> cases h <;> rfl

/-- The packet of a well-formed host instruction decodes to it. -/
theorem decode_encode_of_hostRequest (h : hostRequest i = some r) (hw : i.wellFormed = true) :
    decode (encode i) = .ok i := by
  have index : r.i < 256 := by simpa [wellFormed_of_hostRequest h, indexFits] using hw
  simp [encode_of_hostRequest h, decode, decodeRequest_encodeRequest r index,
    instr_of_hostRequest h]

/-- In completion context every request is refused (R226; log 15). -/
theorem exec_refused_inCallback {s : State} (h : hostRequest i = some r) (hh : s.handler ≠ none) :
    exec i s = .refused .inCallback := by
  rw [exec_issue h, State.issue, if_pos hh]

end

/-- Inside the callback the host can act (R177, R226), so a request at its port does not wait. -/
theorem State.packetWaits_request_of_inCallback {s : State} (hh : s.handler = some .c4)
    (bytes : List Byte) : s.packetWaits (.request bytes) = false := by
  simp [packetWaits, hostWaits, hh]

/-- A packet that does not wait and decodes is executed (log 12). -/
theorem step_packet {s : State} {p : Packet} {rest : List Input} {i : Instr}
    (hin : s.inputs = .packet p :: rest) (hgo : s.packetWaits p = false)
    (hdec : decode p = .ok i) : step s = exec i { s with inputs := rest } := by
  simp [step, hin, hgo, State.arrive, hdec]

/-- Settles O13: inside the callback a request does not wait, decodes to itself and is refused at acceptance. -/
theorem refusedInCallback : Obligations.RefusedInCallback := by
  intro i r s h hh
  have refused (t : State) (ht : t.handler = some .c4) : exec i t = .refused .inCallback :=
    exec_refused_inCallback h (by simp [ht])
  refine ⟨refused s hh, fun rest hw => ?_⟩
  have ready : { s with inputs := .packet (encode i) :: rest }.packetWaits (encode i) = false := by
    rw [encode_of_hostRequest h]
    exact State.packetWaits_request_of_inCallback hh (encodeRequest r)
  rw [step_packet rfl ready (decode_encode_of_hostRequest h hw)]
  exact refused _ hh

end Sys2Proof.Machine
end

section
/-! PROOFS. What a reset of the sequencer leaves (70_reset_and_hazards.md R250), for any instances, devices and host memory beside it. -/

namespace Sys2Proof.Machine

section
variable {insts : List Inst} {devs : List Device} {ram : Memory}

/-- Reset keeps an instance's configuration and clears its two flags (R24, R25). -/
theorem State.flags_clear_of_mem_resetWith {x : Inst}
    (hx : x ∈ (State.resetWith insts devs ram).insts) : x.begun = false ∧ x.txnOpen = false := by
  obtain ⟨_, -, rfl⟩ := List.mem_map.1 hx
  exact ⟨rfl, rfl⟩

/-- No chip select is among the asserted ones after reset (R26). -/
theorem State.resetWith_cs (c : Nat) : (State.resetWith insts devs ram).cs c = .deasserted :=
  if_neg List.not_mem_nil

end

/-- Settles O7: the flags are cleared instance by instance, no chip select is listed as asserted, and every other field is given its value. -/
theorem resetState : Obligations.ResetState := by
  intro insts devs ram
  refine ⟨?phase, fun _ => State.flags_clear_of_mem_resetWith, State.resetWith_cs, ?bus, ?slot⟩
  case phase => rfl
  case bus => rfl
  case slot => exact ⟨rfl, rfl, rfl, rfl⟩

end Sys2Proof.Machine
end

section
/-! PROOFS. Encodings (30_encoding.md R81 to R90, 41_frame_builder.md R121): decoding inverts encoding, a frame has one spelling, and the reserved host codes. -/

namespace Sys2Proof

/-- A wire command's instruction is well formed exactly when the command is. -/
theorem Wire.instr_wellFormed (i : Nat) (w : Wire) : (w.instr i).wellFormed = w.wellFormed := by
  cases w <;> rfl

/-- The packet of a wire command's instruction is its frame to that instance. -/
theorem Wire.encode_instr (i : Nat) (w : Wire) : encode (w.instr i) = .wire i (encodeFrame w) := by
  cases w <;> rfl

theorem decode_encode_wire (i : Nat) {w : Wire} (h : w.wellFormed = true) :
    decode (encode (w.instr i)) = .ok (w.instr i) := by
  rw [w.encode_instr, decode, Machine.decodeFrame_encodeFrame w h]

/-- The three families of instructions: host requests, the completion, and the wire commands. -/
theorem Instr.cases_family (i : Instr) :
    (∃ r, Machine.hostRequest i = some r) ∨ i = .completion ∨ ∃ n w, i = Wire.instr n w := by
  cases i
  case completion => exact .inr (.inl rfl)
  case jedecid n d1 d2 d3 => exact .inr (.inr ⟨n, .jedecid d1 d2 d3, rfl⟩)
  case rdsr n d => exact .inr (.inr ⟨n, .rdsr d, rfl⟩)
  case wrsr n v => exact .inr (.inr ⟨n, .wrsr v, rfl⟩)
  case wren n => exact .inr (.inr ⟨n, .wren, rfl⟩)
  case read n a out => exact .inr (.inr ⟨n, .read a out, rfl⟩)
  case pp n a data => exact .inr (.inr ⟨n, .pp a data, rfl⟩)
  case se n a => exact .inr (.inr ⟨n, .se a, rfl⟩)
  case be n a => exact .inr (.inr ⟨n, .be a, rfl⟩)
  case ce n => exact .inr (.inr ⟨n, .ce, rfl⟩)
  all_goals exact .inl ⟨_, rfl⟩

/-- Settles O1: a host request comes back from its 24 bytes, a wire command from its frame, and the completion has no bytes. -/
theorem decodeEncode : Obligations.DecodeEncode := by
  intro i hw
  rcases i.cases_family with ⟨r, hr⟩ | rfl | ⟨n, w, rfl⟩
  · exact Machine.decode_encode_of_hostRequest hr hw
  · rfl
  · exact decode_encode_wire n ((w.instr_wellFormed n).symm.trans hw)

/-! ## One spelling of each frame (R81, R87) -/

/-- The address bytes of the address three bytes carry are those bytes. -/
theorem addrBytes_wireAddr (b1 b2 b3 : Byte) : addrBytes (wireAddr b1 b2 b3) = [b1, b2, b3] := by
  simp only [addrBytes, wireAddr, List.cons.injEq, and_true]
  refine ⟨?high, ?middle, ?low⟩
  all_goals
    apply BitVec.eq_of_getLsbD_eq
    intro k hk
    simp only [BitVec.getLsbD_extractLsb', BitVec.getLsbD_append, hk, decide_true, Bool.true_and]
  case high => rw [if_neg (by omega), if_neg (by omega)]; congr 1; omega
  case middle => rw [if_neg (by omega), if_pos (by omega)]; congr 1; omega
  case low => simp [hk]

section
variable {op : Byte} {bytes : List Byte} {w : Wire}

/-- The command an address-only frame carries, and its bytes. -/
theorem decodeAddr_ok {mk : WireAddr → Wire} (h : decodeAddr op mk bytes = .ok w) :
    ∃ a, w = mk a ∧ addrBytes a = bytes := by
  unfold decodeAddr at h
  split at h
  · cases h; exact ⟨_, rfl, addrBytes_wireAddr _ _ _⟩
  · cases h

/-- The command a data-format frame carries, and its bytes. -/
theorem decodeData_ok {mk : WireAddr → List Byte → Wire} (h : decodeData op mk bytes = .ok w) :
    ∃ a data, w = mk a data ∧ dataFits data = true ∧ addrBytes a ++ data = bytes := by
  unfold decodeData at h
  split at h
  · split at h
    · next fits => cases h; exact ⟨_, _, rfl, fits, by rw [addrBytes_wireAddr]; rfl⟩
    · cases h
  · cases h

theorem decodeOne_ok {mk : Byte → Wire} (h : decodeOne op mk bytes = .ok w) :
    ∃ b, w = mk b ∧ [b] = bytes := by
  unfold decodeOne at h
  split at h
  · cases h; exact ⟨_, rfl, rfl⟩
  · cases h

theorem decodeNone_ok {c : Wire} (h : decodeNone op c bytes = .ok w) : w = c ∧ [] = bytes := by
  unfold decodeNone at h
  split at h
  · cases h; exact ⟨rfl, rfl⟩
  · cases h

theorem decodeId_ok (h : decodeId op bytes = .ok w) :
    ∃ d1 d2 d3, w = .jedecid d1 d2 d3 ∧ [d1, d2, d3] = bytes := by
  unfold decodeId at h
  split at h
  · cases h; exact ⟨_, _, _, rfl, rfl⟩
  · cases h

end

/-- Settles O2: the opcode selects one format, and each format's parser accepts only the bytes its command is written as. -/
theorem frameHasOneSpelling : Obligations.FrameHasOneSpelling := by
  intro bytes w h
  cases bytes with
  | nil => cases h
  | cons op rest =>
    rw [decodeFrame] at h
    split at h
    · next e => obtain ⟨_, _, _, rfl, rfl⟩ := decodeId_ok h; exact ⟨rfl, by rw [e]; rfl⟩
    split at h
    · next e => obtain ⟨_, rfl, rfl⟩ := decodeOne_ok h; exact ⟨rfl, by rw [e]; rfl⟩
    split at h
    · next e => obtain ⟨_, rfl, rfl⟩ := decodeOne_ok h; exact ⟨rfl, by rw [e]; rfl⟩
    split at h
    · next e => obtain ⟨rfl, rfl⟩ := decodeNone_ok h; exact ⟨rfl, by rw [e]; rfl⟩
    split at h
    · next e => obtain ⟨_, _, rfl, fits, rfl⟩ := decodeData_ok h; exact ⟨fits, by rw [e]; rfl⟩
    split at h
    · next e => obtain ⟨_, _, rfl, fits, rfl⟩ := decodeData_ok h; exact ⟨fits, by rw [e]; rfl⟩
    split at h
    · next e => obtain ⟨_, rfl, rfl⟩ := decodeAddr_ok h; exact ⟨rfl, by rw [e]; rfl⟩
    split at h
    · next e => obtain ⟨_, rfl, rfl⟩ := decodeAddr_ok h; exact ⟨rfl, by rw [e]; rfl⟩
    split at h
    · next e => obtain ⟨rfl, rfl⟩ := decodeNone_ok h; exact ⟨rfl, by rw [e]; rfl⟩
    · cases h

/-! ## Reserved host codes (R89) -/

/-- Codes 0x11 and above name no operation. -/
theorem HostOp.ofCode_eq_none {n : Nat} (h : 0x11 ≤ n) : HostOp.ofCode n = none := by
  obtain ⟨m, rfl⟩ := Nat.exists_eq_add_of_le h
  rw [Nat.add_comm]
  rfl

/-- 24 bytes whose code is reserved decode to no request (R89). -/
theorem decodeRequest_reserved {b : Byte} {bytes : List Byte} (lo : 0x11 ≤ b.toNat)
    (hi : b.toNat ≤ 0x1F) (hl : bytes.length = 23) :
    decodeRequest (b :: bytes) = .error (.unknownOp b.toNat) := by
  have five : ¬32 ≤ b.toNat := by omega
  match bytes, hl with
  | [_, _, _, _, _, _, _, _, _, _, _, _, _, _, _, _, _, _, _, _, _, _, _], _ =>
    rw [decodeRequest, if_neg five, HostOp.ofCode_eq_none lo]

/-- The instruction of a request is a host request. -/
theorem Request.hostRequest_instr_isSome (r : Request) : (Machine.hostRequest r.instr).isSome = true := by
  obtain ⟨op, _⟩ := r
  cases op <;> rfl

/-- Settles O3: the code selects no operation, so the request is refused by that name; and bytes that decode are those of a request tuple. -/
theorem reservedHostCodes : Obligations.ReservedHostCodes := by
  refine ⟨fun b bytes lo hi hl => ?_, fun bytes i h => ?_⟩
  · have reserved : decode (.request (b :: bytes)) = .error (.unknownOp b.toNat) := by
      rw [decode, decodeRequest_reserved lo hi hl]
    refine ⟨reserved, fun s rest hin hgo => ?_⟩
    have ready : s.packetWaits (.request (b :: bytes)) = false := hgo
    simp [Machine.step, hin, ready, Machine.State.arrive, reserved, Machine.State.arriveUnknown,
      Machine.refusalOfDecode]
  · rw [decode] at h
    split at h
    · cases h; exact Request.hostRequest_instr_isSome _
    · cases h

/-- Settles O4: each word's packet is decoded by evaluation. -/
theorem tableWords : Obligations.TableWords := by
  refine ⟨?_, ?_, ?_, ?_, ?_, ?_, ?_, ?_, ?_⟩ <;> decide

/-! ## The wire address of a built frame (R121) -/

/-- The builder's three address bytes carry the low 24 bits of the address. -/
theorem wireAddr_buildFrame (op : Byte) (a : Addr) :
    wireAddr (Machine.buildFrame op a).b1 (Machine.buildFrame op a).b2 (Machine.buildFrame op a).b3 =
      a.setWidth 24 := by
  have bytes : [_, _, _, _] = op :: addrBytes (a.setWidth 24) := Machine.buildFrame_bytes op a
  obtain ⟨-, h1, h2, h3⟩ : _ ∧ _ ∧ _ ∧ _ := by simpa [addrBytes] using bytes.symm
  rw [← h1, ← h2, ← h3, Machine.wireAddr_bytes]

theorem flashAddr_eq (a : Addr) : Machine.flashAddr a = (a.setWidth 24).toNat := by
  simp [Machine.flashAddr]

/-- Settles O6: the wire address determines the frame and is read back from it. -/
theorem frameInverse : Obligations.FrameInverse := by
  intro op a b
  rw [wireAddr_buildFrame, flashAddr_eq, flashAddr_eq]
  refine ⟨rfl, fun h => ?_, fun h => ?_⟩
  · rw [← wireAddr_buildFrame op a, h, wireAddr_buildFrame]
  · exact Machine.buildFrame_eq_of_setWidth_eq op (BitVec.eq_of_toNat_eq h)

end Sys2Proof
end

section
/-! PROOFS. The invariant (10_state.md R25 to R30, 40_bus_guard.md R114): it holds after reset, and every atomic piece of a step keeps it. While an operation runs, the invariant is read off the stage of the transaction its next step belongs to. -/

namespace Sys2Proof.Machine

/-! ## Lists of instances and devices -/

/-- An update that keeps what `f` reads of an element keeps the list of what `f` reads. -/
theorem map_modify_of_eq {α β : Type} {f : α → β} {g : α → α} (h : ∀ x, f (g x) = f x)
    (l : List α) (i : Nat) : (l.modify i g).map f = l.map f := by
  apply List.ext_getElem?
  intro j
  simp only [List.getElem?_map, List.getElem?_modify]
  cases l[j]? with
  | none => rfl
  | some x => by_cases e : i = j <;> simp [e, h]

theorem forall_mem_modify {α : Type} {p : α → Prop} {g : α → α} {l : List α} (hl : ∀ x ∈ l, p x)
    (hg : ∀ x, p x → p (g x)) (i : Nat) : ∀ x ∈ l.modify i g, p x := by
  intro x hx
  obtain ⟨j, hj⟩ := List.mem_iff_getElem?.1 hx
  rw [List.getElem?_modify] at hj
  obtain ⟨y, hy, rfl⟩ := Option.map_eq_some_iff.1 hj
  have old : p y := hl y (List.mem_of_getElem? hy)
  split
  · exact hg y old
  · exact old

/-- The configuration of an instance (R23): what no step changes. -/
def Inst.config (x : Inst) : Nat × Nat × Bool := (x.bus, x.csId, x.shared)

section
variable {insts insts' : List Inst} {devs devs' : List Device}

theorem mem_config_of_map_eq (h : insts'.map Inst.config = insts.map Inst.config) {x : Inst}
    (hx : x ∈ insts') : ∃ y ∈ insts, y.config = x.config := by
  have : x.config ∈ insts.map Inst.config := h ▸ List.mem_map_of_mem hx
  exact List.mem_map.1 this

/-- Whether a configuration is allowed depends on the configurations of the instances and the number of devices alone. -/
theorem configOk.congr (ok : configOk insts devs)
    (hi : insts'.map Inst.config = insts.map Inst.config) (hd : devs'.length = devs.length) :
    configOk insts' devs' := by
  obtain ⟨nonempty, count, distinct, one⟩ := ok
  have length : insts'.length = insts.length := by simpa using congrArg List.length hi
  have ids : insts'.map (fun x => x.csId) = insts.map fun x => x.csId := by
    simpa [Function.comp_def, Inst.config] using congrArg (List.map fun c => c.2.1) hi
  refine ⟨length ▸ nonempty, by rw [hd, count, length], ids ▸ distinct, fun x hx y hy => ?_⟩
  obtain ⟨x', hx', ex⟩ := mem_config_of_map_eq hi hx
  obtain ⟨y', hy', ey⟩ := mem_config_of_map_eq hi hy
  simp only [Inst.config, Prod.mk.injEq] at ex ey
  obtain ⟨bus, shared⟩ := one x' hx' y' hy'
  exact ⟨by rw [← ex.1, ← ey.1, bus], by rw [← ex.2.2, ← ey.2.2, shared]⟩

theorem any_shared_of_map_eq (h : insts'.map Inst.config = insts.map Inst.config) :
    (insts'.any fun x => x.shared) = insts.any fun x => x.shared := by
  have read (l : List Inst) : (l.any fun x => x.shared) = (l.map Inst.config).any fun c => c.2.2 := by
    simp [List.any_map, Function.comp_def, Inst.config]
  rw [read, read, h]

end

theorem State.inst_mem {s : State} {i : Nat} (h : i < s.insts.length) : s.inst i ∈ s.insts := by
  rw [State.inst_getElem h]; exact List.getElem_mem h

/-- In an allowed configuration every instance has the bus's `shared` flag (R23; log 24). -/
theorem configOk.anyShared_eq {s : State} (h : configOk s.insts s.devs) {i : Nat}
    (hi : i < s.insts.length) : s.anyShared = (s.inst i).shared := by
  obtain ⟨-, -, -, one⟩ := h
  cases e : (s.inst i).shared with
  | true => exact List.any_eq_true.2 ⟨_, State.inst_mem hi, e⟩
  | false =>
    refine List.any_eq_false.2 fun x hx => ?_
    rw [(one x hx _ (State.inst_mem hi)).2, e]
    exact Bool.false_ne_true

theorem State.inst_setTxnOpen (s : State) {i j : Nat} (b : Bool) (hj : j < s.insts.length) :
    (s.setTxnOpen i b).inst j = if i = j then { s.inst j with txnOpen := b } else s.inst j := by
  simp only [State.inst, State.setTxnOpen_insts, List.getD_eq_getElem?_getD, List.getElem?_modify,
    List.getElem?_eq_getElem hj]
  split <;> rfl

/-! ## The stage of a step (R110, R112) -/

/-- How far the transaction is that the next step belongs to. -/
inductive Stage where
  /-- no transaction is open or being opened -/
  | resting
  /-- the bus is configured, the chip not yet selected -/
  | opening
  /-- the chip is selected -/
  | selected
  /-- `begin` has configured a dedicated bus -/
  | configured
  deriving DecidableEq

/-- The stage a step is taken in. -/
def Micro.stage : Micro → Stage
  | .settle => .opening
  | .select => .opening
  | .setBegun => .configured
  | m => if needsOpen m then .selected else .resting

/-- The stage a step leaves; a submission leaves the operation to its owner. -/
def Micro.stageAfter : Micro → Stage
  | .configure => .opening
  | .settle => .opening
  | .select => .selected
  | .send _ => .selected
  | .dataIn => .selected
  | .dataOut => .selected
  | .configureOnce => .configured
  | _ => .resting

/-- The step at a position is taken in a stage. -/
def stageAt (op : HostOp) (k : Nat) (g : Stage) : Bool :=
  (microAt op k).any fun m => decide (m.stage = g)

/-- The steps after step `k` of an operation fit it: each of its ways on leads to a step of the stage it leaves. -/
def wellPlaced (op : HostOp) (k : Nat) (m : Micro) : Bool :=
  match m with
  | .ret => true
  | .advance => stageAt op 0 .resting
  | .poll => stageAt op (k - pollBack) .resting && stageAt op (k + 1) .resting
  | .chunk exit => stageAt op exit .resting && stageAt op (k + 1) .resting
  | .submitIn => isAsync op && decide (microAt op (k + 1) = some .ret)
  | .submitOut => isAsync op && decide (microAt op (k + 1) = some .ret)
  | .configure => decide (op ≠ .begin) && stageAt op (k + 1) .opening
  | m => stageAt op (k + 1) m.stageAfter

theorem mem_zipIdx_of_microAt {op : HostOp} {k : Nat} {m : Micro} (h : microAt op k = some m) :
    (m, k) ∈ (program op).zipIdx := List.mem_zipIdx_iff_getElem?.2 h

/-- Every step of every operation is followed as it must be. -/
theorem wellPlaced_of_microAt {op : HostOp} {k : Nat} {m : Micro} (h : microAt op k = some m) :
    wellPlaced op k m = true := by
  have table : ∀ p ∈ (program op).zipIdx, wellPlaced op p.2 p.1 = true := by cases op <;> decide
  exact table _ (mem_zipIdx_of_microAt h)

theorem exists_of_stageAt {op : HostOp} {k : Nat} {g : Stage} (h : stageAt op k g = true) :
    ∃ m, microAt op k = some m ∧ m.stage = g := by
  obtain ⟨m, hm, hg⟩ := (Option.any_eq_true _ _).1 h
  exact ⟨m, hm, of_decide_eq_true hg⟩

/-- Every operation starts with no transaction open. -/
theorem stageAt_zero (op : HostOp) : stageAt op 0 .resting = true := by cases op <;> decide

/-- A step is taken with the chip selected exactly in that stage. -/
theorem Micro.stage_eq_selected {m : Micro} : m.stage = .selected ↔ needsOpen m = true := by
  cases m <;> simp [Micro.stage, needsOpen]

/-! ## The invariant while an operation runs -/

/-- The invariant of a running operation that has submitted no exchange, by the stage of its next step. -/
structure State.Running (op : HostOp) (g : Stage) (s : State) : Prop where
  config : configOk s.insts s.devs
  ram : ramOk s.ram
  devices : ∀ d ∈ s.devs, d.ok
  handler : s.handler = none
  slot : s.slot.tag = .idle
  owner : s.slot.owner = none
  slotCb : s.slot.cb = none
  eng : s.eng = none
  exists_ : s.cur < s.insts.length
  begun : op ≠ .begin → (s.inst s.cur).begun = true
  callback : isAsync op = true → s.held.cb.isSome = true
  txnOpen : ∀ i < s.insts.length, ((s.inst i).txnOpen = true ↔ g = .selected ∧ i = s.cur)
  chipSelects : s.csAsserted = if g = .selected then [(s.inst s.cur).csId] else []
  bus : g = .selected ∨ g = .opening → s.busCfg = .ours
  dedicated : s.anyShared = false → (∃ x ∈ s.insts, x.begun = true) ∨ g = .configured →
    s.busCfg = .ours

section
variable {s : State} {op : HostOp} {k : Nat} {m : Micro}

theorem State.nextMicro_busy (hp : s.phase = .busy op k) : s.nextMicro = microAt op k := by
  simp [State.nextMicro, hp]

/-- With the slot Idle the open transaction is the running operation's, while its next step needs the chip. -/
theorem State.openBy_of_idle (hs : s.slot.tag = .idle) (hm : s.nextMicro = some m) :
    s.openBy = if m.stage = .selected then some s.cur else none := by
  simp [State.openBy, hs, hm, Micro.stage_eq_selected]

theorem Micro.stage_eq_opening : m.stage = .opening ↔ m = .settle ∨ m = .select := by
  cases m <;> simp [Micro.stage, needsOpen]

theorem Micro.stage_eq_configured : m.stage = .configured ↔ m = .setBegun := by
  cases m <;> simp [Micro.stage, needsOpen]

/-- While an operation has more to do than return, the slot and the handler are at rest. -/
theorem State.Inv.running (h : s.Inv) (hp : s.phase = .busy op k) (hm : microAt op k = some m)
    (hr : m ≠ .ret) : s.Running op m.stage := by
  have next : s.nextMicro = some m := (State.nextMicro_busy hp).trans hm
  have alone : ¬(s.slot.tag = .pending ∨ s.handler ≠ none) := fun hbusy => by
    rcases h.onlyReturnLeft hbusy with hi | hret
    · rw [hp] at hi; cases hi
    · exact hr (Option.some.inj (next.symm.trans hret))
  have handler : s.handler = none := Decidable.not_not.1 fun hn => alone (.inr hn)
  have notPending : s.slot.tag ≠ .pending := fun hn => alone (.inl hn)
  have slot : s.slot.tag = .idle := by
    cases e : s.slot.tag
    · rfl
    · exact absurd e notPending
  have opened := State.openBy_of_idle slot next
  obtain ⟨-, hcur, hbegun⟩ := h.phaseStep op k hp
  exact {
    config := h.config
    ram := h.ram
    devices := h.devices
    handler := handler
    slot := slot
    owner := by simpa using mt h.slotOwner.2 notPending
    slotCb := by simpa [notPending, handler] using mt h.slotCallback.1
    eng := by simpa using mt h.slotEngine.2 notPending
    exists_ := hcur
    begun := hbegun
    callback := h.asyncCallback op k hp
    txnOpen := fun i hi => by
      rw [h.txnOpen i hi, opened]
      split
      · next e => simp [e, eq_comm]
      · next e => simp [e]
    chipSelects := by
      rw [h.chipSelects, opened]
      by_cases e : m.stage = .selected
      · simp [e]
      · simp [e]
    bus := fun hg => by
      rcases hg with hg | hg
      · exact h.busOurs (by simp [opened, hg])
      · refine h.openingOurs ?_
        simpa [next] using Micro.stage_eq_opening.1 hg
    dedicated := fun hs hg => h.dedicatedOurs hs (hg.imp_right fun hg => by
      simpa [next] using Micro.stage_eq_configured.1 hg) }

/-- Conversely, the running operation's conditions give the invariant of any state whose PHASE names a step of that stage. -/
theorem State.Running.inv (h : s.Running op m.stage) (hp : s.phase = .busy op k)
    (hm : microAt op k = some m) : s.Inv := by
  have next : s.nextMicro = some m := (State.nextMicro_busy hp).trans hm
  have opened := State.openBy_of_idle h.slot next
  exact {
    config := h.config
    ram := h.ram
    devices := h.devices
    slotOwner := by simp [h.slot, h.owner]
    slotEngine := by simp [h.slot, h.eng]
    slotCallback := by simp [h.slot, h.slotCb, h.handler]
    ownerExists := by simp [h.owner]
    handlerPending := by simp [h.handler]
    handlerIdle := by simp [h.handler]
    onlyReturnLeft := by simp [h.slot, h.handler]
    phaseStep := fun op' k' e => by
      cases hp.symm.trans e
      exact ⟨by simp [hm], h.exists_, h.begun⟩
    asyncCallback := fun op' k' e => by
      cases hp.symm.trans e
      exact h.callback
    txnOpen := fun i hi => by
      rw [h.txnOpen i hi, opened]
      split
      · next e => simp [e, eq_comm]
      · next e => simp [e]
    chipSelects := by
      rw [h.chipSelects, opened]
      split <;> rfl
    busOurs := fun ho => h.bus (.inl (by
      rw [opened] at ho
      exact Decidable.not_not.1 fun e => ho (if_neg e)))
    openingOurs := fun ho => h.bus (.inr (Micro.stage_eq_opening.2 (by simpa [next] using ho)))
    dedicatedOurs := fun hs hg => h.dedicated hs (hg.imp_right fun hg =>
      Micro.stage_eq_configured.2 (by simpa [next] using hg)) }

end

/-! ## What each piece of a step leaves as it was -/

/-- The memories are canonical and the devices consistent (R190; log 9). -/
structure State.MemoriesOk (s : State) : Prop where
  ram : ramOk s.ram
  devices : ∀ d ∈ s.devs, d.ok

/-- Everything the invariant speaks of but PHASE and the memories is the same in both states. -/
structure State.SameControl (s t : State) : Prop where
  insts : t.insts = s.insts := by simp
  cur : t.cur = s.cur := by simp
  held : t.held = s.held := by simp
  handler : t.handler = s.handler := by simp
  chipSelects : t.csAsserted = s.csAsserted := by simp
  bus : t.busCfg = s.busCfg := by simp
  slot : t.slot = s.slot := by simp
  eng : t.eng.isSome = s.eng.isSome := by simp
  count : t.devs.length = s.devs.length := by simp

section
variable {s t : State} {op : HostOp} {g : Stage}

theorem State.Inv.memoriesOk (h : s.Inv) : s.MemoriesOk := ⟨h.ram, h.devices⟩

theorem State.Running.memoriesOk (h : s.Running op g) : s.MemoriesOk := ⟨h.ram, h.devices⟩

theorem State.MemoriesOk.congr (h : s.MemoriesOk) (hr : t.ram = s.ram) (hd : t.devs = s.devs) :
    t.MemoriesOk := ⟨hr ▸ h.ram, hd ▸ h.devices⟩

/-- The invariant sees the control state and that the memories are in order. -/
theorem State.Inv.congr (h : s.Inv) (c : s.SameControl t) (hp : t.phase = s.phase)
    (hm : t.MemoriesOk) : t.Inv := by
  have hinst := State.inst_eq_of_insts c.insts
  have next : t.nextMicro = s.nextMicro := by simp [State.nextMicro, hp]
  have opened : t.openBy = s.openBy := by simp [State.openBy, next, c.slot, c.handler, c.cur]
  exact {
    config := h.config.congr (congrArg _ c.insts) c.count
    ram := hm.ram
    devices := hm.devices
    slotOwner := by rw [c.slot]; exact h.slotOwner
    slotEngine := by rw [c.slot, c.eng]; exact h.slotEngine
    slotCallback := by rw [c.slot, c.handler]; exact h.slotCallback
    ownerExists := by rw [c.slot, c.insts]; exact h.ownerExists
    handlerPending := by rw [c.slot, c.handler]; exact h.handlerPending
    handlerIdle := by rw [c.slot, c.handler]; exact h.handlerIdle
    onlyReturnLeft := by rw [c.slot, c.handler, hp, next]; exact h.onlyReturnLeft
    phaseStep := by rw [hp, c.cur, c.insts, hinst]; exact h.phaseStep
    asyncCallback := by rw [hp, c.held]; exact h.asyncCallback
    txnOpen := by rw [c.insts, opened]; simpa only [hinst] using h.txnOpen
    chipSelects := by rw [c.chipSelects, opened]; simpa only [hinst] using h.chipSelects
    busOurs := by rw [opened, c.bus]; exact h.busOurs
    openingOurs := by rw [next, c.bus]; exact h.openingOurs
    dedicatedOurs := by
      rw [next, c.bus, c.insts, State.anyShared, c.insts]; exact h.dedicatedOurs }

/-- So do the running operation's conditions, which do not look at PHASE. -/
theorem State.Running.congr (h : s.Running op g) (c : s.SameControl t) (hm : t.MemoriesOk) :
    t.Running op g := by
  have hinst := State.inst_eq_of_insts c.insts
  exact {
    config := h.config.congr (congrArg _ c.insts) c.count
    ram := hm.ram
    devices := hm.devices
    handler := c.handler.trans h.handler
    slot := by rw [c.slot]; exact h.slot
    owner := by rw [c.slot]; exact h.owner
    slotCb := by rw [c.slot]; exact h.slotCb
    eng := by simpa [h.eng] using c.eng
    exists_ := by rw [c.cur, c.insts]; exact h.exists_
    begun := by rw [c.cur, hinst]; exact h.begun
    callback := by rw [c.held]; exact h.callback
    txnOpen := by rw [c.insts, c.cur]; simpa only [hinst] using h.txnOpen
    chipSelects := by rw [c.chipSelects, c.cur, hinst]; exact h.chipSelects
    bus := by rw [c.bus]; exact h.bus
    dedicated := by rw [c.bus, c.insts, State.anyShared, c.insts]; exact h.dedicated }

/-! ## Exchanges -/

/-- An exchange appends to what at most one device has received and changes no device otherwise (R191). -/
theorem State.exchanged_devs_cases (s : State) (tx : List Byte) :
    (s.exchanged tx).devs = s.devs ∨
      ∃ i, (s.exchanged tx).devs = s.devs.modify i fun d => d.receive (s.onWire tx) := by
  unfold State.exchanged
  split
  · exact .inl rfl
  · next i _ => exact .inr ⟨i, rfl⟩

@[simp] theorem State.exchanged_devs_length (s : State) (tx : List Byte) :
    (s.exchanged tx).devs.length = s.devs.length := by
  rcases s.exchanged_devs_cases tx with e | ⟨i, e⟩
  · rw [e]
  · rw [e, List.length_modify]

theorem State.MemoriesOk.exchanged (h : s.MemoriesOk) (tx : List Byte) :
    (s.exchanged tx).MemoriesOk := by
  refine ⟨by simpa using h.ram, ?_⟩
  rcases s.exchanged_devs_cases tx with e | ⟨i, e⟩
  · rw [e]; exact h.devices
  · rw [e]; exact forall_mem_modify h.devices (fun d hd => Device.ok_receive hd _) i

/-- The devices after a frame are those after the exchange of its bytes. -/
theorem State.sendFrame_devs (s : State) (c : Cmd) :
    (s.sendFrame c).devs = (({ s with f := s.loadFrame c } : State).exchanged
      (c.sent (s.loadFrame c))).devs := by
  simp [State.sendFrame, State.exchangeBytes]

@[simp] theorem State.sendFrame_devs_length (s : State) (c : Cmd) :
    (s.sendFrame c).devs.length = s.devs.length := by simp [State.sendFrame_devs]

theorem State.MemoriesOk.sendFrame (h : s.MemoriesOk) (c : Cmd) : (s.sendFrame c).MemoriesOk := by
  have loaded : ({ s with f := s.loadFrame c } : State).MemoriesOk := ⟨h.ram, h.devices⟩
  exact ⟨by simpa using h.ram, by
    rw [State.sendFrame_devs]; exact (loaded.exchanged (c.sent (s.loadFrame c))).devices⟩

theorem State.receiveData_devs (s : State) :
    s.receiveData.devs = ((s.drew s.cnt.toNat).exchanged (s.placeholder s.cnt.toNat)).devs := by
  simp [State.receiveData, State.exchangeNone]

@[simp] theorem State.receiveData_devs_length (s : State) :
    s.receiveData.devs.length = s.devs.length := by simp [State.receiveData_devs]

theorem ramOk.memWrite {m : Memory} (h : ramOk m) (p : Ptr) (vs : List Byte) :
    ramOk (memWrite m p vs) := ⟨memWrite_wf h.1 p vs, memWrite_below h.2 p vs⟩

theorem State.MemoriesOk.receiveData (h : s.MemoriesOk) : s.receiveData.MemoriesOk := by
  have drew : (s.drew s.cnt.toNat).MemoriesOk := ⟨h.ram, h.devices⟩
  refine ⟨?_, by rw [State.receiveData_devs]; exact (drew.exchanged _).devices⟩
  simpa [State.receiveData, State.exchangeNone] using h.ram.memWrite _ _

theorem State.sendData_devs (s : State) :
    s.sendData.devs = (s.exchanged (memRead s.ram s.ptr s.cnt.toNat)).devs := by
  simp [State.sendData, State.exchangeBytes]

@[simp] theorem State.sendData_devs_length (s : State) :
    s.sendData.devs.length = s.devs.length := by simp [State.sendData_devs]

theorem State.MemoriesOk.sendData (h : s.MemoriesOk) : s.sendData.MemoriesOk :=
  ⟨by simpa using h.ram, by rw [State.sendData_devs]; exact (h.exchanged _).devices⟩

end

end Sys2Proof.Machine
end

section
/-! PROOFS. Every atomic piece of a step keeps the invariant (R25 to R30, R114, R190), so every step does; and what the invariant says of the bus and the slot. -/

namespace Sys2Proof.Machine

/-! ## The steps of a running operation -/

section
variable {s t : State} {op : HostOp} {g : Stage} {k : Nat} {m : Micro}

theorem State.setTxnOpen_config (s : State) (i : Nat) (b : Bool) :
    (s.setTxnOpen i b).insts.map Inst.config = s.insts.map Inst.config := by
  rw [State.setTxnOpen_insts]; apply map_modify_of_eq; intro; rfl

theorem State.setBegun_config (s : State) (i : Nat) :
    (s.setBegun i).insts.map Inst.config = s.insts.map Inst.config := by
  rw [State.setBegun_insts]; apply map_modify_of_eq; intro; rfl

@[simp] theorem State.csAssert_inst (s : State) (i j : Nat) : (s.csAssert i).inst j = s.inst j := rfl

@[simp] theorem State.csDeassert_inst (s : State) (i j : Nat) : (s.csDeassert i).inst j = s.inst j := rfl

theorem State.begun_setTxnOpen (s : State) {i j : Nat} (b : Bool) :
    ((s.setTxnOpen i b).inst j).begun = (s.inst j).begun := by
  simp only [State.inst, State.setTxnOpen_insts, List.getD_eq_getElem?_getD, List.getElem?_modify]
  cases s.insts[j]? with
  | none => rfl
  | some x => by_cases e : i = j <;> simp [e]

theorem State.MemoriesOk.modDev (h : s.MemoriesOk) {f : Device → Device}
    (hf : ∀ d, d.ok → (f d).ok) (i : Nat) : (s.modDev i f).MemoriesOk :=
  ⟨h.ram, forall_mem_modify h.devices hf i⟩

/-- The stages in which the bus need not be ours and no chip is selected are interchangeable. -/
theorem State.Running.rest (h : s.Running op g) (hg : g ≠ .selected) : s.Running op .resting :=
  { h with
    txnOpen := fun i hi => by simpa [hg] using h.txnOpen i hi
    chipSelects := by simpa [hg] using h.chipSelects
    bus := by simp
    dedicated := fun hs hb => h.dedicated hs (hb.imp_right (by simp)) }

/-- A resting operation with the bus ours may be opening a transaction or preparing an instance. -/
theorem State.Running.prepared (h : s.Running op .resting) (hb : s.busCfg = .ours)
    (hg : g ≠ .selected) : s.Running op g :=
  { h with
    txnOpen := fun i hi => by simpa [hg] using h.txnOpen i hi
    chipSelects := by simpa [hg] using h.chipSelects
    bus := fun _ => hb
    dedicated := fun _ _ => hb }

theorem State.Running.configure (h : s.Running op .resting) (hg : g ≠ .selected) (i : Nat) :
    (s.configure i).Running op g := by
  have ours : ({ s with busCfg := .ours } : State).Running op .resting :=
    { h with bus := fun _ => rfl, dedicated := fun _ _ => rfl }
  exact (ours.congr (t := s.configure i) { bus := rfl } (h.memoriesOk.congr rfl rfl)).prepared rfl hg

/-- A transaction of an instance that is begun opens on a bus that is ours: configured just now, or dedicated (R112). -/
theorem State.Running.opening (h : s.Running op .resting) (hop : op ≠ .begin) :
    (s.micro .configure).Running op .opening := by
  simp only [State.micro]
  split
  · exact h.configure (by simp) _
  · next hs =>
    have alone : s.anyShared = false := by
      rw [h.config.anyShared_eq h.exists_]; simpa using hs
    exact h.prepared (h.dedicated alone (.inl ⟨_, State.inst_mem h.exists_, h.begun hop⟩)) (by simp)

/-- `begin` configures a dedicated bus; on a shared bus nothing depends on it (R111). -/
theorem State.Running.configured (h : s.Running op .resting) :
    (s.micro .configureOnce).Running op .configured := by
  simp only [State.micro]
  split
  · next hs =>
    have shared : s.anyShared = true := (h.config.anyShared_eq h.exists_).trans hs
    exact { h with
      txnOpen := fun i hi => by simpa using h.txnOpen i hi
      chipSelects := by simpa using h.chipSelects
      bus := by simp
      dedicated := fun hn => by rw [shared] at hn; cases hn }
  · exact h.configure (by simp) _

/-- The chip is selected alone (R112). -/
theorem State.Running.select (h : s.Running op .opening) :
    (s.openTxn s.cur).Running op .selected := by
  have config := State.setTxnOpen_config (s.csAssert s.cur) s.cur true
  exact {
    config := h.config.congr config (by simp)
    ram := h.ram
    devices := by
      rw [State.openTxn_devs]; exact forall_mem_modify h.devices (fun _ => Device.ok_select) _
    handler := h.handler
    slot := h.slot
    owner := h.owner
    slotCb := h.slotCb
    eng := h.eng
    exists_ := by simpa using h.exists_
    begun := fun hop => (State.begun_setTxnOpen _ true).trans (h.begun hop)
    callback := h.callback
    txnOpen := fun i hi => by
      rw [State.openTxn_insts, List.length_modify] at hi
      have closed := h.txnOpen i hi
      show (((s.csAssert s.cur).setTxnOpen s.cur true).inst i).txnOpen = true ↔ _
      rw [State.inst_setTxnOpen _ true (by simpa using hi), State.csAssert_inst]
      by_cases e : s.cur = i
      · simp [e]
      · simpa [e, Ne.symm e] using closed
    chipSelects := by
      rw [State.openTxn_csAsserted, h.chipSelects]
      simp
    bus := fun _ => h.bus (.inr rfl)
    dedicated := fun _ _ => h.bus (.inr rfl) }

/-- The chip is deselected and commits what it holds (R113). -/
theorem State.Running.deselect (h : s.Running op .selected) :
    (s.endTxn s.cur).Running op .resting := by
  have config := State.setTxnOpen_config (s.csDeassert s.cur) s.cur false
  exact {
    config := h.config.congr config (by simp)
    ram := h.ram
    devices := by
      rw [State.endTxn_devs]; exact forall_mem_modify h.devices (fun _ => Device.ok_commit) _
    handler := h.handler
    slot := h.slot
    owner := h.owner
    slotCb := h.slotCb
    eng := h.eng
    exists_ := by simpa using h.exists_
    begun := fun hop => (State.begun_setTxnOpen _ false).trans (h.begun hop)
    callback := h.callback
    txnOpen := fun i hi => by
      rw [State.endTxn_insts, List.length_modify] at hi
      have opened := h.txnOpen i hi
      show (((s.csDeassert s.cur).setTxnOpen s.cur false).inst i).txnOpen = true ↔ _
      rw [State.inst_setTxnOpen _ false (by simpa using hi), State.csDeassert_inst]
      by_cases e : s.cur = i
      · simp [e]
      · simpa [e, Ne.symm e] using opened
    chipSelects := by
      rw [State.endTxn_csAsserted, h.chipSelects]
      simp
    bus := by simp
    dedicated := fun _ _ => h.bus (.inl rfl) }

/-- `begin` deasserts a chip select that is not asserted; the device commits what it holds (R111; log 20). -/
theorem State.Running.park (h : s.Running op .resting) :
    (s.csDeassert s.cur).Running op .resting := by
  have devices : (s.csDeassert s.cur).MemoriesOk :=
    (h.memoriesOk.modDev (fun _ => Device.ok_commit) s.cur).congr rfl (by simp)
  exact h.congr { chipSelects := by rw [State.csDeassert_csAsserted, h.chipSelects]; rfl } devices

/-- An instance becomes begun on a bus that is ours or that every transaction configures (R111). -/
theorem State.Running.prepare (h : s.Running op .configured) :
    (s.setBegun s.cur).Running op .resting := by
  have config := State.setBegun_config s s.cur
  have flags {j : Nat} (hj : j < s.insts.length) :
      (s.setBegun s.cur).inst j = if s.cur = j then { s.inst j with begun := true } else s.inst j := by
    simp only [State.inst, State.setBegun_insts, List.getD_eq_getElem?_getD, List.getElem?_modify,
      List.getElem?_eq_getElem hj]
    split <;> rfl
  exact {
    config := h.config.congr config (by simp)
    ram := h.ram
    devices := h.devices
    handler := h.handler
    slot := h.slot
    owner := h.owner
    slotCb := h.slotCb
    eng := h.eng
    exists_ := by simpa using h.exists_
    begun := fun _ => by rw [State.setBegun_cur, flags h.exists_, if_pos rfl]
    callback := h.callback
    txnOpen := fun i hi => by
      rw [State.setBegun_insts, List.length_modify] at hi
      rw [flags hi]
      have closed := h.txnOpen i hi
      split <;> simpa using closed
    chipSelects := by simpa using h.chipSelects
    bus := by simp
    dedicated := fun hs _ => h.dedicated ((any_shared_of_map_eq config).symm.trans hs) (.inr rfl) }

/-- A submission gives the open transaction to the owner of the slot, and only the return is left (R176). -/
theorem State.Running.submitted (h : s.Running op .selected) (ha : isAsync op = true)
    (hk : microAt op k = some .ret) (tx rxp : Option Ptr) (n : Nat) :
    ((s.submit s.cur s.held.cb s.held.ctx tx rxp n).goto op k).Inv := by
  have next : ((s.submit s.cur s.held.cb s.held.ctx tx rxp n).goto op k).nextMicro = some .ret := hk
  have opened : ((s.submit s.cur s.held.cb s.held.ctx tx rxp n).goto op k).openBy = some s.cur := by
    simp [State.openBy, h.handler]
  have hinst (i : Nat) : ((s.submit s.cur s.held.cb s.held.ctx tx rxp n).goto op k).inst i = s.inst i := rfl
  exact {
    config := h.config
    ram := h.ram
    devices := h.devices
    slotOwner := by simp
    slotEngine := by simp
    slotCallback := by simpa using h.callback ha
    ownerExists := by simpa using h.exists_
    handlerPending := by simp
    handlerIdle := by simp [h.handler]
    onlyReturnLeft := fun _ => .inr next
    phaseStep := fun op' k' e => by
      cases e
      exact ⟨by simp [hk], h.exists_, h.begun⟩
    asyncCallback := fun op' k' e => by
      cases e
      exact h.callback
    txnOpen := fun i hi => by rw [hinst, h.txnOpen i hi, opened]; simp [eq_comm]
    chipSelects := by rw [opened]; exact h.chipSelects
    busOurs := fun _ => h.bus (.inl rfl)
    openingOurs := fun _ => h.bus (.inl rfl)
    dedicatedOurs := fun _ _ => h.bus (.inl rfl) }

/-- The steps that only go on in the program, from their stage to the one they leave. -/
theorem State.Running.micro (h : s.Running op m.stage) (hop : m = .configure → op ≠ .begin)
    (hm : m ≠ .submitIn ∧ m ≠ .submitOut) : (s.micro m).Running op m.stageAfter := by
  cases m with
  | configure => exact h.opening (hop rfl)
  | settle =>
    simp only [State.micro]
    split
    · exact h.congr {} (h.memoriesOk.congr rfl rfl)
    · exact h
  | select => exact h.select
  | send c =>
    show (s.sendFrame c).Running op .selected
    exact h.congr {} (h.memoriesOk.sendFrame c)
  | dataIn =>
    show s.receiveData.Running op .selected
    exact h.congr {} h.memoriesOk.receiveData
  | dataOut =>
    show s.sendData.Running op .selected
    exact h.congr {} h.memoriesOk.sendData
  | submitIn => exact absurd rfl hm.1
  | submitOut => exact absurd rfl hm.2
  | deselect => exact h.deselect
  | delay =>
    show (s.emit _).Running op .resting
    exact h.congr {} (h.memoriesOk.congr rfl rfl)
  | park => exact h.park
  | configureOnce => exact h.configured
  | setBegun => exact h.prepare
  | poll => exact h
  | chunk exit => exact h
  | advance =>
    show s.advanceChunk.Running op .resting
    exact h.congr {} (h.memoriesOk.congr rfl rfl)
  | ret => exact h

/-- PHASE moved to a step of the stage the state is in. -/
theorem State.Running.inv_goto (h : s.Running op g) (hk : stageAt op k g = true) :
    (s.goto op k).Inv := by
  obtain ⟨m, hm, rfl⟩ := exists_of_stageAt hk
  exact (h.congr (t := s.goto op k) {} (h.memoriesOk.congr rfl rfl)).inv rfl hm

/-- The return of an operation whose slot and chip select are as the invariant has them (R13). -/
theorem State.Inv.returned (h : s.Inv) (hr : s.nextMicro = some .ret) : (s.returnOp op).Inv := by
  have opened : (s.returnOp op).openBy = s.openBy := by
    rw [State.openBy, State.openBy, hr, show (s.returnOp op).nextMicro = none from rfl]
    rfl
  exact { h with
    onlyReturnLeft := fun _ => .inl rfl
    phaseStep := fun _ _ e => nomatch e
    asyncCallback := fun _ _ e => nomatch e
    txnOpen := by rw [opened]; exact h.txnOpen
    chipSelects := by rw [opened]; exact h.chipSelects
    busOurs := by rw [opened]; exact h.busOurs
    openingOurs := by simp [show (s.returnOp op).nextMicro = none from rfl]
    dedicatedOurs := fun hs hb => h.dedicatedOurs hs (.inl (hb.resolve_right nofun)) }

/-- Every atomic step of an operation keeps the invariant. -/
theorem State.Inv.opStep (h : s.Inv) (hp : s.phase = .busy op k) (hm : microAt op k = some m) :
    (opStep op k m s).Inv := by
  have placed := wellPlaced_of_microAt hm
  by_cases hr : m = .ret
  · subst hr
    exact h.returned ((State.nextMicro_busy hp).trans hm)
  have run := h.running hp hm hr
  cases m with
  | ret => exact absurd rfl hr
  | poll =>
    simp only [wellPlaced, Bool.and_eq_true] at placed
    simp only [Machine.opStep]
    split
    · exact (run.congr (t := s.emit (.sms Config.tPollMs)) {} (h.memoriesOk.congr rfl rfl)).inv_goto placed.1
    · exact run.inv_goto placed.2
  | chunk exit =>
    simp only [wellPlaced, Bool.and_eq_true] at placed
    simp only [Machine.opStep]
    split
    · exact run.inv_goto placed.1
    · exact (run.congr (t := { s with cnt := chunkLen s.addr s.rem }) {}
        (h.memoriesOk.congr rfl rfl)).inv_goto placed.2
  | advance => exact (run.micro nofun ⟨nofun, nofun⟩).inv_goto placed
  | submitIn =>
    simp only [wellPlaced, Bool.and_eq_true, decide_eq_true_eq] at placed
    exact run.submitted placed.1 placed.2 _ _ _
  | submitOut =>
    simp only [wellPlaced, Bool.and_eq_true, decide_eq_true_eq] at placed
    exact run.submitted placed.1 placed.2 _ _ _
  | configure =>
    simp only [wellPlaced, Bool.and_eq_true, decide_eq_true_eq] at placed
    exact (run.micro (fun _ => placed.1) ⟨nofun, nofun⟩).inv_goto placed.2
  | settle => exact (run.micro nofun ⟨nofun, nofun⟩).inv_goto placed
  | select => exact (run.micro nofun ⟨nofun, nofun⟩).inv_goto placed
  | send c => exact (run.micro nofun ⟨nofun, nofun⟩).inv_goto placed
  | dataIn => exact (run.micro nofun ⟨nofun, nofun⟩).inv_goto placed
  | dataOut => exact (run.micro nofun ⟨nofun, nofun⟩).inv_goto placed
  | deselect => exact (run.micro nofun ⟨nofun, nofun⟩).inv_goto placed
  | delay => exact (run.micro nofun ⟨nofun, nofun⟩).inv_goto placed
  | park => exact (run.micro nofun ⟨nofun, nofun⟩).inv_goto placed
  | configureOnce => exact (run.micro nofun ⟨nofun, nofun⟩).inv_goto placed
  | setBegun => exact (run.micro nofun ⟨nofun, nofun⟩).inv_goto placed

/-! ## Acceptance -/

/-- What an accepted request meets (R223). -/
theorem State.refusalOf_eq_none_iff {r : Request} : s.refusalOf r = none ↔
    r.i < s.insts.length ∧ s.slot.tag = .idle ∧ (r.op ≠ .begin → (s.inst r.i).begun = true) ∧
      (isPage r.op = true → 1 ≤ r.len.toNat ∧ r.len.toNat ≤ 256) ∧
      (isAsync r.op = true → r.cb ≠ none) := by
  have tag : s.slot.tag = .idle ↔ ¬s.slot.tag = .pending := by cases s.slot.tag <;> simp
  have len : (1 ≤ r.len.toNat ∧ r.len.toNat ≤ 256) ↔ ¬(r.len = 0 ∨ 256 < r.len.toNat) := by
    rw [BitVec.toNat_eq, show (0 : Len).toNat = 0 from rfl]
    omega
  have begun : (r.op ≠ .begin → (s.inst r.i).begun = true) ↔
      ¬(r.op ≠ .begin ∧ (s.inst r.i).begun = false) := by simp
  have page : (isPage r.op = true → 1 ≤ r.len.toNat ∧ r.len.toNat ≤ 256) ↔
      ¬(isPage r.op = true ∧ (r.len = 0 ∨ 256 < r.len.toNat)) := by rw [len, not_and]
  have async : (isAsync r.op = true → r.cb ≠ none) ↔ ¬(isAsync r.op = true ∧ r.cb = none) := by
    rw [not_and]
  rw [tag, begun, page, async, ← Nat.not_le]
  unfold State.refusalOf
  split
  · next e => exact ⟨nofun, fun ⟨h, _⟩ => absurd e h⟩
  split
  · next e => exact ⟨nofun, fun ⟨_, h, _⟩ => absurd e h⟩
  split
  · next e => exact ⟨nofun, fun ⟨_, _, h, _⟩ => absurd e h⟩
  split
  · next e => exact ⟨nofun, fun ⟨_, _, _, h, _⟩ => absurd e h⟩
  split
  · next e => exact ⟨nofun, fun ⟨_, _, _, _, h⟩ => absurd e h⟩
  · next e1 e2 e3 e4 e5 => exact ⟨fun _ => ⟨e1, e2, e3, e4, e5⟩, fun _ => rfl⟩

theorem State.Inv.accepted (h : s.Inv) {r : Request} (hh : s.handler = none) (hp : s.phase = .idle)
    (hr : s.refusalOf r = none) : (s.accept r).Inv := by
  obtain ⟨hi, slot, begun, -, callback⟩ := State.refusalOf_eq_none_iff.1 hr
  have notPending : s.slot.tag ≠ .pending := by simp [slot]
  have next : s.nextMicro = none := by simp [State.nextMicro, hp]
  have opened : s.openBy = none := by simp [State.openBy, slot, next]
  have run : (s.accept r).Running r.op .resting := {
    config := by simpa using h.config
    ram := by simpa using h.ram
    devices := by simpa using h.devices
    handler := by simpa using hh
    slot := by simpa using slot
    owner := by simpa using mt h.slotOwner.2 notPending
    slotCb := by simpa [notPending, hh] using mt h.slotCallback.1
    eng := by simpa using mt h.slotEngine.2 notPending
    exists_ := by simpa using hi
    begun := fun hop => by
      rw [State.inst_eq_of_insts (State.accept_insts s r), State.accept_cur]; exact begun hop
    callback := fun ha => by simpa [Option.isSome_iff_ne_none] using callback ha
    txnOpen := fun i hi => by
      rw [State.inst_eq_of_insts (State.accept_insts s r), h.txnOpen i (by simpa using hi), opened]
      simp
    chipSelects := by simpa [opened] using h.chipSelects
    bus := by simp
    dedicated := fun hs hb => by
      rw [State.accept_busCfg]
      refine h.dedicatedOurs (by simpa [State.anyShared] using hs) (.inl ?_)
      simpa using hb.resolve_right (by simp) }
  obtain ⟨m, hm, hg⟩ := exists_of_stageAt (stageAt_zero r.op)
  rw [← hg] at run
  exact run.inv (State.accept_phase s r) hm

end

end Sys2Proof.Machine
end

section
/-! PROOFS. The moves of the other agents, the completion handler and a reset keep the invariant (R20, R177, R250), so every step does (R25 to R30, R114, R190). -/

namespace Sys2Proof.Machine

section
variable {s t : State} {e : EnvMove} {c : HandlerStep}

/-! ## Other agents -/

@[simp] theorem State.perform_devs_length (s : State) : s.perform.devs.length = s.devs.length := by
  unfold State.perform
  split
  · rfl
  · split <;> simp

@[simp] theorem State.finish_devs_length (s : State) (i : Nat) :
    (s.finish i).devs.length = s.devs.length := by
  unfold State.finish
  split
  · rfl
  · split <;> simp

/-- The engine's move marks the exchange in flight as performed and takes none away (R178). -/
theorem State.perform_eng_isSome (s : State) : s.perform.eng.isSome = s.eng.isSome := by
  unfold State.perform
  split
  · rfl
  · next x e => split <;> simp [e]

theorem State.MemoriesOk.finish (h : s.MemoriesOk) (i : Nat) : (s.finish i).MemoriesOk := by
  unfold State.finish
  split
  · exact h
  · split
    · exact h
    · have drawn : ({ s with draws := s.draws + 1 } : State).MemoriesOk := ⟨h.ram, h.devices⟩
      exact (drawn.modDev (fun _ hd => Device.ok_finish hd _) i).congr rfl rfl

theorem State.MemoriesOk.perform (h : s.MemoriesOk) : s.perform.MemoriesOk := by
  unfold State.perform
  split
  · exact h
  · next x _ =>
    split
    · exact h
    · have drew : (s.drew x.n).MemoriesOk := ⟨h.ram, h.devices⟩
      obtain ⟨ram, devices⟩ := drew.exchanged (s.engineTx x)
      refine ⟨?_, by simpa using devices⟩
      cases hx : x.rxp with
      | none => simpa [State.engineStore, hx] using ram
      | some p => simpa [State.engineStore, hx] using h.ram.memWrite _ _

/-- A foreign master moves only where no claim on the bus rests (R27, D29; log 23). -/
theorem State.Inv.foreign (h : s.Inv) : s.foreignMove.Inv := by
  unfold State.foreignMove
  split
  · next enabled =>
    simp only [State.foreignEnabled, Bool.and_eq_true, decide_eq_true_eq] at enabled
    obtain ⟨⟨⟨shared, free⟩, -⟩, between⟩ := enabled
    have closed : s.openBy = none := by
      have alone := h.chipSelects
      cases ho : s.openBy with
      | none => rfl
      | some i => rw [free, ho] at alone; cases alone
    have notOpening : ¬(s.nextMicro = some .settle ∨ s.nextMicro = some .select) := by
      cases hp : s.phase with
      | idle => simp [State.nextMicro, hp]
      | busy op k =>
        rw [hp] at between
        simpa [State.nextMicro, hp] using between
    exact { h with
      busOurs := fun ho => absurd closed ho
      openingOurs := fun ho => absurd ho notOpening
      dedicatedOurs := fun hs => by rw [State.anyShared] at hs shared; rw [shared] at hs; cases hs }
  · exact h

theorem State.Inv.envMove (h : s.Inv) : (s.envMove e).Inv := by
  cases e with
  | finish i => exact h.congr (t := s.finish i) {} (by simp) (h.memoriesOk.finish i)
  | perform =>
    exact h.congr (t := s.perform) { eng := s.perform_eng_isSome } (by simp) h.memoriesOk.perform
  | _ => exact h.foreign

/-! ## The completion handler -/

/-- With the handler running no operation is past its start, but the submitting one at its return (R231). -/
theorem State.Inv.nextMicro_of_handler (h : s.Inv) (hh : s.slot.tag = .pending ∨ s.handler ≠ none) :
    s.nextMicro = none ∨ s.nextMicro = some .ret := by
  rcases h.onlyReturnLeft hh with idle | ret
  · exact .inl (by simp [State.nextMicro, idle])
  · exact .inr ret

/-- So with the slot Idle or its owner's transaction closed no transaction is open. -/
theorem State.openBy_eq_none (hn : s.nextMicro = none ∨ s.nextMicro = some .ret)
    (hs : s.slot.tag = .pending → s.handler = some .c2) : s.openBy = none := by
  unfold State.openBy
  split
  · next pending => rw [if_pos (hs pending)]
  · rcases hn with e | e
    · rw [e]
    · rw [e]; rfl

/-- Taking the completion of a Pending slot changes whose step is next and nothing else (R231). -/
theorem State.Inv.takeCompletion (h : s.Inv) (enabled : s.completionEnabled = true) :
    s.takeCompletion.Inv := by
  simp only [State.completionEnabled, Bool.and_eq_true, decide_eq_true_eq] at enabled
  obtain ⟨⟨pending, -⟩, caller⟩ := enabled
  have opened : s.takeCompletion.openBy = s.openBy := by simp [State.openBy, pending, caller]
  have returning : s.phase = .idle ∨ s.nextMicro = some .ret := h.onlyReturnLeft (.inl pending)
  exact { h with
    slotCallback := by simpa [pending] using h.slotCallback
    handlerPending := fun _ => pending
    handlerIdle := by simp
    onlyReturnLeft := fun _ => returning
    txnOpen := by rw [opened]; exact h.txnOpen
    chipSelects := by rw [opened]; exact h.chipSelects
    busOurs := by rw [opened]; exact h.busOurs }

/-- Step c1 closes the owner's transaction (R177). -/
theorem State.Inv.stepC1 (h : s.Inv) (hc : s.handler = some .c1) : s.stepC1.Inv := by
  have pending : s.slot.tag = .pending := h.handlerPending (.inl hc)
  have returning : s.phase = .idle ∨ s.nextMicro = some .ret := h.onlyReturnLeft (.inl pending)
  obtain ⟨o, ho⟩ := Option.isSome_iff_exists.1 (h.slotOwner.1 pending)
  have opened : s.openBy = some o := by simp [State.openBy, pending, hc, ho]
  have e : s.stepC1 = { s.endTxn o with handler := some .c2 } := by simp [State.stepC1, ho]
  have closed : s.stepC1.openBy = none :=
    State.openBy_eq_none
      (by simpa [State.nextMicro] using h.nextMicro_of_handler (.inl pending)) (by simp)
  have config : s.stepC1.insts.map Inst.config = s.insts.map Inst.config := by
    rw [e]; exact State.setTxnOpen_config (s.csDeassert o) o false
  have length : s.stepC1.insts.length = s.insts.length := by rw [e]; simp
  have begun (i : Nat) : (s.stepC1.inst i).begun = (s.inst i).begun := by
    rw [e]; exact (s.csDeassert o).begun_setTxnOpen (i := o) (j := i) false
  exact {
    config := h.config.congr config (by rw [e]; simp)
    ram := by simpa using h.ram
    devices := by
      rw [e]
      show ∀ d ∈ (s.endTxn o).devs, d.ok
      rw [State.endTxn_devs]
      exact forall_mem_modify h.devices (fun _ => Device.ok_commit) o
    slotOwner := by simpa using h.slotOwner
    slotEngine := by simpa using h.slotEngine
    slotCallback := by simpa [pending] using h.slotCallback
    ownerExists := by simpa [length] using h.ownerExists
    handlerPending := fun _ => by simpa using pending
    handlerIdle := by simp
    onlyReturnLeft := fun _ => by simpa [State.nextMicro] using returning
    phaseStep := fun op k hp => by
      rw [length, State.stepC1_cur, begun]; exact h.phaseStep op k (by simpa using hp)
    asyncCallback := by simpa using h.asyncCallback
    txnOpen := fun i hi => by
      rw [length] at hi
      rw [closed, e]
      show (((s.csDeassert o).setTxnOpen o false).inst i).txnOpen = true ↔ _
      rw [State.inst_setTxnOpen _ false (by simpa using hi), State.csDeassert_inst]
      have old := h.txnOpen i hi
      rw [opened] at old
      split
      · simp
      · next ne => simpa [ne] using old
    chipSelects := by
      have old := h.chipSelects
      rw [opened] at old
      rw [closed, e]
      simp [old]
    busOurs := by simp [closed]
    openingOurs := fun _ => by simpa using h.busOurs (by simp [opened])
    dedicatedOurs := fun _ _ => by simpa using h.busOurs (by simp [opened]) }

/-- Step c2 empties the slot and the engine, its owner's transaction closed (R177). -/
theorem State.Inv.stepC2 (h : s.Inv) (hc : s.handler = some .c2) : s.stepC2.Inv := by
  have pending : s.slot.tag = .pending := h.handlerPending (.inr hc)
  have steps := h.nextMicro_of_handler (.inl pending)
  have opened : s.openBy = none := State.openBy_eq_none steps fun _ => hc
  have closed : s.stepC2.openBy = none := State.openBy_eq_none steps nofun
  exact { h with
    slotOwner := by simp
    slotEngine := by simp
    slotCallback := by simpa [pending] using h.slotCallback
    ownerExists := by simp
    handlerPending := by simp
    handlerIdle := by simp
    onlyReturnLeft := fun _ => h.onlyReturnLeft (.inl pending)
    txnOpen := by rw [closed, ← opened]; exact h.txnOpen
    chipSelects := by rw [closed, ← opened]; exact h.chipSelects
    busOurs := by simp [closed] }

/-- Step c3 calls back with the slot Idle (R177). -/
theorem State.Inv.stepC3 (h : s.Inv) (hc : s.handler = some .c3) : s.stepC3.Inv := by
  have idle : s.slot.tag = .idle := h.handlerIdle (.inl hc)
  have running : s.handler ≠ none := by simp [hc]
  have same : s.stepC3.openBy = s.openBy := by
    have next : s.stepC3.nextMicro = s.nextMicro := rfl
    simp [State.openBy, idle, next]
  exact { h with
    slotCallback := by simpa [hc] using h.slotCallback
    handlerPending := by simp
    handlerIdle := fun _ => idle
    onlyReturnLeft := fun _ => h.onlyReturnLeft (.inr running)
    txnOpen := by rw [same]; exact h.txnOpen
    chipSelects := by rw [same]; exact h.chipSelects
    busOurs := by rw [same]; exact h.busOurs }

/-- Step c4 drops the callback and ends the handler (R177, R232). -/
theorem State.Inv.stepC4 (h : s.Inv) (hc : s.handler = some .c4) : s.stepC4.Inv := by
  have idle : s.slot.tag = .idle := h.handlerIdle (.inr hc)
  have same : s.stepC4.openBy = s.openBy := by
    have next : s.stepC4.nextMicro = s.nextMicro := rfl
    simp [State.openBy, idle, next]
  exact { h with
    slotCallback := by simp [idle]
    handlerPending := by simp
    handlerIdle := by simp
    onlyReturnLeft := by simp [idle]
    txnOpen := by rw [same]; exact h.txnOpen
    chipSelects := by rw [same]; exact h.chipSelects
    busOurs := by rw [same]; exact h.busOurs }

theorem State.Inv.handlerStep (h : s.Inv) (hc : s.handler = some c) : (s.handlerStep c).Inv := by
  cases c with
  | c1 => exact h.stepC1 hc
  | c2 => exact h.stepC2 hc
  | c3 => exact h.stepC3 hc
  | c4 => exact h.stepC4 hc

/-! ## Reset and raw transactions -/

theorem resetWith_config (insts : List Inst) (devs : List Device) (ram : Memory) :
    (State.resetWith insts devs ram).insts.map Inst.config = insts.map Inst.config := by
  simp [State.resetWith, Function.comp_def, Inst.config]

/-- After reset nothing is open, begun or pending (R43, R250). -/
theorem State.inv_resetWith {insts : List Inst} {devs : List Device} {ram : Memory}
    (hc : configOk insts devs) (hd : ∀ d ∈ devs, d.ok) (hr : ramOk ram) :
    (State.resetWith insts devs ram).Inv := {
  config := hc.congr (resetWith_config insts devs ram) rfl
  ram := hr
  devices := hd
  slotOwner := by simp [State.resetWith]
  slotEngine := by simp [State.resetWith]
  slotCallback := by simp [State.resetWith]
  ownerExists := nofun
  handlerPending := by simp [State.resetWith]
  handlerIdle := by simp [State.resetWith]
  onlyReturnLeft := fun _ => .inl rfl
  phaseStep := nofun
  asyncCallback := nofun
  txnOpen := fun i hi => by
    have closed := (State.flags_clear_of_mem_resetWith (State.inst_mem hi)).2
    have none_open : (State.resetWith insts devs ram).openBy = none := rfl
    simp [closed, none_open]
  chipSelects := rfl
  busOurs := fun ho => absurd rfl ho
  openingOurs := by simp [State.nextMicro, State.resetWith]
  dedicatedOurs := fun _ hb => by
    rcases hb with ⟨x, hx, begun⟩ | next
    · rw [(State.flags_clear_of_mem_resetWith hx).1] at begun; cases begun
    · cases next }

theorem State.Inv.reset (h : s.Inv) : s.resetNow.Inv :=
  (State.inv_resetWith h.config h.devices h.ram).congr (t := s.resetNow)
    ⟨rfl, rfl, rfl, rfl, rfl, rfl, rfl, rfl, rfl⟩ rfl (h.memoriesOk.congr rfl rfl)

/-- A raw transaction reaches one device and draws free values (log 17, log 40). -/
theorem State.wireTransaction_next_inv {i : Nat} {mosi : List Byte}
    (ht : s.wireTransaction i mosi = .next t) : ∃ rx,
    t = (({ s with draws := s.draws + mosi.length } : State).modDev i
      fun d => d.afterTransaction mosi).emit (.wire i mosi rx) := by
  unfold State.wireTransaction at ht
  split at ht
  · cases ht
  · split at ht
    · cases ht
    · cases ht; exact ⟨_, rfl⟩

theorem Device.ok_afterTransaction {d : Device} (h : d.ok) (mosi : List Byte) :
    (d.afterTransaction mosi).ok :=
  Device.ok_commit (Device.ok_receive (Device.ok_select h) mosi)

theorem State.Inv.wire (h : s.Inv) {i : Nat} {mosi : List Byte}
    (ht : s.wireTransaction i mosi = .next t) : t.Inv := by
  obtain ⟨rx, rfl⟩ := State.wireTransaction_next_inv ht
  have drawn : ({ s with draws := s.draws + mosi.length } : State).MemoriesOk := ⟨h.ram, h.devices⟩
  exact h.congr {} rfl
    ((drawn.modDev (fun _ hd => Device.ok_afterTransaction hd mosi) i).congr rfl rfl)

end

/-- The invariant is kept by every atomic piece of a step. -/
theorem State.inv_kept : State.Kept State.Inv where
  inputs _ _ h := h.congr {} rfl (h.memoriesOk.congr rfl rfl)
  env _ _ h := h.envMove
  op _ _ _ _ h _ hp hm := h.opStep hp hm
  handler _ _ h hh := h.handlerStep hh
  take _ h enabled := h.takeCompletion enabled
  accept _ _ h hh hp hr := h.accepted hh hp hr
  wire _ _ _ _ h ht := h.wire ht
  ram _ p bytes h := h.congr {} rfl ⟨h.ram.memWrite p bytes, h.devices⟩
  reset _ h := h.reset

/-- Settles O54: every atomic piece of a step keeps the invariant. -/
theorem invKept : Obligations.InvKept := fun s t h e => State.inv_kept.step s t h e

/-- The configuration, device and memory of `State.reset` are allowed ones. -/
theorem State.reset_inv : State.reset.Inv := by
  refine State.inv_resetWith ⟨by decide, rfl, by decide, ?_⟩ ?_ ⟨rfl, rfl⟩
  · simp
  · simp only [List.mem_singleton, forall_eq]
    exact ⟨rfl, rfl, rfl⟩

/-- Settles O53: nothing is open, begun or pending after reset, and the inputs do not matter. -/
theorem invAtReset : Obligations.InvAtReset :=
  ⟨State.reset_inv, fun _ _ _ _ hc hd hr =>
    State.inv_kept.inputs _ _ (State.inv_resetWith hc hd hr)⟩

/-! ## What the invariant says of the bus and the slot -/

section
variable {s : State}

/-- An asserted chip select is that of the instance whose transaction is open. -/
theorem State.Inv.cs_asserted (h : s.Inv) {c : Nat} :
    s.cs c = .asserted ↔ ∃ i, s.openBy = some i ∧ c = (s.inst i).csId := by
  have asserted : s.cs c = .asserted ↔ c ∈ s.csAsserted := by
    unfold State.cs; split <;> simp_all
  rw [asserted, h.chipSelects]
  cases s.openBy <;> simp

/-- Distinct instances have distinct chip-select identifiers (R23). -/
theorem State.Inv.csId_inj (h : s.Inv) {i j : Nat} (hi : i < s.insts.length)
    (hj : j < s.insts.length) (e : (s.inst i).csId = (s.inst j).csId) : i = j := by
  obtain ⟨-, -, distinct, -⟩ := h.config
  rw [State.inst_getElem hi, State.inst_getElem hj] at e
  have first := findIdx?_csId distinct (List.getElem?_eq_getElem hi)
  rw [e, findIdx?_csId distinct (List.getElem?_eq_getElem hj)] at first
  exact (Option.some.inj first).symm

/-- The instance whose transaction is open exists. -/
theorem State.Inv.openBy_lt (h : s.Inv) {i : Nat} (ho : s.openBy = some i) : i < s.insts.length := by
  unfold State.openBy at ho
  split at ho
  · split at ho
    · cases ho
    · exact h.ownerExists i ho
  · cases hp : s.phase with
    | idle => simp [State.nextMicro, hp] at ho
    | busy op k =>
      obtain ⟨-, hcur, -⟩ := h.phaseStep op k hp
      split at ho
      · split at ho
        · cases ho; exact hcur
        · cases ho
      · cases ho

end

/-- Settles O55: all four rules are about the one instance whose transaction is open. -/
theorem busOwnership : Obligations.BusOwnership := by
  intro s h
  refine ⟨fun i j hi hj oi oj => ?one, fun b c hb hc => ?select, fun i hi => ?agree, fun i hi oi => ?ours⟩
  case one =>
    exact Option.some.inj (((h.txnOpen i hi).1 oi).symm.trans ((h.txnOpen j hj).1 oj))
  case select =>
    obtain ⟨i, oi, rfl⟩ := h.cs_asserted.1 hb
    obtain ⟨j, oj, rfl⟩ := h.cs_asserted.1 hc
    rw [Option.some.inj (oi.symm.trans oj)]
  case agree =>
    rw [h.cs_asserted, h.txnOpen i hi]
    refine ⟨fun ⟨j, oj, e⟩ => ?_, fun oi => ⟨i, oi, rfl⟩⟩
    rw [h.csId_inj hi (h.openBy_lt oj) e, oj]
  case ours => exact h.busOurs (by simp [(h.txnOpen i hi).1 oi])

/-- Settles O56: between operations the open transaction is the owner's, and the other rules are the invariant's. -/
theorem slotRules : Obligations.SlotRules := by
  intro s h
  refine ⟨?owner, ?engine, fun pending => ?callback, fun idle caller i hi => ?txn⟩
  case owner => rw [h.slotOwner, Option.isSome_iff_ne_none]
  case engine => rw [h.slotEngine, Option.isSome_iff_ne_none]
  case callback => exact Option.isSome_iff_ne_none.1 (h.slotCallback.2 (.inl pending))
  case txn =>
    have opened : s.openBy = if s.slot.tag = .pending then s.slot.owner else none := by
      simp [State.openBy, caller, State.nextMicro, idle]
    rw [h.txnOpen i hi, opened]
    split
    · next pending => simp [pending]
    · next pending => simp [pending]

end Sys2Proof.Machine
end

section
/-! PROOFS. The events of each atomic piece of a step (00_scope.md R13, R66), said once: which events it appends to the trace. -/

namespace Sys2Proof.Machine

/-- The events step `m` of operation `op` may append to the trace (R13). -/
def Micro.Emits (op : HostOp) (s : State) (m : Micro) (l : List Event) : Prop :=
  match m with
  | .configure => l = [] ∨ l = [.cfg s.cur]
  | .settle => l = [] ∨ l = [.settle Config.tSettle]
  | .select => l = [.cs s.cur .asserted]
  | .send c => ∃ rx, l = [.x (some (c.sent (s.loadFrame c))) rx]
  | .dataIn => ∃ rx, l = [.x none rx]
  | .dataOut => ∃ tx rx, l = [.x (some tx) rx]
  | .submitIn => ∃ rxp n, l = [.xa none rxp n]
  | .submitOut => ∃ tx n, l = [.xa tx none n]
  | .deselect => l = [.cs s.cur .deasserted]
  | .delay => l = [.dus Config.tWrenUs]
  | .poll => l = [] ∨ l = [.sms Config.tPollMs]
  | .park => l = [.cs s.cur .deasserted]
  | .configureOnce => l = [] ∨ l = [.cfg s.cur]
  | .setBegun => l = []
  | .chunk _ => l = []
  | .advance => l = []
  | .ret => ∃ v, l = [.ret op v]

section
variable (s : State) (op : HostOp) (k : Nat)

/-- A frame is one exchange of its bytes (R84). -/
theorem State.sendFrame_trace (c : Cmd) :
    ∃ rx, (s.sendFrame c).trace = s.trace ++ [.x (some (c.sent (s.loadFrame c))) rx] :=
  ⟨({ s with f := s.loadFrame c } : State).answers (c.sent (s.loadFrame c)), by
    simp [State.sendFrame, State.exchangeBytes]⟩

theorem State.receiveData_trace : ∃ rx, s.receiveData.trace = s.trace ++ [.x none rx] :=
  ⟨(s.drew s.cnt.toNat).answers (s.placeholder s.cnt.toNat), by
    simp [State.receiveData, State.exchangeNone]⟩

theorem State.sendData_trace : ∃ rx,
    s.sendData.trace = s.trace ++ [.x (some (memRead s.ram s.ptr s.cnt.toNat)) rx] :=
  ⟨s.answers (memRead s.ram s.ptr s.cnt.toNat), by simp [State.sendData, State.exchangeBytes]⟩

/-- One atomic step of the sequencer appends its events to the trace. -/
theorem opStep_trace (m : Micro) : ∃ l, (opStep op k m s).trace = s.trace ++ l ∧ m.Emits op s l := by
  cases m with
  | configure =>
    by_cases e : (s.inst s.cur).shared = true
    · exact ⟨[.cfg s.cur], by simp [opStep, State.micro, e], .inr rfl⟩
    · exact ⟨[], by simp [opStep, State.micro, e], .inl rfl⟩
  | settle =>
    by_cases e : (s.inst s.cur).shared = true
    · exact ⟨[.settle Config.tSettle], by simp [opStep, State.micro, e], .inr rfl⟩
    · exact ⟨[], by simp [opStep, State.micro, e], .inl rfl⟩
  | select => exact ⟨_, rfl, rfl⟩
  | send c =>
    obtain ⟨rx, e⟩ := s.sendFrame_trace c
    exact ⟨_, e, rx, rfl⟩
  | dataIn =>
    obtain ⟨rx, e⟩ := s.receiveData_trace
    exact ⟨_, e, rx, rfl⟩
  | dataOut =>
    obtain ⟨rx, e⟩ := s.sendData_trace
    exact ⟨_, e, _, rx, rfl⟩
  | submitIn => exact ⟨_, rfl, _, _, rfl⟩
  | submitOut => exact ⟨_, rfl, _, _, rfl⟩
  | deselect => exact ⟨_, rfl, rfl⟩
  | delay => exact ⟨_, rfl, rfl⟩
  | poll =>
    by_cases e : wip s.st = true
    · exact ⟨[.sms Config.tPollMs], by simp [opStep, e], .inr rfl⟩
    · exact ⟨[], by simp [opStep, e], .inl rfl⟩
  | park => exact ⟨_, rfl, rfl⟩
  | configureOnce =>
    by_cases e : (s.inst s.cur).shared = true
    · exact ⟨[], by simp [opStep, State.micro, e], .inl rfl⟩
    · exact ⟨[.cfg s.cur], by simp [opStep, State.micro, e], .inr rfl⟩
  | setBegun => exact ⟨[], by simp [opStep, State.micro], rfl⟩
  | chunk exit =>
    refine ⟨[], ?_, rfl⟩
    simp only [opStep]
    split <;> simp
  | advance => exact ⟨[], by simp [opStep], rfl⟩
  | ret => exact ⟨_, rfl, _, rfl⟩

/-- The engine's move appends its event, when there is an exchange to perform (R178). -/
theorem State.perform_trace_cases :
    s.perform.trace = s.trace ∨ ∃ tx rx, s.perform.trace = s.trace ++ [.xp tx rx] := by
  unfold State.perform
  split
  · exact .inl rfl
  · next x _ =>
    split
    · exact .inl rfl
    · exact .inr ⟨s.engineTx x, (s.drew x.n).answers (s.engineTx x), by simp⟩

/-- A device that finishes says so, when it has a job (R195). -/
theorem State.finish_trace_cases (i : Nat) :
    s.finish i = s ∨ (s.finish i).trace = s.trace ++ [.fin i] := by
  unfold State.finish
  split
  · exact .inl rfl
  · split
    · exact .inl rfl
    · exact .inr rfl

/-- The handler's events: the owner's deassertion at c1 and the callback at c3 (R177). -/
theorem State.handlerStep_trace (c : HandlerStep) :
    (s.handlerStep c).trace = s.trace ∨ (∃ o, (s.handlerStep c).trace = s.trace ++ [.cs o .deasserted]) ∨
      ∃ f x, (s.handlerStep c).trace = s.trace ++ [.cb f x] := by
  cases c with
  | c1 =>
    simp only [State.handlerStep, State.stepC1]
    split
    · exact .inr (.inl ⟨_, rfl⟩)
    · exact .inl rfl
  | c2 => exact .inl rfl
  | c3 => exact .inr (.inr ⟨_, _, rfl⟩)
  | c4 => exact .inl rfl

end

end Sys2Proof.Machine
end

section
/-! PROOFS. The write-enable discipline (30_encoding.md R92, 70_reset_and_hazards.md R268): each atomic piece of a step keeps the commands each device has received disciplined, because of where the frames stand in the step lists. -/

namespace Sys2Proof.Machine

/-! ## Reading the commands off the trace -/

theorem scanTrace_append (es l : List Event) : scanTrace (es ++ l) = l.foldl scanEvent (scanTrace es) := by
  simp [scanTrace]

theorem wireCmds_congr {es es' : List Event} (h : (scanTrace es').2 = (scanTrace es).2) (i : Nat) :
    wireCmds i es' = wireCmds i es := by simp [wireCmds, h]

/-- A command reaches the list of the instance whose chip select waits for it, and no other (R92). -/
theorem wireCmds_sent {es es' : List Event} {j : Nat} {op : Byte}
    (h : (scanTrace es').2 = (scanTrace es).2 ++ [(j, op)]) (i : Nat) :
    wireCmds i es' = wireCmds i es ++ if j = i then [op] else [] := by
  by_cases e : j = i <;> simp [wireCmds, h, e]

/-- A chip select that waits for its opcode takes the first byte exchanged. -/
theorem scanEvent_opcode {acc : Option Nat × List (Nat × Byte)} {i : Nat} (h : acc.1 = some i)
    (op : Byte) (bs rx : List Byte) :
    scanEvent acc (.x (some (op :: bs)) rx) = (none, acc.2 ++ [(i, op)]) := by
  simp [scanEvent, h]

/-- With no chip select waiting, the bytes exchanged are no command. -/
theorem scanEvent_data {acc : Option Nat × List (Nat × Byte)} (h : acc.1 = none)
    (tx rx : List Byte) : scanEvent acc (.x (some tx) rx) = acc := by
  cases tx <;> simp [scanEvent, h]

/-- One more command keeps the discipline unless it programs or erases without the two before it. -/
theorem disciplined_append {l : List Byte} {op : Byte} (h : disciplined l)
    (hop : isArrayWrite op = true → ∃ l', l = l' ++ [Config.opRDSR, Config.opWREN]) :
    disciplined (l ++ [op]) := by
  intro k b hk hb
  rcases Nat.lt_trichotomy k l.length with lt | rfl | gt
  · rw [List.getElem?_append_left lt] at hk
    obtain ⟨two, wren, rdsr⟩ := h k b hk hb
    exact ⟨two, by rwa [List.getElem?_append_left (by omega)],
      by rwa [List.getElem?_append_left (by omega)]⟩
  · simp only [List.getElem?_concat_length, Option.some.injEq] at hk
    subst hk
    obtain ⟨l', rfl⟩ := hop hb
    simp
  · rw [List.getElem?_eq_none (by rw [List.length_append]; exact gt)] at hk
    cases hk

/-! ## Where the frames stand (R268) -/

/-- A frame that programs or erases. -/
def Cmd.writes (c : Cmd) : Prop := c = .pp ∨ c = .se ∨ c = .be ∨ c = .ce

/-- The opcode of a frame (R81). -/
def Cmd.opcode : Cmd → Byte
  | .jedecid => Config.opJEDECID
  | .rdsr => Config.opRDSR
  | .wrsr => Config.opWRSR
  | .wren => Config.opWREN
  | .read => Config.opREAD
  | .pp => Config.opPP
  | .se => Config.opSE
  | .be => Config.opBE
  | .ce => Config.opCE

/-- A frame's first byte is its opcode (R83). -/
theorem State.sent_loadFrame (s : State) (c : Cmd) :
    ∃ bs, c.sent (s.loadFrame c) = c.opcode :: bs := by
  cases c <;> exact ⟨_, rfl⟩

theorem Cmd.writes_of_isArrayWrite {c : Cmd} (h : isArrayWrite c.opcode = true) : c.writes := by
  revert h
  cases c <;> simp [Cmd.writes, Cmd.opcode] <;> decide

/-- From step `k` on, the next frame is one that nothing is asked before: no program or erase, and no `WREN` but that of `writeEnable`. -/
def freeAt (op : HostOp) (k : Nat) : Bool :=
  match nextSend op k with
  | none => true
  | some .wren => decide (op = .writeEnable)
  | some .pp => false
  | some .se => false
  | some .be => false
  | some .ce => false
  | some _ => true

/-- The step at a position sends a frame. -/
def sendsAt (op : HostOp) (k : Nat) : Bool :=
  match microAt op k with
  | some (.send _) => true
  | _ => false

/-- The step at a position sends the bytes of a data phase. -/
def dataAt (op : HostOp) (k : Nat) : Bool := decide (microAt op k = some .dataOut)

/-- The step at a position sends nothing. -/
def silentAt (op : HostOp) (k : Nat) : Bool := !sendsAt op k && !dataAt op k

/-- What may follow the frame of `c`: after an `RDSR` the `WREN` of a write or erase, after that `WREN` its own frame, and otherwise nothing that asks for commands before it. -/
def sendPlaced (op : HostOp) (k : Nat) (c : Cmd) : Bool :=
  match c with
  | .rdsr => freeAt op (k + 1) || decide (nextSend op (k + 1) = some .wren)
  | .wren => freeAt op (k + 1) || decide (op ≠ .writeEnable ∧ nextSend op (k + 1) ≠ some .wren)
  | _ => freeAt op (k + 1)

/-- The steps after step `k` of an operation keep the order of its frames. -/
def orderPlaced (op : HostOp) (k : Nat) (m : Micro) : Bool :=
  match m with
  | .ret => true
  | .advance => silentAt op 0 && freeAt op 0
  | .poll => silentAt op (k - pollBack) && freeAt op (k - pollBack) && silentAt op (k + 1)
  | .chunk exit => silentAt op exit && freeAt op exit && silentAt op (k + 1)
  | .select => !dataAt op (k + 1)
  | .send c => !sendsAt op (k + 1) && sendPlaced op k c
  | _ => silentAt op (k + 1)

theorem orderPlaced_of_microAt {op : HostOp} {k : Nat} {m : Micro} (h : microAt op k = some m) :
    orderPlaced op k m = true := by
  have table : ∀ p ∈ (program op).zipIdx, orderPlaced op p.2 p.1 = true := by cases op <;> decide
  exact table _ (mem_zipIdx_of_microAt h)

/-- Every operation starts with a step that sends nothing, and asks for no command before it. -/
theorem start_free (op : HostOp) : silentAt op 0 = true ∧ freeAt op 0 = true := by
  cases op <;> decide

section
variable {s t : State} {op : HostOp} {k : Nat} {m : Micro}

/-- The next frame from a step that sends none is the next frame from the step after it. -/
theorem nextSend_succ (hm : microAt op k = some m) (hs : ∀ c, m ≠ .send c) :
    nextSend op (k + 1) = nextSend op k := by
  have split : (program op).drop k = m :: (program op).drop (k + 1) :=
    List.drop_eq_getElem?_toList_append.trans (by rw [show (program op)[k]? = some m from hm]; rfl)
  unfold nextSend
  rw [split, List.findSome?_cons]
  cases m with
  | send c => exact absurd rfl (hs c)
  | _ => rfl

theorem nextSend_send {c : Cmd} (hm : microAt op k = some (.send c)) : nextSend op k = some c := by
  have split : (program op).drop k = .send c :: (program op).drop (k + 1) :=
    List.drop_eq_getElem?_toList_append.trans
      (by rw [show (program op)[k]? = some (.send c) from hm]; rfl)
  unfold nextSend
  rw [split, List.findSome?_cons]

/-! ## The discipline of a running operation -/

/-- What the discipline asks of an operation at step `k` (R268). -/
structure State.Ordered (op : HostOp) (k : Nat) (s : State) : Prop where
  awaiting : sendsAt op k = true → (scanTrace s.trace).1 = some s.cur
  dataPhase : dataAt op k = true → (scanTrace s.trace).1 = none
  beforeWrite : ∀ c, nextSend op k = some c → c.writes →
    ∃ l, wireCmds s.cur s.trace = l ++ [Config.opRDSR, Config.opWREN]
  beforeWren : op ≠ .writeEnable → nextSend op k = some .wren →
    ∃ l, wireCmds s.cur s.trace = l ++ [Config.opRDSR]

theorem sendsAt_iff : sendsAt op k = true ↔ ∃ c, microAt op k = some (.send c) := by
  unfold sendsAt
  split
  · next c e => simp [e]
  · next h => simpa using fun c e => h c e

/-- The discipline is that of the commands so far and of the running operation's position. -/
theorem State.disciplined_iff : s.Disciplined ↔
    (∀ i, disciplined (wireCmds i s.trace)) ∧ ∀ op k, s.phase = .busy op k → s.Ordered op k := by
  constructor
  · intro h
    refine ⟨h.kept, fun op k hp => ⟨fun hs => ?_, fun hd => ?_,
      fun c => h.beforeWrite op k c hp, h.beforeWren op k hp⟩⟩
    · obtain ⟨c, hc⟩ := sendsAt_iff.1 hs
      exact h.awaiting c ((State.nextMicro_busy hp).trans hc)
    · exact h.dataPhase ((State.nextMicro_busy hp).trans (of_decide_eq_true hd))
  · rintro ⟨kept, ordered⟩
    have busy {m : Micro} (hm : s.nextMicro = some m) :
        ∃ op k, s.phase = .busy op k ∧ microAt op k = some m := by
      cases hp : s.phase with
      | idle => simp [State.nextMicro, hp] at hm
      | busy op k => exact ⟨op, k, rfl, by simpa [State.nextMicro, hp] using hm⟩
    refine ⟨kept, fun c hc => ?_, fun hd => ?_, fun op k c hp => (ordered op k hp).beforeWrite c,
      fun op k hp => (ordered op k hp).beforeWren⟩
    · obtain ⟨op, k, hp, hm⟩ := busy hc
      exact (ordered op k hp).awaiting (sendsAt_iff.2 ⟨c, hm⟩)
    · obtain ⟨op, k, hp, hm⟩ := busy hd
      exact (ordered op k hp).dataPhase (decide_eq_true hm)

/-- Nothing is asked before a step that sends nothing when no frame asks for commands before it. -/
theorem State.ordered_of_free (hs : silentAt op k = true) (hf : freeAt op k = true) :
    s.Ordered op k := by
  simp only [silentAt, Bool.and_eq_true, Bool.not_eq_true'] at hs
  refine ⟨by simp [hs.1], by simp [hs.2], fun c hc hw => ?_, fun hop hc => ?_⟩
  · unfold freeAt at hf
    rw [hc] at hf
    rcases hw with rfl | rfl | rfl | rfl <;> cases hf
  · unfold freeAt at hf
    rw [hc] at hf
    exact absurd (of_decide_eq_true hf) hop

/-- An operation that goes on to a step that sends nothing, no command sent meanwhile, has the same frame next. -/
theorem State.Ordered.next (h : s.Ordered op k) (hm : microAt op k = some m)
    (hs : ∀ c, m ≠ .send c) (ht : silentAt op (k + 1) = true) (hc : t.cur = s.cur)
    (hw : (scanTrace t.trace).2 = (scanTrace s.trace).2) : t.Ordered op (k + 1) := by
  simp only [silentAt, Bool.and_eq_true, Bool.not_eq_true'] at ht
  have cmds := wireCmds_congr hw
  refine ⟨by simp [ht.1], by simp [ht.2], ?_, ?_⟩
  · rw [nextSend_succ hm hs, hc, cmds]; exact h.beforeWrite
  · rw [nextSend_succ hm hs, hc, cmds]; exact h.beforeWren

/-- Only the frames of commands and the bytes of a data phase can be read as a command (R92). -/
theorem Micro.Emits.scan {l : List Event} (h : m.Emits op s l) (hs : ∀ c, m ≠ .send c)
    {acc : Option Nat × List (Nat × Byte)} (hd : m = .dataOut → acc.1 = none) :
    (l.foldl scanEvent acc).2 = acc.2 := by
  cases m with
  | send c => exact absurd rfl (hs c)
  | dataOut =>
    obtain ⟨tx, rx, rfl⟩ := h
    rw [List.foldl_cons, scanEvent_data (hd rfl)]
    rfl
  | configure => rcases h with rfl | rfl <;> rfl
  | settle => rcases h with rfl | rfl <;> rfl
  | configureOnce => rcases h with rfl | rfl <;> rfl
  | poll => rcases h with rfl | rfl <;> rfl
  | dataIn => obtain ⟨rx, rfl⟩ := h; rfl
  | submitIn => obtain ⟨rxp, n, rfl⟩ := h; rfl
  | submitOut => obtain ⟨tx, n, rfl⟩ := h; rfl
  | ret => obtain ⟨v, rfl⟩ := h; rfl
  | select => cases h; rfl
  | deselect => cases h; rfl
  | delay => cases h; rfl
  | park => cases h; rfl
  | setBegun => cases h; rfl
  | chunk exit => cases h; rfl
  | advance => cases h; rfl

theorem State.opStep_cur : (opStep op k m s).cur = s.cur := by
  cases m with
  | poll => simp only [opStep]; split <;> simp
  | chunk e => simp only [opStep]; split <;> simp
  | configure => simp only [opStep, State.micro]; split <;> simp
  | settle => simp only [opStep, State.micro]; split <;> simp
  | configureOnce => simp only [opStep, State.micro]; split <;> simp
  | _ => simp [opStep, State.micro]

/-- The frame of `c` is one more command of the instance whose transaction is open. -/
theorem State.Ordered.scan_send {c : Cmd} (h : s.Ordered op k) (hm : microAt op k = some (.send c)) :
    scanTrace (opStep op k (.send c) s).trace =
      (none, (scanTrace s.trace).2 ++ [(s.cur, c.opcode)]) := by
  obtain ⟨l, trace, rx, rfl⟩ := opStep_trace s op k (.send c)
  obtain ⟨bs, sent⟩ := s.sent_loadFrame c
  rw [trace, scanTrace_append, sent, List.foldl_cons,
    scanEvent_opcode (h.awaiting (sendsAt_iff.2 ⟨c, hm⟩))]
  rfl

/-- After its frame the operation is where the discipline goes on holding (R268). -/
theorem State.Ordered.sent {c : Cmd} (h : s.Ordered op k) (hm : microAt op k = some (.send c)) :
    (opStep op k (.send c) s).Ordered op (k + 1) := by
  have placed := orderPlaced_of_microAt hm
  have scan := h.scan_send hm
  have cmds := wireCmds_sent (congrArg Prod.snd scan) s.cur
  rw [if_pos rfl] at cmds
  simp only [orderPlaced, Bool.and_eq_true, Bool.not_eq_true'] at placed
  obtain ⟨notSend, placed⟩ := placed
  have free (hf : freeAt op (k + 1) = true) : (opStep op k (.send c) s).Ordered op (k + 1) := by
    unfold freeAt at hf
    refine ⟨by simp [notSend], fun _ => by rw [scan], fun d hd hw => ?_, fun hop hd => ?_⟩
    · rw [hd] at hf
      rcases hw with rfl | rfl | rfl | rfl <;> cases hf
    · rw [hd] at hf
      exact absurd (of_decide_eq_true hf) hop
  cases c with
  | rdsr =>
    rcases Bool.or_eq_true _ _ ▸ placed with hf | wren
    · exact free hf
    · refine ⟨by simp [notSend], fun _ => by rw [scan], fun d hd hw => ?_, fun _ _ => ?_⟩
      · cases hd.symm.trans (of_decide_eq_true wren)
        rcases hw with hw | hw | hw | hw <;> cases hw
      · exact ⟨_, by rw [State.opStep_cur, cmds]; rfl⟩
  | wren =>
    rcases Bool.or_eq_true _ _ ▸ placed with hf | write
    · exact free hf
    · obtain ⟨hop, hne⟩ := of_decide_eq_true write
      obtain ⟨l, hl⟩ := h.beforeWren hop (nextSend_send hm)
      refine ⟨by simp [notSend], fun _ => by rw [scan], fun d hd hw => ⟨l, ?_⟩,
        fun _ hd => absurd hd hne⟩
      rw [State.opStep_cur, cmds, hl]
      simp [Cmd.opcode]
  | _ => exact free placed

/-- The discipline is kept by every atomic step of an operation. -/
theorem State.Disciplined.opStep (h : s.Disciplined) (hp : s.phase = .busy op k)
    (hm : microAt op k = some m) : (opStep op k m s).Disciplined := by
  obtain ⟨kept, ordered⟩ := State.disciplined_iff.1 h
  replace ordered := ordered op k hp
  have placed := orderPlaced_of_microAt hm
  rw [State.disciplined_iff]
  by_cases hs : ∃ c, m = .send c
  · obtain ⟨c, rfl⟩ := hs
    refine ⟨fun i => ?_, fun op' k' e => ?_⟩
    · rw [wireCmds_sent (congrArg Prod.snd (ordered.scan_send hm))]
      split
      · next e =>
        subst e
        exact disciplined_append (kept s.cur) fun hw =>
          ordered.beforeWrite c (nextSend_send hm) (Cmd.writes_of_isArrayWrite hw)
      · rw [List.append_nil]; exact kept i
    · cases e
      exact ordered.sent hm
  · have hs : ∀ c, m ≠ .send c := fun c e => hs ⟨c, e⟩
    obtain ⟨l, trace, emits⟩ := opStep_trace s op k m
    have scan : (scanTrace (Machine.opStep op k m s).trace).2 = (scanTrace s.trace).2 := by
      rw [trace, scanTrace_append]
      exact emits.scan hs fun hd => ordered.dataPhase (decide_eq_true (hm.trans (congrArg some hd)))
    refine ⟨fun i => by rw [wireCmds_congr scan]; exact kept i, fun op' k' e => ?_⟩
    have next (ht : silentAt op (k + 1) = true) : (Machine.opStep op k m s).Ordered op (k + 1) :=
      ordered.next hm hs ht State.opStep_cur scan
    cases m with
    | send c => exact absurd rfl (hs c)
    | ret => cases e
    | advance =>
      cases e
      simp only [orderPlaced, Bool.and_eq_true] at placed
      exact State.ordered_of_free placed.1 placed.2
    | poll =>
      simp only [orderPlaced, Bool.and_eq_true] at placed
      obtain ⟨⟨silent, free⟩, forward⟩ := placed
      by_cases hw : wip s.st = true
      · simp only [Machine.opStep, if_pos hw] at e
        cases e
        exact State.ordered_of_free silent free
      · have e' : (s.goto op (k + 1)).phase = .busy op' k' := by
          simpa only [Machine.opStep, if_neg hw] using e
        cases e'
        exact next forward
    | chunk exit =>
      simp only [orderPlaced, Bool.and_eq_true] at placed
      obtain ⟨⟨silent, free⟩, forward⟩ := placed
      by_cases hr : s.rem = 0
      · simp only [Machine.opStep, if_pos hr] at e
        cases e
        exact State.ordered_of_free silent free
      · have e' : ({ s with cnt := chunkLen s.addr s.rem }.goto op (k + 1)).phase = .busy op' k' := by
          simpa only [Machine.opStep, if_neg hr] using e
        cases e'
        exact next forward
    | select =>
      cases e
      have noData : dataAt op (k + 1) = false := by simpa [orderPlaced] using placed
      have awaits : (scanTrace (Machine.opStep op k .select s).trace).1 = some s.cur := by
        cases emits
        rw [trace, scanTrace_append]
        rfl
      have same := nextSend_succ hm hs
      have cmds := wireCmds_congr scan
      refine ⟨fun _ => awaits, by simp [noData], ?_, ?_⟩
      · rw [same, State.opStep_cur, cmds]; exact ordered.beforeWrite
      · rw [same, State.opStep_cur, cmds]; exact ordered.beforeWren
    | configure => cases e; exact next placed
    | settle => cases e; exact next placed
    | dataIn => cases e; exact next placed
    | dataOut => cases e; exact next placed
    | submitIn => cases e; exact next placed
    | submitOut => cases e; exact next placed
    | deselect => cases e; exact next placed
    | delay => cases e; exact next placed
    | park => cases e; exact next placed
    | configureOnce => cases e; exact next placed
    | setBegun => cases e; exact next placed

/-! ## The other pieces of a step -/

/-- A piece of a step that sends no command and moves no operation keeps the discipline; it may end a chip select's wait only where no frame is about to be sent. -/
theorem State.Disciplined.congr (h : s.Disciplined) {l : List Event} (hc : t.cur = s.cur)
    (hp : t.phase = s.phase) (ht : t.trace = s.trace ++ l)
    (h2 : ∀ acc, (l.foldl scanEvent acc).2 = acc.2)
    (h1 : (∀ acc, (l.foldl scanEvent acc).1 = acc.1) ∨ s.nextMicro = none ∨ s.nextMicro = some .ret) :
    t.Disciplined := by
  have scan2 : (scanTrace t.trace).2 = (scanTrace s.trace).2 := by rw [ht, scanTrace_append, h2]
  have cmds := wireCmds_congr scan2
  have next : t.nextMicro = s.nextMicro := by simp [State.nextMicro, hp]
  have scan1 {m : Micro} (hm : t.nextMicro = some m) (hr : m ≠ .ret) :
      (scanTrace t.trace).1 = (scanTrace s.trace).1 := by
    rw [next] at hm
    rcases h1 with same | none | ret
    · rw [ht, scanTrace_append, same]
    · rw [none] at hm; cases hm
    · rw [ret] at hm; exact absurd (Option.some.inj hm).symm hr
  refine ⟨fun i => ?_, fun c hm => ?_, fun hm => ?_, fun op k c e => ?_, fun op k e => ?_⟩
  · rw [cmds]; exact h.kept i
  · rw [scan1 hm nofun, hc]; exact h.awaiting c (next ▸ hm)
  · rw [scan1 hm nofun]; exact h.dataPhase (next ▸ hm)
  · rw [hc, cmds]; exact h.beforeWrite op k c (hp ▸ e)
  · rw [hc, cmds]; exact h.beforeWren op k (hp ▸ e)

theorem State.Disciplined.envMove (h : s.Disciplined) (e : EnvMove) : (s.envMove e).Disciplined := by
  have same (l : List Event) (ht : (s.envMove e).trace = s.trace ++ l)
      (hl : ∀ acc, l.foldl scanEvent acc = acc) : (s.envMove e).Disciplined :=
    h.congr (by simp) (by simp) ht (fun acc => by rw [hl]) (.inl fun acc => by rw [hl])
  cases e with
  | finish i =>
    rcases s.finish_trace_cases i with eq | eq
    · exact same [] (by simp [State.envMove, eq]) fun _ => rfl
    · exact same _ eq fun _ => rfl
  | perform =>
    rcases s.perform_trace_cases with eq | ⟨tx, rx, eq⟩
    · exact same [] (by simp [State.envMove, eq]) fun _ => rfl
    · exact same _ eq fun _ => rfl
  | _ => exact same [] (by simp [State.envMove]) fun _ => rfl

/-- The handler's steps send no command, and no frame is about to be sent while it runs (R231). -/
theorem State.Disciplined.handlerStep (h : s.Disciplined) (hi : s.Inv) {c : HandlerStep}
    (hc : s.handler = some c) : (s.handlerStep c).Disciplined := by
  have waiting := hi.nextMicro_of_handler (.inr (by simp [hc]))
  have cur : (s.handlerStep c).cur = s.cur := by cases c <;> simp [State.handlerStep]
  have phase : (s.handlerStep c).phase = s.phase := by cases c <;> simp [State.handlerStep]
  rcases s.handlerStep_trace c with eq | ⟨o, eq⟩ | ⟨f, x, eq⟩
  · exact h.congr (l := []) cur phase (by simp [eq]) (fun _ => rfl) (.inr waiting)
  · exact h.congr cur phase eq (fun _ => rfl) (.inr waiting)
  · exact h.congr cur phase eq (fun _ => rfl) (.inr waiting)

theorem State.Disciplined.accept (h : s.Disciplined) (r : Request) : (s.accept r).Disciplined := by
  rw [State.disciplined_iff, State.accept_trace]
  refine ⟨h.kept, fun op k hp => ?_⟩
  cases (State.accept_phase s r).symm.trans hp
  exact State.ordered_of_free (start_free r.op).1 (start_free r.op).2

/-- With no operation running the discipline is that of the commands so far. -/
theorem State.disciplined_of_idle (hp : s.phase = .idle)
    (h : ∀ i, disciplined (wireCmds i s.trace)) : s.Disciplined :=
  State.disciplined_iff.2 ⟨h, fun op k e => by rw [hp] at e; cases e⟩

end

/-- The discipline, with the invariant, is kept by every atomic piece of a step. -/
theorem State.disciplined_kept : State.Kept fun s => s.Inv ∧ s.Disciplined where
  inputs s l h := ⟨State.inv_kept.inputs s l h.1,
    h.2.congr (l := []) rfl rfl (by simp) (fun _ => rfl) (.inl fun _ => rfl)⟩
  env _ e h := ⟨h.1.envMove, h.2.envMove e⟩
  op _ _ _ _ h _ hp hm := ⟨h.1.opStep hp hm, h.2.opStep hp hm⟩
  handler _ _ h hc := ⟨h.1.handlerStep hc, h.2.handlerStep h.1 hc⟩
  take _ h enabled := ⟨h.1.takeCompletion enabled,
    h.2.congr (l := []) rfl rfl (by simp) (fun _ => rfl) (.inl fun _ => rfl)⟩
  accept _ r h hh hp hr := ⟨h.1.accepted hh hp hr, h.2.accept r⟩
  wire _ _ _ _ h ht := by
    refine ⟨h.1.wire ht, ?_⟩
    obtain ⟨rx, rfl⟩ := State.wireTransaction_next_inv ht
    exact h.2.congr rfl rfl rfl (fun _ => rfl) (.inl fun _ => rfl)
  ram s p bytes h := ⟨State.inv_kept.ram s p bytes h.1,
    h.2.congr (l := []) rfl rfl (by simp) (fun _ => rfl) (.inl fun _ => rfl)⟩
  reset s h := ⟨h.1.reset, State.disciplined_of_idle rfl fun i => by
    have trace : s.resetNow.trace = s.trace ++ [.reset] := rfl
    rw [trace, wireCmds_congr (es := s.trace) (by rw [scanTrace_append]; rfl)]
    exact h.2.kept i⟩

/-- Settles O58: every atomic piece of a step keeps the discipline together with the invariant. -/
theorem disciplineKept : Obligations.DisciplineKept := fun s t hi h e =>
  (State.disciplined_kept.step s t ⟨hi, h⟩ e).2

/-- Settles O57: no command has been sent and no operation runs. -/
theorem disciplineAtReset : Obligations.DisciplineAtReset := fun _ _ _ _ =>
  State.disciplined_of_idle rfl fun _ _ _ h => nomatch h

end Sys2Proof.Machine
end

section
/-! PROOFS. What a step can change (10_state.md R23, R33, 47_wire_commands.md R195, R196): the trace only grows, configurations and device parameters stay, and an array changes only with its device's `FIN`. And the chunk of a range operation stays inside its page (44_range_chunking.md R158). -/

namespace Sys2Proof.Machine

/-! ## What a device is made of -/

/-- What no step changes of a device (R33). -/
def Device.params (d : Device) : Bool × Ident × ProgramMerge × AddrMap × Option Nat :=
  (d.present, d.ident, d.merge, d.addrMap, d.protection)

/-- An operation of a device that changes neither its parameters nor its array. -/
structure Device.KeepsArray (f : Device → Device) : Prop where
  params : ∀ d, (f d).params = d.params
  mem : ∀ d, (f d).mem = d.mem

theorem Device.act_params_mem (d : Device) (w : Wire) :
    (d.act w).params = d.params ∧ (d.act w).mem = d.mem := by
  rcases d.act_cases w with e | ⟨-, -, e⟩ | ⟨j, -, -, -, e⟩ <;> rw [e] <;> exact ⟨rfl, rfl⟩

/-- A deassertion may start a job, and touches neither the array nor the parameters (R196). -/
theorem Device.commit_params_mem (d : Device) :
    d.commit.params = d.params ∧ d.commit.mem = d.mem := by
  unfold Device.commit
  split
  · split
    · exact d.act_params_mem _
    · exact ⟨rfl, rfl⟩
  · exact ⟨rfl, rfl⟩

theorem Device.keepsArray_select : Device.KeepsArray Device.select := ⟨fun _ => rfl, fun _ => rfl⟩

theorem Device.keepsArray_receive (tx : List Byte) : Device.KeepsArray fun d => d.receive tx :=
  ⟨fun _ => rfl, fun _ => rfl⟩

theorem Device.keepsArray_commit : Device.KeepsArray Device.commit :=
  ⟨fun d => d.commit_params_mem.1, fun d => d.commit_params_mem.2⟩

theorem Device.keepsArray_afterTransaction (mosi : List Byte) :
    Device.KeepsArray fun d => d.afterTransaction mosi :=
  ⟨fun d => (d.select.receive mosi).commit_params_mem.1,
    fun d => (d.select.receive mosi).commit_params_mem.2⟩

theorem Device.finish_params (d : Device) (k : Nat) : (d.finish k).params = d.params := by
  unfold Device.finish
  split
  · rfl
  · next j _ => cases j <;> rfl

/-! ## The relation -/

/-- From `s` to `t` the trace has grown, no configuration and no device parameter has changed, and an array only with its device's `FIN` (R23, R33, R195). -/
structure State.Extends (s t : State) : Prop where
  insts : t.insts.map Inst.config = s.insts.map Inst.config
  params : t.devs.map Device.params = s.devs.map Device.params
  arrays : ∃ l, t.trace = s.trace ++ l ∧
    ∀ j, .fin j ∉ l → (t.devs[j]?).map (fun d => d.mem) = (s.devs[j]?).map fun d => d.mem

section
variable {s t u : State}

theorem State.Extends.trans (h : s.Extends t) (h' : t.Extends u) : s.Extends u := by
  obtain ⟨l, trace, arrays⟩ := h.arrays
  obtain ⟨l', trace', arrays'⟩ := h'.arrays
  refine ⟨h'.insts.trans h.insts, h'.params.trans h.params, l ++ l', by simp [trace', trace],
    fun j hj => ?_⟩
  rw [List.mem_append, not_or] at hj
  exact (arrays' j hj.2).trans (arrays j hj.1)

/-- A piece that changes no device but by an operation that keeps its array extends. -/
theorem State.Extends.of_devs {l : List Event} (hi : t.insts.map Inst.config = s.insts.map Inst.config)
    (ht : t.trace = s.trace ++ l)
    (hd : t.devs = s.devs ∨ ∃ i f, Device.KeepsArray f ∧ t.devs = s.devs.modify i f) :
    s.Extends t := by
  rcases hd with e | ⟨i, f, keeps, e⟩
  · exact ⟨hi, by rw [e], l, ht, fun j _ => by rw [e]⟩
  · refine ⟨hi, by rw [e]; exact map_modify_of_eq keeps.params _ _, l, ht, fun j _ => ?_⟩
    have mems : t.devs.map (fun d => d.mem) = s.devs.map fun d => d.mem := by
      rw [e]; exact map_modify_of_eq keeps.mem _ _
    simpa using congrArg (fun l => l[j]?) mems

theorem State.Extends.refl (s : State) : s.Extends s := .of_devs (l := []) rfl (by simp) (.inl rfl)

/-- What an exchange does to the devices, as an operation that keeps arrays. -/
theorem State.exchanged_keepsArray (s : State) (tx : List Byte) :
    (s.exchanged tx).devs = s.devs ∨
      ∃ i f, Device.KeepsArray f ∧ (s.exchanged tx).devs = s.devs.modify i f :=
  (s.exchanged_devs_cases tx).imp_right fun ⟨i, e⟩ => ⟨i, _, Device.keepsArray_receive _, e⟩

theorem State.opStep_config (s : State) (op : HostOp) (k : Nat) (m : Micro) :
    (opStep op k m s).insts.map Inst.config = s.insts.map Inst.config := by
  cases m with
  | poll => simp only [opStep]; split <;> simp
  | chunk e => simp only [opStep]; split <;> simp
  | configure => simp only [opStep, State.micro]; split <;> simp
  | settle => simp only [opStep, State.micro]; split <;> simp
  | configureOnce => simp only [opStep, State.micro]; split <;> simp
  | select => exact (s.csAssert s.cur).setTxnOpen_config s.cur true
  | deselect => exact (s.csDeassert s.cur).setTxnOpen_config s.cur false
  | setBegun => exact s.setBegun_config s.cur
  | _ => simp [opStep, State.micro]

/-- An atomic step of an operation changes at most one device, and no array (R196). -/
theorem State.opStep_devs (s : State) (op : HostOp) (k : Nat) (m : Micro) :
    (opStep op k m s).devs = s.devs ∨
      ∃ i f, Device.KeepsArray f ∧ (opStep op k m s).devs = s.devs.modify i f := by
  cases m with
  | poll => left; simp only [opStep]; split <;> simp
  | chunk e => left; simp only [opStep]; split <;> simp
  | configure => left; simp only [opStep, State.micro]; split <;> simp
  | settle => left; simp only [opStep, State.micro]; split <;> simp
  | configureOnce => left; simp only [opStep, State.micro]; split <;> simp
  | select => exact .inr ⟨s.cur, _, Device.keepsArray_select, by simp [opStep, State.micro]⟩
  | deselect => exact .inr ⟨s.cur, _, Device.keepsArray_commit, by simp [opStep, State.micro]⟩
  | park => exact .inr ⟨s.cur, _, Device.keepsArray_commit, by simp [opStep, State.micro]⟩
  | send c =>
    show (s.sendFrame c).devs = _ ∨ ∃ i f, _ ∧ (s.sendFrame c).devs = _
    rw [State.sendFrame_devs]
    exact State.exchanged_keepsArray _ _
  | dataIn =>
    show s.receiveData.devs = _ ∨ ∃ i f, _ ∧ s.receiveData.devs = _
    rw [State.receiveData_devs]
    exact State.exchanged_keepsArray (s.drew s.cnt.toNat) _
  | dataOut =>
    show s.sendData.devs = _ ∨ ∃ i f, _ ∧ s.sendData.devs = _
    rw [State.sendData_devs]
    exact State.exchanged_keepsArray _ _
  | submitIn => exact .inl rfl
  | submitOut => exact .inl rfl
  | delay => exact .inl rfl
  | setBegun => exact .inl rfl
  | advance => exact .inl rfl
  | ret => exact .inl rfl

theorem State.extends_opStep (s : State) (op : HostOp) (k : Nat) (m : Micro) :
    s.Extends (opStep op k m s) := by
  obtain ⟨l, trace, -⟩ := opStep_trace s op k m
  exact .of_devs (s.opStep_config op k m) trace (s.opStep_devs op k m)

/-- A device that finishes changes its own array and says so (R195). -/
theorem State.extends_finish (s : State) (i : Nat) : s.Extends (s.finish i) := by
  unfold State.finish
  split
  · exact .refl s
  · split
    · exact .refl s
    · refine ⟨rfl, map_modify_of_eq (fun d => d.finish_params s.draws) _ _, [.fin i], rfl, fun j hj => ?_⟩
      have ne : i ≠ j := by rintro rfl; simp at hj
      simp [ne]

theorem State.extends_perform (s : State) : s.Extends s.perform := by
  have devs : s.perform.devs = s.devs ∨
      ∃ i f, Device.KeepsArray f ∧ s.perform.devs = s.devs.modify i f := by
    unfold State.perform
    split
    · exact .inl rfl
    · next x _ =>
      split
      · exact .inl rfl
      · simpa using State.exchanged_keepsArray (s.drew x.n) (s.engineTx x)
  rcases s.perform_trace_cases with e | ⟨tx, rx, e⟩
  · exact .of_devs (l := []) (by simp) (by simp [e]) devs
  · exact .of_devs (by simp) e devs

theorem State.extends_envMove (s : State) (e : EnvMove) : s.Extends (s.envMove e) := by
  cases e with
  | finish i => exact s.extends_finish i
  | perform => exact s.extends_perform
  | _ =>
    show s.Extends s.foreignMove
    exact .of_devs (l := []) (by simp) (by simp) (.inl (by simp))

theorem State.extends_handlerStep (s : State) (c : HandlerStep) : s.Extends (s.handlerStep c) := by
  cases c with
  | c1 =>
    simp only [State.handlerStep, State.stepC1]
    split
    · next o _ =>
      exact .of_devs ((s.csDeassert o).setTxnOpen_config o false) rfl
        (.inr ⟨o, _, Device.keepsArray_commit, rfl⟩)
    · exact .of_devs (l := []) rfl (by simp) (.inl rfl)
  | c2 => exact .of_devs (l := []) rfl (by simp [State.handlerStep]) (.inl rfl)
  | c3 => exact .of_devs rfl rfl (.inl rfl)
  | c4 => exact .of_devs (l := []) rfl (by simp [State.handlerStep]) (.inl rfl)

theorem State.extends_resetNow (s : State) : s.Extends s.resetNow :=
  .of_devs (resetWith_config s.insts s.devs s.ram) rfl (.inl rfl)

end

/-- Every atomic piece of a step extends what came before. -/
theorem State.extends_kept (s₀ : State) : State.Kept (State.Extends s₀) where
  inputs _ _ h := h.trans (.of_devs (l := []) rfl (by simp) (.inl rfl))
  env s e h := h.trans (s.extends_envMove e)
  op s op k m h _ _ _ := h.trans (s.extends_opStep op k m)
  handler s c h _ := h.trans (s.extends_handlerStep c)
  take _ h _ := h.trans (.of_devs (l := []) rfl (by simp) (.inl rfl))
  accept _ _ h _ _ _ := h.trans (.of_devs (l := []) (by simp) (by simp) (.inl (by simp)))
  wire s i mosi t h ht := by
    obtain ⟨rx, rfl⟩ := State.wireTransaction_next_inv ht
    exact h.trans (.of_devs rfl rfl (.inr ⟨i, _, Device.keepsArray_afterTransaction mosi, rfl⟩))
  ram _ _ _ h := h.trans (.of_devs (l := []) rfl (by simp) (.inl rfl))
  reset s h := h.trans s.extends_resetNow

/-- Settles O59: every atomic piece extends the trace and changes an array only with the device's `FIN`. -/
theorem arrayChangesOnlyAtFinish : Obligations.ArrayChangesOnlyAtFinish := by
  intro s t e
  obtain ⟨insts, params, arrays⟩ := (State.extends_kept s).step s t (.refl s) e
  exact ⟨insts, params, arrays⟩

/-! ## Chunks (R158, R160) -/

theorem chunkLen_toNat (a : Addr) (rem : Len) :
    (chunkLen a rem).toNat = min rem.toNat (256 - a.toNat % 256) := by
  have small : min rem.toNat (256 - a.toNat % 256) < 2 ^ 32 := by have := rem.isLt; omega
  rw [chunkLen, BitVec.toNat_ofNat]
  exact Nat.mod_eq_of_lt small

/-- Settles O39: the chunk is the rest of the range or the rest of the page, whichever is shorter. -/
theorem chunkArithmetic : Obligations.ChunkArithmetic := by
  intro a rem hr
  have pos : rem.toNat ≠ 0 := fun e => hr (BitVec.eq_of_toNat_eq e)
  rw [BitVec.toNat_add, chunkLen_toNat]
  refine ⟨?_, ?_, ?_, ?_, ?_⟩ <;> omega

/-- Step 0 of a range operation is its chunk step. -/
theorem microAt_range_zero {op : HostOp} (h : isRange op = true) :
    ∃ exit, microAt op 0 = some (.chunk exit) ∧ microAt op exit = some .ret := by
  cases op <;> cases h
  · exact ⟨8, rfl, rfl⟩
  · exact ⟨26, rfl, rfl⟩

/-- A range operation has its chunk step at its start only. -/
theorem chunk_at_zero {op : HostOp} {k exit : Nat} (h : microAt op k = some (.chunk exit)) : k = 0 := by
  have table : ∀ p ∈ (program op).zipIdx, (match p.1 with | .chunk _ => decide (p.2 = 0) | _ => true) = true := by
    cases op <;> decide
  exact of_decide_eq_true (table _ (mem_zipIdx_of_microAt h))

section
variable {s t : State}

/-- The bounds of the chunk in hand (R158). -/
def State.chunkBounds (s : State) : Prop :=
  1 ≤ s.cnt.toNat ∧ s.cnt.toNat ≤ 256 ∧ s.cnt.toNat ≤ s.rem.toNat ∧
    pageOffset s.addr.toNat + s.cnt.toNat ≤ 256

theorem State.chunkInv.congr (h : s.chunkInv) (hp : t.phase = s.phase) (hc : t.cnt = s.cnt)
    (hr : t.rem = s.rem) (ha : t.addr = s.addr) : t.chunkInv := by
  unfold State.chunkInv at h ⊢
  rwa [show t.nextMicro = s.nextMicro by simp [State.nextMicro, hp], hp, hc, hr, ha]

/-- A state at a step of an operation meets the chunk invariant when that step needs no chunk or the chunk is in bounds. -/
theorem State.chunkInv_of {op : HostOp} {k : Nat} (hp : t.phase = .busy op k)
    (h : isRange op = true → k ≠ 0 → microAt op k ≠ some .ret → t.chunkBounds) : t.chunkInv := by
  intro op' k' e hr hk hm
  cases hp.symm.trans e
  exact h hr hk (by rwa [State.nextMicro_busy hp] at hm)

theorem State.chunkInv_of_idle (hp : t.phase = .idle) : t.chunkInv :=
  fun _ _ e => by rw [hp] at e; cases e

/-- Step r1 takes a chunk, and every other step of the loop keeps the one in hand (R156, R157). -/
theorem State.chunkInv.opStep {op : HostOp} {k : Nat} {m : Micro} (h : s.chunkInv)
    (hp : s.phase = .busy op k) (hm : microAt op k = some m) : (opStep op k m s).chunkInv := by
  have bounds (hr : isRange op = true) (hn : m ≠ .ret) (hk : ∀ e, m ≠ .chunk e) : s.chunkBounds := by
    refine h op k hp hr ?_ (by rw [State.nextMicro_busy hp, hm]; exact fun e => hn (Option.some.inj e))
    rintro rfl
    obtain ⟨exit, start, -⟩ := microAt_range_zero hr
    exact hk exit (Option.some.inj (hm.symm.trans start))
  have goes_on {k' : Nat} {u : State} (hu : u.phase = .busy op k') (hc : u.cnt = s.cnt)
      (hrem : u.rem = s.rem) (ha : u.addr = s.addr) (hn : m ≠ .ret) (hk : ∀ e, m ≠ .chunk e) :
      u.chunkInv := by
    refine State.chunkInv_of hu fun hr _ _ => ?_
    unfold State.chunkBounds
    rw [hc, hrem, ha]
    exact bounds hr hn hk
  cases m with
  | ret => exact State.chunkInv_of_idle rfl
  | advance => exact State.chunkInv_of rfl fun _ h0 => absurd rfl h0
  | chunk exit =>
    simp only [Machine.opStep]
    split
    · refine State.chunkInv_of rfl fun hr _ hne => ?_
      obtain ⟨exit', start, ret⟩ := microAt_range_zero hr
      rw [chunk_at_zero hm] at hm
      cases start.symm.trans hm
      exact absurd ret hne
    · next hrem =>
      refine State.chunkInv_of rfl fun _ _ _ => ?_
      obtain ⟨lo, hi, le, page, -⟩ := chunkArithmetic s.addr s.rem hrem
      exact ⟨lo, hi, le, page⟩
  | poll =>
    simp only [Machine.opStep]
    split
    · exact goes_on rfl rfl rfl rfl nofun nofun
    · exact goes_on rfl rfl rfl rfl nofun nofun
  | configure =>
    refine goes_on rfl ?_ ?_ ?_ nofun nofun <;> simp only [Machine.opStep, State.micro] <;> split <;> simp
  | settle =>
    refine goes_on rfl ?_ ?_ ?_ nofun nofun <;> simp only [Machine.opStep, State.micro] <;> split <;> simp
  | configureOnce =>
    refine goes_on rfl ?_ ?_ ?_ nofun nofun <;> simp only [Machine.opStep, State.micro] <;> split <;> simp
  | _ => refine goes_on rfl ?_ ?_ ?_ nofun nofun <;> simp [Machine.opStep, State.micro]

end

theorem State.chunkInv_kept : State.Kept State.chunkInv where
  inputs _ _ h := h.congr rfl rfl rfl rfl
  env _ _ h := h.congr (by simp) (by simp) (by simp) (by simp)
  op _ _ _ _ h _ hp hm := h.opStep hp hm
  handler _ c h _ := by
    cases c <;> exact h.congr (by simp [State.handlerStep]) (by simp [State.handlerStep])
      (by simp [State.handlerStep]) (by simp [State.handlerStep])
  take _ h _ := h.congr rfl rfl rfl rfl
  accept s r _ _ _ _ := State.chunkInv_of (State.accept_phase s r) fun _ h0 => absurd rfl h0
  wire _ _ _ _ h ht := by
    obtain ⟨rx, rfl⟩ := State.wireTransaction_next_inv ht
    exact h.congr rfl rfl rfl rfl
  ram _ _ _ h := h.congr rfl rfl rfl rfl
  reset _ _ := State.chunkInv_of_idle rfl

/-- Settles O40: every atomic piece of a step keeps the chunk in hand, or takes a new one. -/
theorem chunkStaysInPage : Obligations.ChunkStaysInPage := fun s t h e =>
  State.chunkInv_kept.step s t h e

end Sys2Proof.Machine
end

section
/-! PROOFS. A step and the request port (10_state.md R36; log 12), acceptance and refusals (60_exceptions.md R222 to R227), and the arrival of a reset (R250, R251; log 31). -/

namespace Sys2Proof.Machine

section
variable {s : State} {i : Instr} {r : Request} {rest : List Input}

/-! ## Acceptance and refusal (R222 to R226) -/

theorem exec_refused (h : hostRequest i = some r) (hh : s.handler = none) (hp : s.phase = .idle)
    {why : Refusal} (hr : s.refusalOf r = some why) : exec i s = .refused why := by
  rw [exec_issue h, State.issue, if_neg (by simp [hh]), if_neg (by simp [hp]), hr]

/-- A request that no reason of R223 applies to is accepted, and the execution unit takes its turn. -/
theorem exec_proceeds (h : hostRequest i = some r) (hh : s.handler = none) (hp : s.phase = .idle)
    (hr : s.refusalOf r = none) : exec i s = .next (s.accept r).proceed := by
  rw [exec_issue h, State.issue, if_neg (by simp [hh]), if_neg (by simp [hp]), hr]

theorem State.refusalOf_badInstance (h : s.insts.length ≤ r.i) :
    s.refusalOf r = some .badInstance := if_pos h

theorem State.refusalOf_opWhilePending (hi : r.i < s.insts.length) (hs : s.slot.tag = .pending) :
    s.refusalOf r = some .opWhilePending := by
  rw [State.refusalOf, if_neg (Nat.not_le.2 hi), if_pos hs]

theorem State.refusalOf_notBegun (hi : r.i < s.insts.length) (hs : s.slot.tag = .idle)
    (hop : r.op ≠ .begin) (hb : (s.inst r.i).begun = false) : s.refusalOf r = some .notBegun := by
  rw [State.refusalOf, if_neg (Nat.not_le.2 hi), if_neg (by simp [hs]), if_pos ⟨hop, hb⟩]

section
variable (hi : r.i < s.insts.length) (hs : s.slot.tag = .idle) (hb : (s.inst r.i).begun = true)
include hi hs hb

theorem State.refusalOf_badLength (hpage : isPage r.op = true)
    (hlen : r.len = 0 ∨ 256 < r.len.toNat) : s.refusalOf r = some .badLength := by
  rw [State.refusalOf, if_neg (Nat.not_le.2 hi), if_neg (by simp [hs]), if_neg (by simp [hb]),
    if_pos ⟨hpage, hlen⟩]

theorem State.refusalOf_nullCallback (lo : 1 ≤ r.len.toNat) (hlen : r.len.toNat ≤ 256)
    (ha : isAsync r.op = true) (hcb : r.cb = none) : s.refusalOf r = some .nullCallback := by
  have fits : ¬(r.len = 0 ∨ 256 < r.len.toNat) := by
    rintro (e | e)
    · rw [e] at lo; exact absurd lo (by decide)
    · omega
  rw [State.refusalOf, if_neg (Nat.not_le.2 hi), if_neg (by simp [hs]), if_neg (by simp [hb]),
    if_neg (fun h => fits h.2), if_pos ⟨ha, hcb⟩]

end

end

/-- Settles O10: with PHASE busy the request goes back to the port, as the packet it came in. -/
theorem requestWaitsWhileBusy : Obligations.RequestWaitsWhileBusy := by
  intro i r s h hh hp
  rw [exec_issue h, State.issue, if_neg (by simp [hh]), if_pos hp, State.hold,
    encode_of_hostRequest h]

/-- Settles O11: in the handler the reason is InCallback; in caller context it is a missing instance or the Pending slot. -/
theorem refusedWhilePending : Obligations.RefusedWhilePending := by
  intro i r s h pending
  refine ⟨fun hh => exec_refused_inCallback h hh, fun hh hp => ?_⟩
  rcases Nat.lt_or_ge r.i s.insts.length with hi | hi
  · exact ⟨_, exec_refused h hh hp (State.refusalOf_opWhilePending hi pending), .inl rfl⟩
  · exact ⟨_, exec_refused h hh hp (State.refusalOf_badInstance hi), .inr ⟨rfl, hi⟩⟩

/-- Settles O12: the two reasons, the missing instance first. -/
theorem refusedBeforeBegin : Obligations.RefusedBeforeBegin := by
  intro i r s h hh hp
  refine ⟨fun hi => ?_, fun hop hb => ?_, fun hi hs hop hb => ?_⟩
  · exact exec_refused h hh hp (State.refusalOf_badInstance hi)
  · cases hr : s.refusalOf r with
    | some why => exact ⟨why, exec_refused h hh hp hr⟩
    | none =>
      obtain ⟨-, -, begun, -⟩ := State.refusalOf_eq_none_iff.1 hr
      rw [begun hop] at hb
      cases hb
  · exact exec_refused h hh hp (State.refusalOf_notBegun hi hs hop hb)

/-- Settles O14: the length is looked at first, then the callback. -/
theorem refusedPageOperands : Obligations.RefusedPageOperands := by
  intro i r s h hh hp hi hs hb hpage
  exact ⟨fun hlen => exec_refused h hh hp (State.refusalOf_badLength hi hs hb hpage hlen),
    fun lo hlen ha hcb => exec_refused h hh hp (State.refusalOf_nullCallback hi hs hb lo hlen ha hcb)⟩

/-- Settles O15: acceptance is that no reason of R223 holds. -/
theorem acceptedExactlyWhen : Obligations.AcceptedExactlyWhen := by
  intro i r s h hh hp
  rw [← State.refusalOf_eq_none_iff]
  refine ⟨fun ⟨t, ht⟩ => ?_, fun hr => ⟨_, exec_proceeds h hh hp hr⟩⟩
  cases hr : s.refusalOf r with
  | none => rfl
  | some why => rw [exec_refused h hh hp hr] at ht; cases ht

/-! ## The host's accesses to its memory (R53, R227; log 27) -/

/-- Two buffers share a byte when their addresses meet. -/
theorem overlaps_iff (p q : Ptr) (n m : Nat) :
    overlaps p n q m = true ↔ ∃ k j, k < n ∧ j < m ∧ ptrAt p k = ptrAt q j := by
  have meet (k : Nat) : (p + BitVec.ofNat 32 k - q).toNat < m ↔
      ∃ j < m, ptrAt p k = ptrAt q j := by
    constructor
    · intro h
      refine ⟨_, h, ?_⟩
      rw [ptrAt, ptrAt, BitVec.ofNat_toNat, BitVec.setWidth_eq, BitVec.add_comm q,
        BitVec.sub_add_cancel]
    · rintro ⟨j, hj, e⟩
      have e' : p + BitVec.ofNat 32 k = q + BitVec.ofNat 32 j := BitVec.eq_of_toNat_eq e
      rw [e', BitVec.add_comm q, BitVec.add_sub_cancel, BitVec.toNat_ofNat]
      exact Nat.lt_of_le_of_lt (Nat.mod_le _ _) hj
  simp only [overlaps, List.any_eq_true, List.mem_range, decide_eq_true_eq, meet]
  exact ⟨fun ⟨k, hk, j, hj, e⟩ => ⟨k, j, hk, hj, e⟩, fun ⟨k, j, hk, hj, e⟩ => ⟨k, hk, j, hj, e⟩⟩

/-- A host access races when it touches a byte of the exchange in flight (R53; log 27). -/
theorem State.races_iff (s : State) (p : Ptr) (n : Nat) : s.races p n = true ↔
    ∃ x q k j, s.eng = some x ∧ (x.tx = some q ∨ x.rxp = some q) ∧ k < n ∧ j < x.n ∧
      ptrAt p k = ptrAt q j := by
  unfold State.races
  cases s.eng with
  | none => simp
  | some x =>
    obtain ⟨tx, rxp, m, done⟩ := x
    cases tx with
    | none =>
      cases rxp with
      | none => simp
      | some q => simp [overlaps_iff]
    | some q =>
      cases rxp with
      | none => simp [overlaps_iff]
      | some q' => simp [overlaps_iff, or_and_right, exists_or]

/-- Settles O16: the access races exactly when it touches the buffer, and otherwise takes place. -/
theorem bufferRace : Obligations.BufferRace := by
  intro s p n bytes rest hgo touches
  have races (m : Nat) : State.races p m { s with inputs := rest } = true ↔ touches m :=
    State.races_iff _ p m
  refine ⟨fun hin => ?_, fun hin => ?_⟩
  · have read : step s = State.hostRead p n { s with inputs := rest } := by simp [step, hin, hgo]
    rw [read, State.hostRead, ← races]
    exact ⟨fun h => if_pos h, fun h => if_neg h⟩
  · have write : step s = State.hostWrite p bytes { s with inputs := rest } := by
      simp [step, hin, hgo]
    rw [write, State.hostWrite, ← races]
    exact ⟨fun h => if_pos h, fun h => if_neg h⟩

/-! ## Packets (log 1, 12, 18, 19) -/

/-- The bytes of a transaction that are no command reach the device, which lets go of them (U19; log 19). -/
theorem State.wireTransaction_unknown {s : State} {i : Nat} {mosi : List Byte} {e : DecodeError}
    {d : Device} (he : decodeFrame mosi = .error e) (hd : s.devs[i]? = some d)
    (hc : s.csAsserted = []) :
    ∃ rx n, s.wireTransaction i mosi = .next { s with
      devs := s.devs.set i d.released, draws := n, trace := s.trace ++ [.wire i mosi rx] } := by
  refine ⟨d.inTransaction s.draws mosi, s.draws + mosi.length, ?_⟩
  simp [State.wireTransaction, hd, hc, State.emit, State.modDev, modify_of_getElem? hd,
    Device.afterTransaction_unknown he]

/-- An opcode-table word that decodes is the packet the decoder takes for that instruction. -/
theorem decode_tablePacket {n w : Nat} {i : Instr} (h : decodeTableWord n w = some i) :
    decode (tablePacket n w) = .ok i := by
  unfold decodeTableWord at h
  cases hd : decode (tablePacket n w) with
  | ok j => rw [hd] at h; cases h; rfl
  | error e => rw [hd] at h; cases h

theorem tablePacket_ne_completion (n w : Nat) : tablePacket n w ≠ .completion := by
  unfold tablePacket
  split
  · split <;> nofun
  · split <;> nofun

/-- Settles O9: the packet waits, runs, is refused by name, or is bytes the device ignores; a table word's packet never waits. -/
theorem stepRunsTheDecodedInstruction : Obligations.StepRunsTheDecodedInstruction := by
  refine ⟨fun s p rest hin => ⟨fun hw => ?waits, fun hgo i hd => step_packet hin hgo hd,
    fun hgo e he => ⟨?refused, ?ignored⟩⟩, fun s n w i h => ?table⟩
  case waits => simp [step, hin, hw]
  case refused =>
    rintro bytes rfl
    simp [step, hin, hgo, State.arrive, he, State.arriveUnknown]
  case ignored =>
    rintro i mosi rfl
    have reached : step s = State.wireTransaction i mosi { s with inputs := rest } := by
      simp [step, hin, hgo, State.arrive, he, State.arriveUnknown]
    refine ⟨reached, fun d hd hc => ?_⟩
    have unknown : decodeFrame mosi = .error e := by
      cases hf : decodeFrame mosi with
      | ok w => rw [decode, hf] at he; cases he
      | error e' => rw [decode, hf] at he; cases he; rfl
    rw [reached]
    exact State.wireTransaction_unknown (s := { s with inputs := rest }) unknown hd hc
  case table =>
    have ready : (s.withFetchWord n w).packetWaits (tablePacket n w) = false := by
      cases hp : tablePacket n w with
      | completion => exact absurd hp (tablePacket_ne_completion n w)
      | request bytes => rfl
      | wire j mosi => rfl
    exact step_packet rfl ready (decode_tablePacket h)

/-! ## Reset (R250, R251) -/

/-- Settles O8: the reset keeps devices, memory and configuration, and everything else takes its reset value. -/
theorem resetArrives : Obligations.ResetArrives := by
  intro s rest hin
  have now : step s = .next (State.resetNow { s with inputs := rest }) := by simp [step, hin]
  exact ⟨_, now, rfl, rfl, rfl, resetWith_config s.insts s.devs s.ram⟩

end Sys2Proof.Machine
end

section
/-! PROOFS. The reference device (47_wire_commands.md R191 to R210): what each raw transaction returns and does, and what `finish` does to the array (log 17). -/

namespace Sys2Proof.Machine

/-! ## The status bits and the array -/

/-- WEL is bit 1 of the status byte and depends on no other (R31). -/
theorem wel_eq_getLsbD (v : Byte) : wel v = v.getLsbD 1 := by
  revert v; decide

/-- Where the spec gives the device's answer it is the array's byte at the address modulo the capacity (R201, R206). -/
theorem Device.arrayByte_of_answersAt {d : Device} {a : Nat} (h : d.answersAt a) (k : Nat) :
    d.arrayByte a k = d.mem.read (a % 1048576) := by
  unfold Device.arrayByte
  split
  · next lt =>
    rw [Nat.mod_eq_of_lt]
    exact lt
  · next ge =>
    rw [h.resolve_left ge]
    rfl

/-! ## What a device answers to a whole frame -/

section
variable {d : Device}

theorem Device.not_busy (h : d.sr.getLsbD 0 = false) : d.busy = false :=
  (wip_eq_getLsbD d.sr).trans h

/-- Three bytes come back after the opcode of `JEDECID`, the identity of a device that is not busy (R197, R193). -/
theorem Device.answers_jedecid_ident (hp : d.present = true) (k : Nat) (b1 b2 b3 : Byte) :
    ∃ r, ∃ id : Ident, d.select.answers k [Config.opJEDECID, b1, b2, b3] = [r, id.mfr, id.dev1, id.dev2] ∧
      (d.sr.getLsbD 0 = false → id = d.ident) := by
  have four : ∃ r x y z, d.select.answers k [Config.opJEDECID, b1, b2, b3] = [r, x, y, z] :=
    ⟨_, _, _, _, rfl⟩
  obtain ⟨r, x, y, z, answer⟩ := four
  refine ⟨r, ⟨x, y, z⟩, answer, fun idle => ?_⟩
  rw [Device.answers_jedecid hp (Device.not_busy idle)] at answer
  cases answer
  rfl

/-- The data bytes of a `READ` come from the array, running on from the frame's address (R201, R202). -/
theorem Device.answers_data (hp : d.present = true) (idle : d.sr.getLsbD 0 = false) (a : WireAddr)
    (k : Nat) {tx : List Byte} {j : Nat} (hj : j < tx.length) (ha : d.answersAt (a.toNat + j)) :
    ((d.select.receive (Config.opREAD :: addrBytes a)).answers k tx)[j]? =
      some (d.mem.read ((a.toNat + j) % 1048576)) := by
  have data := Device.answers_read (d := d.select.receive (Config.opREAD :: addrBytes a)) hp
    (Device.not_busy idle) k _ _ _ [] tx rfl
  rw [data, wireAddr_bytes, List.getElem?_map, List.getElem?_range hj, Option.map_some]
  exact congrArg some (Device.arrayByte_of_answersAt (d := d.select.receive _) ha _)

/-! ## What a device does at deassertion -/

/-- `WREN` sets the latch unless the device is busy (R199). -/
theorem Device.act_wren_released (d : Device) : (d.act .wren).released =
    if d.sr.getLsbD 0 then d.released else d.enabled := by
  rw [← wip_eq_getLsbD, Device.act, Device.commitWren, Device.busy]
  by_cases busy : wip d.sr = true
  · rw [if_pos busy, if_pos busy]
  · rw [if_neg busy, if_neg busy]; rfl

theorem Device.act_of_startedJob {w : Wire} {j : Job} (h : startedJob w = some j) :
    d.act w = d.start w j := by
  cases w <;> cases h <;> rfl

/-- A write or erase starts its job on an idle device whose latch is set and that does not refuse it (R193, R194; log 43). -/
theorem Device.act_released_of_startedJob {w : Wire} {j : Job} (h : startedJob w = some j) :
    (d.act w).released =
      if d.sr.getLsbD 0 = false ∧ d.sr.getLsbD 1 = true ∧ d.protects w = false then
        { d with job := some j, sr := d.sr ||| 0x01, rxq := [] } else d.released := by
  rw [Device.act_of_startedJob h, Device.start, ← wip_eq_getLsbD, ← wel_eq_getLsbD]
  by_cases accepted : wip d.sr = false ∧ wel d.sr = true ∧ d.protects w = false
  · obtain ⟨hw, hl, hq⟩ := accepted
    simp [Device.busy, Device.released, hw, hl, hq, setWip, Config.maskWIP]
  · rw [if_neg accepted, if_neg fun e => accepted ?_]
    simpa [Device.busy, and_assoc] using e

end

/-! ## Raw transactions (log 17) -/

section
variable {i : Nat} {d : Device} {s : State}

/-- A wire command's instruction is the raw transaction of its frame. -/
theorem exec_wire (w : Wire) (i : Nat) (s : State) :
    exec (w.instr i) s = s.wireTransaction i (encodeFrame w) := by
  cases w <;> rfl

/-- The raw transaction of a command that is no reset of the state: its answer, and what it does (R191). -/
theorem exec_wire_next {w : Wire} (hw : w.wellFormed = true) (hc : s.csAsserted = [])
    (hd : s.devs[i]? = some d) (hp : d.present = true) :
    exec (w.instr i) s = .next { s with
      devs := s.devs.set i (d.act w).released, draws := s.draws + (encodeFrame w).length
      trace := s.trace ++ [.wire i (encodeFrame w) (d.select.answers s.draws (encodeFrame w))] } := by
  rw [exec_wire, State.wireTransaction_next hc hd hp hw]

end

/-- Settles O47: byte 1 is the status register, and the device acts on nothing. -/
theorem rdsrOnTheWire : Obligations.RdsrOnTheWire := by
  intro i b d s hc hd hp
  have answer : d.select.answers s.draws (encodeFrame (.rdsr b)) = [Config.freeByte s.draws, d.sr] :=
    Device.answers_rdsr hp s.draws b
  refine ⟨Config.freeByte s.draws, s.draws + 2, ?_, rfl⟩
  refine (exec_wire_next (w := .rdsr b) rfl hc hd hp).trans ?_
  rw [answer]
  rfl

/-- Settles O48: the bytes after the opcode are the answer's, and the device acts on nothing. -/
theorem jedecidOnTheWire : Obligations.JedecidOnTheWire := by
  intro i b1 b2 b3 d s hc hd hp
  obtain ⟨r, id, answer, ident⟩ := Device.answers_jedecid_ident hp s.draws b1 b2 b3
  refine ⟨r, s.draws + 4, id, ident, (exec_wire_next (w := .jedecid b1 b2 b3) rfl hc hd hp).trans ?_⟩
  rw [show d.select.answers s.draws (encodeFrame (.jedecid b1 b2 b3)) = _ from answer]
  rfl

/-- Settles O49: four bytes pass before the data, which come from the array. -/
theorem readOnTheWire : Obligations.ReadOnTheWire := by
  intro i a out d s hc hd hp hl
  have fits : (Wire.read a out).wellFormed = true := by simpa [Wire.wellFormed, dataFits] using hl
  have bytes : encodeFrame (.read a out) = (Config.opREAD :: addrBytes a) ++ out := rfl
  refine ⟨d.select.answers s.draws (encodeFrame (.read a out)), _, ?length, fun idle k hk ha => ?data,
    (exec_wire_next (w := .read a out) fits hc hd hp).trans rfl⟩
  case length => rw [Device.answers_length, bytes, List.length_append]; rfl
  case data =>
    rw [bytes, Device.answers_append, List.getElem?_append_right (by rw [Device.answers_length]; simp [addrBytes])]
    simp only [Device.answers_length, addrBytes, List.length_cons, List.length_nil, Nat.add_sub_cancel_left]
    exact Device.answers_data hp idle a _ hk ha

/-- Settles O50: one byte is sent, and at its deassertion the latch is set unless the device is busy. -/
theorem wrenOnTheWire : Obligations.WrenOnTheWire := by
  intro i d s hc hd hp
  refine ⟨d.select.miso s.draws, s.draws + 1, (exec_wire_next (w := .wren) rfl hc hd hp).trans ?_⟩
  rw [Device.act_wren_released]
  rfl

/-! ## Page programs (R203; log 44) -/

/-- A page program has a write for each of its last 256 bytes at most. -/
theorem progWrites_length (a : Nat) (data : List Byte) :
    (progWrites a data).length = min data.length 256 := by
  simp only [progWrites, List.length_map, List.length_drop, List.length_zipIdx, Config.pageSize]
  omega

/-- Data byte `k` is aimed inside the page, counting on from the address's offset (R203). -/
theorem progWrites_getElem? (a : Nat) {data : List Byte} {k : Nat} {b : Byte}
    (hb : data[k]? = some b) (hk : data.length ≤ k + 256) :
    (progWrites a data)[k - (data.length - 256)]? = some (progTarget a k, b) := by
  have index : data.length - 256 + (k - (data.length - 256)) = k := by omega
  simp [progWrites, Config.pageSize, List.getElem?_drop, index, hb]

/-- Settles O51: the command starts its job or is ignored, and the writes of a program are aimed inside its page. -/
theorem writeCommandsStartTheirJob : Obligations.WriteCommandsStartTheirJob := by
  refine ⟨fun w j i d s hj hw hc hd hp => ?_, fun a data => ⟨progWrites_length a data, fun k b hb hk => ?_⟩⟩
  · refine ⟨d.select.answers s.draws (encodeFrame w), s.draws + (encodeFrame w).length,
      (exec_wire_next hw hc hd hp).trans ?_⟩
    rw [Device.act_released_of_startedJob hj]
  · exact progWrites_getElem? a hb hk

/-! ## `finish` (R195, R204, R207 to R209) -/

section
variable {d : Device} {k : Nat}

/-- Byte by byte a page program merges into the array, at the addresses the device maps its targets to (R204, R206). -/
theorem Device.programByte_eq (d : Device) (k : Nat) (m : Memory) {t : Nat × Byte}
    (h : d.answersAt t.1) : d.programByte k m t =
      m.write (t.1 % 1048576) (mergeByte d.merge (m.read (t.1 % 1048576)) t.2) := by
  unfold Device.programByte
  split
  · next lt => rw [Nat.mod_eq_of_lt (show t.1 < 1048576 from lt)]
  · next ge => rw [h.resolve_left ge]; rfl

/-- A page program with distinct targets: each byte is merged with the old one at its target, and the rest of the array is kept (R203, R204). -/
theorem Device.read_programmed {ws : List (Nat × Byte)} {m : Memory} (hm : m.wf = true)
    (distinct : (ws.map fun w => w.1 % 1048576).Nodup) (hs : ∀ w ∈ ws, d.answersAt w.1) :
    (∀ w ∈ ws, (ws.foldl (d.programByte k) m).read (w.1 % 1048576) =
        mergeByte d.merge (m.read (w.1 % 1048576)) w.2) ∧
      ∀ b, (∀ w ∈ ws, w.1 % 1048576 ≠ b) → (ws.foldl (d.programByte k) m).read b = m.read b := by
  induction ws generalizing m with
  | nil => exact ⟨nofun, fun _ _ => rfl⟩
  | cons t ws ih =>
    rw [List.map_cons, List.nodup_cons] at distinct
    obtain ⟨fresh, distinct⟩ := distinct
    have first := d.programByte_eq k m (hs t List.mem_cons_self)
    have wf : (d.programByte k m t).wf = true := by rw [first]; exact Memory.wf_write hm _ _
    obtain ⟨written, kept⟩ := ih wf distinct fun w hw => hs w (List.mem_cons_of_mem _ hw)
    have other {w : Nat × Byte} (hw : w ∈ ws) : t.1 % 1048576 ≠ w.1 % 1048576 :=
      fun e => fresh (e ▸ List.mem_map_of_mem hw)
    refine ⟨fun w hw => ?_, fun b hb => ?_⟩
    · rw [List.foldl_cons]
      rcases List.mem_cons.1 hw with rfl | hw
      · rw [kept _ fun u hu => (other hu).symm, first, Memory.read_write hm, if_pos rfl]
      · rw [written w hw, first, Memory.read_write hm, if_neg (other hw)]
    · rw [List.foldl_cons, kept b fun w hw => hb w (List.mem_cons_of_mem _ hw), first,
        Memory.read_write hm, if_neg (hb t List.mem_cons_self)]

/-- Erasing a unit of the array blanks its bytes and no other (R207, R208); the wire address of a unit outside the array wraps where the device does (R206). -/
theorem Device.read_eraseUnit {size u : Nat} (hm : d.mem.wf = true)
    (hu : u * size < 1048576 ∨ d.addrMap = .wrap) (hsize : u * size < 1048576 → u < 1048576 / size)
    (b : Nat) : (d.eraseUnit k size u).read b =
      if b / size = u % (1048576 / size) then 0xFF else d.mem.read b := by
  unfold Device.eraseUnit
  split
  · next lt => rw [Memory.read_erase _ hm, Nat.mod_eq_of_lt (hsize lt)]; simp [Config.blank]
  · next ge =>
    rw [hu.resolve_left ge]
    simp only
    rw [Memory.read_erase _ hm]
    simp only [decide_eq_true_eq]
    rfl

end

/-- Settles O52: the device's job is applied to its array or status register, and its job, WIP and WEL are cleared. -/
theorem finishAppliesTheJob : Obligations.FinishAppliesTheJob := by
  intro i d s rest hin hd ok
  have moved : step s = .next (State.finish i { s with inputs := rest }) := by
    simp [step, hin, State.envMove]
  obtain ⟨wf, -, -⟩ := ok
  refine ⟨fun hj => ?_, fun j hj => ⟨d.finish s.draws, ?next, ?same, ?wip, ?wel, fun hne => ?status,
    fun v hv => ?array, fun ws hw nodup below => ?program, fun u hu lt b => ?sector,
    fun u hu lt b => ?block, fun hc b => ?chip⟩⟩
  · simp [moved, State.finish, hd, hj]
  all_goals simp only [Device.finish, hj]
  case next =>
    rw [moved]
    simp [State.finish, hd, hj, State.emit, State.modDev, modify_of_getElem? hd, Device.finish]
  case same => cases j <;> rfl
  case wip => rw [← wip_eq_getLsbD]; exact wip_clearWipWel _
  case wel => rw [← wel_eq_getLsbD]; exact wel_clearWipWel _
  case status =>
    cases j with
    | writeSR v => exact absurd rfl (hne v)
    | _ => rfl
  case array => subst hv; rfl
  case program =>
    subst hw
    have inside {w : Nat × Byte} (hw : w ∈ ws) : w.1 % 1048576 = w.1 := Nat.mod_eq_of_lt (below w hw)
    have targets : (ws.map fun w => w.1 % 1048576) = ws.map fun w => w.1 :=
      List.map_congr_left fun w hw => inside hw
    obtain ⟨written, kept⟩ := Device.read_programmed (d := d) (k := s.draws) wf (targets ▸ nodup)
      fun w hw => .inl (below w hw)
    exact ⟨fun w hw => by simpa [inside hw, Device.applyJob] using written w hw,
      fun b hb => kept b fun w hw => by rw [inside hw]; exact hb w hw⟩
  case sector =>
    subst hu
    have read := Device.read_eraseUnit (k := s.draws) (size := 4096) (u := u) wf
      (.inl (by omega)) (fun _ => by omega) b
    rwa [Nat.mod_eq_of_lt (show u < 1048576 / 4096 from lt)] at read
  case block =>
    subst hu
    have read := Device.read_eraseUnit (k := s.draws) (size := 65536) (u := u) wf
      (.inl (by omega)) (fun _ => by omega) b
    rwa [Nat.mod_eq_of_lt (show u < 1048576 / 65536 from lt)] at read
  case chip =>
    subst hc
    exact Memory.read_erase (fun _ => true) wf b

end Sys2Proof.Machine
end

section
/-! PROOFS. The bus guard's `begin` and the foreign master (10_state.md R27, 40_bus_guard.md R111), and the completion dispatcher: the engine's step, the completion, and its order with the return (46_async_dispatcher.md R175 to R182, 60_exceptions.md R234). -/

namespace Sys2Proof.Machine

/-! ## `begin` (R111) -/

section
variable {i : Nat} {s : State}

/-- `begin` is accepted on every instance that exists while the slot is Idle, begun or not (R111, R224). -/
theorem State.accepts_begin (hi : i < s.insts.length) (hs : s.slot.tag = .idle) :
    s.refusalOf { op := .begin, i := i } = none :=
  State.refusalOf_eq_none_iff.2 ⟨hi, hs, nofun, nofun, nofun⟩

/-- The state in which `begin` has returned (R111). -/
def State.afterBegin (i : Nat) (s : State) : State :=
  { s with
    cur := i
    held := { status := 0, cb := none, ctx := 0 }
    csAsserted := s.csAsserted.filter fun c => decide (c ≠ (s.inst i).csId)
    busCfg := if (s.inst i).shared then s.busCfg else .ours
    insts := s.insts.modify i fun x => { x with begun := true }
    devs := s.devs.modify i Device.commit
    trace := s.trace ++ .cs i .deasserted ::
      ((if (s.inst i).shared then [] else [.cfg i]) ++ [.ret .begin .nothing]) }

/-- The four steps of `begin` (R111). -/
theorem runOp_begin (hp : s.phase = .idle) :
    runOp Config.maxSteps (s.accept { op := .begin, i := i }) = s.afterBegin i := by
  let s0 := s.accept { op := .begin, i := i }
  let s1 := opStep .begin 0 .park s0
  let s2 := opStep .begin 1 .configureOnce s1
  let s3 := opStep .begin 2 .setBegun s2
  have a : Steps 1 s0 s1 := Steps.one rfl rfl nofun
  have b : Steps 1 s1 s2 := Steps.one rfl rfl nofun
  have c : Steps 1 s2 s3 := Steps.one rfl rfl nofun
  have d : Steps 1 s3 (opStep .begin 3 .ret s3) := Steps.one rfl rfl nofun
  rw [(((a.trans b).trans c).trans d).run rfl (by decide)]
  have kind : (s1.inst s1.cur).shared = (s.inst i).shared := rfl
  simp only [s3, s2, opStep, State.micro, kind]
  cases e : (s.inst i).shared with
  | true =>
    simp [s1, s0, opStep, State.micro, State.accept, State.enter, State.afterBegin, State.csDeassert,
      State.modDev, State.emit, State.goto, State.setBegun, State.returnOp, State.result, e, hp]
    rfl
  | false =>
    simp [s1, s0, opStep, State.micro, State.accept, State.enter, State.afterBegin, State.csDeassert,
      State.modDev, State.emit, State.goto, State.setBegun, State.returnOp, State.result, e, hp,
      State.configure]
    rfl

end

/-- Settles O17: refused while the slot is Pending, and otherwise its four steps run. -/
theorem beginPreparesAnInstance : Obligations.BeginPreparesAnInstance := by
  intro i s hh hp hi
  refine ⟨fun pending => exec_refused (r := { op := .begin, i := i }) rfl hh hp
    (State.refusalOf_opWhilePending hi pending), fun idle turn => ?_⟩
  rw [exec_accepted (r := { op := .begin, i := i }) rfl hh hp (State.accepts_begin hi idle) turn,
    runOp_begin hp]
  rfl

/-! ## The foreign master (R27, D29; log 23) -/

/-- When a foreign master may move. -/
theorem State.foreignEnabled_iff (s : State) : s.foreignEnabled = true ↔
    s.anyShared = true ∧ s.csAsserted = [] ∧ s.slot.tag = .idle ∧ s.nextMicro ≠ some .settle ∧
      s.nextMicro ≠ some .select := by
  cases hp : s.phase with
  | idle => simp [State.foreignEnabled, State.nextMicro, hp, and_assoc]
  | busy op k => simp [State.foreignEnabled, State.nextMicro, hp, and_assoc]

/-- Settles O18: the move takes place exactly when it is enabled. -/
theorem foreignMaster : Obligations.ForeignMaster := by
  intro s rest hin
  have moved : step s = .next (State.foreignMove { s with inputs := rest }) := by
    simp [step, hin, State.envMove]
  have enabled : State.foreignEnabled { s with inputs := rest } = true ↔
      s.anyShared = true ∧ s.csAsserted = [] ∧ s.slot.tag = .idle ∧ s.nextMicro ≠ some .settle ∧
        s.nextMicro ≠ some .select := State.foreignEnabled_iff _
  refine ⟨fun shared free idle noSettle noSelect => ?_, fun blocked => ?_⟩
  · rw [moved, State.foreignMove, if_pos (enabled.2 ⟨shared, free, idle, noSettle, noSelect⟩)]
  · rw [moved, State.foreignMove, if_neg]
    rw [enabled]
    rintro ⟨shared, free, idle, noSettle, noSelect⟩
    rcases blocked with h | h | h | h | h
    · rw [shared] at h; cases h
    · exact h free
    · rw [idle] at h; cases h
    · exact noSettle h
    · exact noSelect h

/-! ## The engine (R178) -/

section
variable {s : State} {x : Transfer} {i : Nat} {d : Device}

theorem State.engineTx_length (s : State) (x : Transfer) : (s.engineTx x).length = x.n := by
  unfold State.engineTx
  split
  · exact memRead_length _ _ _
  · exact freeBytes_length _ _

/-- The engine's move on the selected chip: the bytes go out from the host's buffer or as the placeholder, and the answer into the host's buffer or nowhere (R178). -/
theorem State.Selected.perform {y : Inst} (h : s.Selected i y d) (he : s.eng = some x)
    (hx : x.performed = false) {tx rx : List Byte} (ht : s.engineTx x = tx)
    (hr : d.answers (s.draws + x.n + x.n) tx = rx) :
    s.perform = { s with
      draws := s.draws + 3 * x.n, eng := some { x with performed := true }
      devs := s.devs.set i (d.receive tx)
      ram := x.rxp.elim s.ram fun p => memWrite s.ram p rx
      trace := s.trace ++ [.xp tx rx] } := by
  have length : tx.length = x.n := ht ▸ s.engineTx_length x
  have drew : (s.drew x.n).Selected i y d := ⟨h.alone, h.inst, h.distinct, h.bus, h.device⟩
  obtain ⟨answer, sent⟩ := drew.exchange tx
  rw [State.drew_draws, length, hr] at answer
  simp only [State.perform, he, hx, ht, answer, sent, length]
  have total : s.draws + x.n + 2 * x.n = s.draws + 3 * x.n := by omega
  cases hp : x.rxp <;> simp [State.engineStore, State.emit, State.drew, hp, total]

end

/-- Settles O33: the owner's chip takes part alone, and without an exchange to perform nothing happens. -/
theorem enginePerforms : Obligations.EnginePerforms := by
  intro s rest hin
  have moved : step s = .next (State.perform { s with inputs := rest }) := by
    simp [step, hin, State.envMove]
  refine ⟨fun x i d he hx hi distinct alone ours hd => ?_, fun idle => ?_⟩
  · have inst : s.insts[i]? = some (s.inst i) := by
      rw [State.inst_getElem hi, List.getElem?_eq_getElem hi]
    have selected : State.Selected i (s.inst i) d { s with inputs := rest } :=
      ⟨alone, inst, distinct, ours, hd⟩
    generalize htx : State.engineTx { s with inputs := rest } x = tx
    have performed := selected.perform he hx htx rfl
    refine ⟨tx, d.answers (s.draws + x.n + x.n) tx, s.draws + x.n + x.n, rfl, ?_, fun p hp => ?_,
      s.draws + 3 * x.n, ?_⟩
    · exact htx ▸ State.engineTx_length _ x
    · simp [← htx, State.engineTx, hp]
    · rw [moved, performed]
      cases x.rxp <;> rfl
  · rw [moved]
    rcases idle with he | ⟨x, he, hx⟩
    · simp [State.perform, he]
    · simp [State.perform, he, hx]

/-! ## The completion (R177, R231, R232) -/

/-- The state in which the completion of owner `o`'s exchange has run: the transaction closed, slot and engine emptied, the callback invoked (R177). -/
def State.completed (o : Nat) (s : State) : State :=
  { s with
    csAsserted := s.csAsserted.filter fun c => decide (c ≠ (s.inst o).csId)
    insts := s.insts.modify o fun y => { y with txnOpen := false }
    devs := s.devs.modify o Device.commit
    slot := { tag := .idle, owner := none, cb := none, ctx := s.slot.ctx }
    eng := none
    trace := s.trace ++ [.cs o .deasserted, .cb s.slot.cb s.slot.ctx] }

section
variable {s : State} {o : Nat}

theorem State.completionEnabled_iff : s.completionEnabled = true ↔
    s.slot.tag = .pending ∧ (∃ x, s.eng = some x ∧ x.performed = true) ∧ s.handler = none := by
  cases he : s.eng with
  | none => simp [State.completionEnabled, he]
  | some x => simp [State.completionEnabled, he, and_assoc]

/-- An enabled completion runs its four steps in one turn (R177). -/
theorem exec_completion (h : s.completionEnabled = true) (ho : s.slot.owner = some o)
    (turn : s.wholeTurn) : exec .completion s = .next (s.completed o) := by
  obtain ⟨-, -, caller⟩ := State.completionEnabled_iff.1 h
  have turn' : s.takeCompletion.wholeTurn := turn
  have run : s.takeCompletion.proceed = s.takeCompletion.stepC1.stepC2.stepC3.stepC4 := by
    unfold State.proceed
    rw [turn'.burst, turn'.popRun, State.takeCompletion_handler]
    exact runHandler_all rfl (by decide)
  show execCompletion s = _
  rw [execCompletion, if_pos h, run]
  simp only [State.stepC1, State.takeCompletion, ho, State.stepC2, State.stepC3, State.stepC4,
    State.returnFromCompletion, State.endTxn, State.csDeassert, State.setTxnOpen, State.modDev,
    State.emit, State.completed, caller, List.append_assoc, List.cons_append, List.nil_append]
  rfl

end

/-- Settles O34: the completion is enabled, and its four steps leave the completed state. -/
theorem completion : Obligations.Completion := by
  intro s x o hh pending ho he hx turn
  exact exec_completion (State.completionEnabled_iff.2 ⟨pending, ⟨x, he, hx⟩, hh⟩) ho turn

/-- Settles O35: each of the conditions makes the completion one that is not enabled. -/
theorem completionNotEnabled : Obligations.CompletionNotEnabled := by
  intro s h
  show execCompletion s = _
  rw [execCompletion, if_neg]
  rw [State.completionEnabled_iff]
  rintro ⟨pending, ⟨x, he, hx⟩, hh⟩
  rcases h with h | h | ⟨y, hy, h⟩ | h
  · rw [pending] at h; cases h
  · rw [he] at h; cases h
  · rw [he] at hy; cases hy; rw [hx] at h; cases h
  · exact h hh

/-! ## The completion and the return (R234) -/

/-- With nothing due an operation at its `Return` returns. -/
theorem step_return {s : State} {op : HostOp} {k : Nat} (hp : s.phase = .busy op k)
    (hm : microAt op k = some .ret) (hh : s.handler = none) (hin : s.inputs = []) :
    step s = .next (s.returnOp op) := by
  have turn : s.wholeTurn := fun n rest e => by rw [hin] at e; cases e
  have run : runOp Config.maxSteps s = s.returnOp op :=
    (Steps.one hp hm (by simp)).run rfl (by decide)
  simp only [step, hin]
  unfold State.proceed
  rw [turn.burst, turn.popRun, hh]
  exact congrArg _ run

/-- Settles O38: both orders run the same two pieces, which touch different parts of the state. -/
theorem completionAndReturnCommute : Obligations.CompletionAndReturnCommute := by
  intro s op k o hp hm enabled ho hin
  obtain ⟨-, -, caller⟩ := State.completionEnabled_iff.1 enabled
  have turn : s.wholeTurn := fun n rest e => by rw [hin] at e; cases e
  have result : (s.completed o).result op = s.result op := by cases op <;> rfl
  refine ⟨s.completed o, (s.completed o).returnOp op, s.returnOp op, (s.returnOp op).completed o,
    exec_completion enabled ho turn, step_return hp hm caller hin, step_return hp hm caller hin,
    exec_completion (s := s.returnOp op) enabled ho turn, rfl, ?_, ?_⟩
  · rw [State.returnOp_trace, result]
    simp [State.completed]
  · simp [State.completed]

/-! ## Ranges of length 0 (44_range_chunking.md R161) -/

/-- The chunk loop is left at once with nothing remaining, and the operation returns. -/
theorem runOp_range_zero {op : HostOp} (hop : isRange op = true) {i : Nat} {a : Addr} {p : Ptr}
    {s : State} (hp : s.phase = .idle) :
    runOp Config.maxSteps (s.accept { op := op, i := i, addr := a, p := p, len := 0 }) = { s with
      cur := i, addr := a, ptr := p, rem := 0
      held := { status := 0, cb := none, ctx := 0 }
      trace := s.trace ++ [.ret op .nothing] } := by
  obtain ⟨exit, start, ret⟩ := microAt_range_zero hop
  let s0 := s.accept { op := op, i := i, addr := a, p := p, len := 0 }
  have accepted : s0 = { s with
      cur := i, addr := a, ptr := p, rem := 0, phase := .busy op 0
      held := { status := 0, cb := none, ctx := 0 } } := by
    cases op <;> cases hop <;> rfl
  have leave : Steps 1 s0 (s0.goto op exit) := by
    refine (Steps.one (by rw [accepted]) start (by simp)).of_eq ?_
    rw [opStep, if_pos (by rw [accepted])]
  have done : Steps 1 (s0.goto op exit) (opStep op exit .ret (s0.goto op exit)) :=
    Steps.one rfl ret (by simp)
  have result : (s0.goto op exit).result op = .nothing := by cases op <;> cases hop <;> rfl
  rw [(leave.trans done).run rfl (by decide), opStep, State.returnOp, result, accepted]
  simp [State.goto, State.emit, hp]

/-- Settles O41: accepted, the operation leaves its loop at once. -/
theorem rangeOfLengthZero : Obligations.RangeOfLengthZero := by
  intro i a p s hh hp hs hi hb turn ins op h
  have request : isRange op = true ∧ hostRequest ins = some { op := op, i := i, addr := a, p := p, len := 0 } := by
    rcases h with ⟨rfl, rfl⟩ | ⟨rfl, rfl⟩ <;> exact ⟨rfl, rfl⟩
  obtain ⟨range, request⟩ := request
  have accepts : s.refusalOf { op := op, i := i, addr := a, p := p, len := 0 } = none := by
    refine State.refusalOf_eq_none_iff.2 ⟨hi, hs, fun _ => hb, ?_, ?_⟩ <;>
      rcases h with ⟨-, rfl⟩ | ⟨-, rfl⟩ <;> exact nofun
  rw [exec_accepted request hh hp accepts turn, runOp_range_zero range hp]

end Sys2Proof.Machine
end

section
/-! PROOFS. Symbolic runs of the operations (42_status_control.md): the pieces every operation is made of, a wait, a `WREN` with its delay, one command transaction, as stretches of steps from any state that can open a transaction; and the frames of the statements. -/

namespace Sys2Proof.Machine

/-! ## Stretches of a step list -/

/-- The steps of operation `op` from step `k` on are `ms`. -/
@[reducible] def Segment (op : HostOp) (k : Nat) (ms : List Micro) : Prop :=
  ∀ j < ms.length, microAt op (k + j) = ms[j]?

theorem Segment.at {op : HostOp} {k : Nat} {ms : List Micro} (h : Segment op k ms) (j : Nat)
    {m : Micro} (hm : ms[j]? = some m) : microAt op (k + j) = some m :=
  (h j (List.getElem?_eq_some_iff.1 hm).1).trans hm

theorem Segment.left {op : HostOp} {k : Nat} {ms ns : List Micro} (h : Segment op k (ms ++ ns)) :
    Segment op k ms := fun j hj => by
  rw [h j (by rw [List.length_append]; omega), List.getElem?_append_left hj]

theorem Segment.right {op : HostOp} {k : Nat} {ms ns : List Micro} (h : Segment op k (ms ++ ns)) :
    Segment op (k + ms.length) ns := fun j hj => by
  rw [Nat.add_assoc, h _ (by rw [List.length_append]; omega),
    List.getElem?_append_right (by omega), Nat.add_sub_cancel_left]

/-! ## What a transaction leaves -/

/-- The state after one transaction of the running operation with its device, now `e`: the frame registers hold `f`, the exchanges were `xs`, PHASE is at step `k`, and `n` values have been drawn (R112, R113). -/
def State.afterTxn (op : HostOp) (k : Nat) (e : Device) (f : Frame) (xs : List Event) (n : Nat)
    (s : State) : State :=
  { s with
    f := f, phase := .busy op k, busCfg := .ours, devs := s.devs.set s.cur e, draws := n
    trace := s.trace ++ s.txnEvents s.cur xs }

/-- The state after `writeEnable` without its return, on device `d` (R130). -/
def State.afterEnable (op : HostOp) (k : Nat) (d : Device) (s : State) : State :=
  { s with
    f := { s.f with b0 := Config.opWREN }, phase := .busy op k, busCfg := .ours
    devs := s.devs.set s.cur (if d.sr.getLsbD 0 then d.released else d.enabled), draws := s.draws + 2
    trace := s.trace ++ s.enableEvents s.cur (d.select.miso (s.draws + 1)) }

section
variable {s : State} {op : HostOp} {k : Nat} {x : Inst} {d : Device}

/-- One command transaction whose answer is captured in no register. -/
theorem Steps.txn {c : Cmd} {w : Wire} {rx : List Byte} (hp : s.phase = .busy op k)
    (ho : s.CanOpen s.cur x d) (seg : Segment op k (transaction [.send c])) (hw : w.wellFormed = true)
    (he : c.sent (s.loadFrame c) = encodeFrame w)
    (hr : d.select.answers (s.draws + (encodeFrame w).length) (encodeFrame w) = rx)
    (hc : ∀ rx t, State.capture c rx t = t) :
    Steps 5 s (s.afterTxn op (k + 5) (d.act w).released (s.loadFrame c)
      [.x (some (encodeFrame w)) rx] (s.draws + 2 * (encodeFrame w).length)) := by
  refine (Steps.command hp ho (seg.at 0 rfl) (seg.at 1 rfl) (seg.at 2 rfl)
    (seg.at 3 rfl) (seg.at 4 rfl) hw he hr).of_eq ?_
  rw [hc]
  simp [State.afterTxn, State.txnEvents]

/-- One `RDSR` transaction at a wait or a status operation. -/
theorem Steps.polled (hp : s.phase = .busy op k) (ho : s.CanOpen s.cur x d)
    (seg : Segment op k (transaction [.send .rdsr])) : Steps 5 s (s.afterRdsr op (k + 5) d) :=
  Steps.rdsr hp ho (seg.at 0 rfl) (seg.at 1 rfl) (seg.at 2 rfl) (seg.at 3 rfl)
    (seg.at 4 rfl)

/-- A wait on an idle device is one poll (R128). -/
theorem Steps.waited (hp : s.phase = .busy op k) (ho : s.CanOpen s.cur x d)
    (seg : Segment op k waiting) (idle : d.sr.getLsbD 0 = false) :
    Steps 6 s (s.afterRdsr op (k + 6) d) := by
  have awake : ¬wip d.sr = true := by rw [wip_eq_getLsbD, idle]; exact Bool.false_ne_true
  refine ((Steps.polled hp ho seg.left).trans
    (Steps.one rfl (seg.at 5 rfl) fun sleeps => awake sleeps.2)).of_eq ?_
  exact if_neg awake

/-- A wait on a busy device is one poll and a sleep, where the stretch ends when no agent moves next (R128; log 13). -/
theorem runOp_wait_busy (hp : s.phase = .busy op k) (ho : s.CanOpen s.cur x d)
    (seg : Segment op k waiting) (busy : d.sr.getLsbD 0 = true) (hi : ∀ e r, s.inputs ≠ .env e :: r)
    (n : Nat) : runOp (n + 6) s = (s.afterRdsr op (k + 5) d).sleep op (k + 5) := by
  rw [show n + 6 = (n + 1) + 5 from rfl, Steps.polled hp ho seg.left]
  exact runOp_sleep rfl (seg.at 5 rfl) ((wip_eq_getLsbD d.sr).trans busy) hi

/-- On a busy device an agent that is due moves during the sleep (R128; log 13). -/
theorem Steps.slept {e : EnvMove} {rest : List Input} (hp : s.phase = .busy op k)
    (ho : s.CanOpen s.cur x d) (seg : Segment op k waiting) (busy : d.sr.getLsbD 0 = true)
    (hi : s.inputs = .env e :: rest) :
    Steps 6 s ({ (s.afterRdsr op (k + 5) d).sleep op (k + 5) with inputs := rest }.envMove e) :=
  (Steps.polled hp ho seg.left).trans
    (Steps.sleep rfl (seg.at 5 rfl) ((wip_eq_getLsbD d.sr).trans busy) hi)

/-- `WREN` and its delay (R130). -/
theorem Steps.enabled (hp : s.phase = .busy op k) (ho : s.CanOpen s.cur x d)
    (seg : Segment op k enabling) : Steps 6 s (s.afterEnable op (k + 6) d) := by
  have sent := Steps.txn (rx := [d.select.miso (s.draws + 1)]) (w := .wren) hp ho seg.left rfl rfl rfl fun _ _ => rfl
  refine (sent.trans (Steps.one rfl (seg.at 5 rfl) nofun)).of_eq ?_
  rw [Device.act_wren_released]
  simp [opStep, State.micro, State.afterTxn, State.emit, State.goto, State.afterEnable,
    State.enableEvents, encodeFrame, State.loadFrame]

end

/-! ## The frames of the statements -/

section
variable {s t : State} {i : Nat} {d : Device}

/-- After a transaction of a ready instance the bus is ours (R112). -/
theorem State.Ready.busAfter_eq (h : s.Ready i d) : s.busAfter i = .ours := by
  rcases h.bus with shared | ours
  · exact if_pos shared
  · simp [State.busAfter, ours]

/-- The device of a ready instance is there to be changed. -/
theorem State.Ready.lt (h : s.Ready i d) : i < s.devs.length :=
  (List.getElem?_eq_some_iff.1 h.device).1

theorem State.Ready.syncFrame (h : s.Ready i d) {e : Device} (phase : t.phase = .idle)
    (handler : t.handler = s.handler) (insts : t.insts = s.insts)
    (cs : t.csAsserted = s.csAsserted) (slot : t.slot = s.slot) (eng : t.eng = s.eng)
    (bus : t.busCfg = .ours) (devs : t.devs = s.devs.set i e) : s.SyncFrame i t where
  phase := phase
  handler := handler
  insts := insts
  chipSelects := cs
  slot := slot
  eng := eng
  bus := bus.trans h.busAfter_eq.symm
  others _ hj := by rw [devs]; exact List.getElem?_set_ne hj.symm
  count := by rw [devs]; exact List.length_set

/-- The next transaction of an operation opens as the one before it did, on what that left of the device. -/
theorem State.CanOpen.next {x : Inst} {e : Device} (h : s.CanOpen s.cur x d) (hcur : t.cur = s.cur)
    (hc : t.csAsserted = s.csAsserted) (hi : t.insts = s.insts) (hb : t.busCfg = .ours)
    (hd : t.devs = s.devs.set s.cur e) (hp : e.present = true) : t.CanOpen t.cur x e where
  free := hc.trans h.free
  inst := by rw [hi, hcur]; exact h.inst
  closed := h.closed
  distinct := hi ▸ h.distinct
  bus := .inr hb
  device := by rw [hd, hcur]; exact List.getElem?_set_self (List.getElem?_eq_some_iff.1 h.device).1
  present := hp

/-- An accepted request opens its transactions as the ready instance does. -/
theorem State.Ready.accept_canOpen {r : Request} (h : s.Ready r.i d) :
    (s.accept r).CanOpen (s.accept r).cur (s.inst r.i) d := by
  rw [State.accept_cur]
  exact h.canOpen (by simp) (by simp) (.inl (by simp)) (by simpa using h.device) h.present

end

/-- Settles O19: one `RDSR` transaction, and the return of `ST`. -/
theorem readStatus : Obligations.ReadStatus := fun i d s h =>
  ⟨s.afterStatusOp .readStatus i d, Config.freeByte (s.draws + 2), exec_statusOp h (.inl rfl) rfl,
    h.controlFrame_statusOp, h.devs_afterStatusOp, rfl, rfl, rfl, rfl⟩

end Sys2Proof.Machine
end

section
/-! PROOFS. The status and control operations (42_status_control.md R128 to R132): waits on an idle, a busy and a never finishing device, `writeStatus`, `writeEnable` and the identity operations. -/

namespace Sys2Proof.Machine

section
variable {s t : State} {i : Nat} {d : Device}

/-- The events of a transaction depend on its instance's bus alone. -/
theorem State.txnEvents_congr (h : t.insts = s.insts) (i : Nat) (xs : List Event) :
    t.txnEvents i xs = s.txnEvents i xs := by
  rw [State.txnEvents, State.txnEvents, State.openingEvents, State.openingEvents,
    State.inst_eq_of_insts h]

theorem State.pollEvents_congr (h : t.insts = s.insts) (i : Nat) (r v : Byte) :
    t.pollEvents i r v = s.pollEvents i r v := State.txnEvents_congr h i _

/-- A control operation that ran on a ready instance and left everything but its registers, its device, the bus and the trace. -/
theorem State.Ready.controlFrame (h : s.Ready i d) {e : Device} (phase : t.phase = .idle)
    (rest : t.handler = s.handler ∧ t.insts = s.insts ∧ t.csAsserted = s.csAsserted ∧
      t.slot = s.slot ∧ t.eng = s.eng) (bus : t.busCfg = .ours) (devs : t.devs = s.devs.set i e)
    (cur : t.cur = i) (regs : s.sameTransferRegs t) (ram : t.ram = s.ram)
    (inputs : t.inputs = s.inputs) : s.ControlFrame i t ∧ t.devs[i]? = some e := by
  obtain ⟨handler, insts, cs, slot, eng⟩ := rest
  refine ⟨{ toSyncFrame := h.syncFrame phase handler insts cs slot eng bus devs, cur := cur,
            regs := regs, ram := ram, inputs := inputs }, ?_⟩
  rw [devs]
  exact List.getElem?_set_self h.lt

/-- An accepted operation that reaches its return. -/
theorem exec_returns {ins : Instr} {r : Request} {j : Nat} {u : State} (h : s.Ready r.i d)
    (hreq : hostRequest ins = some r) (accepts : s.refusalOf r = none)
    (run : Steps j (s.accept r) u) {k : Nat} (hp : u.phase = .busy r.op k)
    (hr : microAt r.op k = some .ret) (hj : j < Config.maxSteps) :
    exec ins s = .next (u.returnOp r.op) := by
  rw [exec_accepted hreq h.handler h.phase accepts h.turn,
    (run.trans (Steps.one hp hr (by simp))).run rfl hj]
  rfl

end

/-- Settles O21: the poll reads WIP as 0, and the operation returns. -/
theorem waitOnAnIdleDevice : Obligations.WaitOnAnIdleDevice := by
  intro i d s h idle
  let r : Request := { op := .waitForWriteComplete, i := i }
  have seg : Segment .waitForWriteComplete 0 waiting := by decide
  have wait := Steps.waited (State.accept_phase s r) h.accept_canOpen seg idle
  have run := exec_returns (ins := .waitForWriteComplete i) (r := r) (k := 6) h rfl
    (h.refusalOf_eq_none rfl rfl rfl) wait rfl rfl (by decide)
  obtain ⟨frame, device⟩ := h.controlFrame (e := d.released)
    (t := ((s.accept r).afterRdsr .waitForWriteComplete 6 d).returnOp .waitForWriteComplete)
    rfl ⟨rfl, rfl, rfl, rfl, rfl⟩ rfl rfl rfl ⟨rfl, rfl, rfl, rfl⟩ rfl rfl
  exact ⟨_, Config.freeByte (s.draws + 2), run, frame, device, rfl, rfl, rfl, rfl⟩

/-! ## A wait on a busy device (R128, R228) -/

/-- The operations of R70 begin with a wait. -/
theorem segment_waitsFirst {op : HostOp} (h : waitsFirst op = true) : Segment op 0 waiting := by
  cases op <;> cases h <;> decide

/-- A ready instance whose busy device is polled once: the operation sleeps at its first step, with nothing else changed (R128). -/
theorem runOp_accept_busy {r : Request} {d : Device} {s : State} (hw : waitsFirst r.op = true)
    (h : s.Ready r.i d) (busy : d.sr.getLsbD 0 = true) (hi : ∀ e rest, s.inputs ≠ .env e :: rest) :
    runOp Config.maxSteps (s.accept r) = ((s.accept r).afterRdsr r.op 5 d).sleep r.op 5 :=
  runOp_wait_busy (State.accept_phase s r) h.accept_canOpen (segment_waitsFirst hw) busy
    (by simpa using hi) 4294967290

/-- Settles O23: the poll reads WIP as 1, and with nobody else due the turn ends at the sleep. -/
theorem waitSleepsOnABusyDevice : Obligations.WaitSleepsOnABusyDevice := by
  intro ins r d s hreq hw h accepts busy hi
  have run := exec_accepted hreq h.handler h.phase accepts h.turn
  rw [runOp_accept_busy hw h busy hi] at run
  refine ⟨_, Config.freeByte (s.draws + 2), run, rfl, ?_, ?_, ?_, ?_, ?_, ?_, ?_, rfl, ?_⟩
  case refine_8 =>
    rw [State.sleep_trace]
    simp [State.afterRdsr, State.pollEvents_congr (State.accept_insts s r)]
  case refine_3 => simpa [State.afterRdsr] using h.chipSelects
  all_goals simp [State.afterRdsr]

/-- An operation waits at its first step for a device that is busy, with nothing due. -/
structure State.Hangs (op : HostOp) (d : Device) (s : State) : Prop where
  phase : s.phase = .busy op 0
  waits : waitsFirst op = true
  handler : s.handler = none
  inputs : s.inputs = []
  opens : ∃ x, s.CanOpen s.cur x d
  busy : d.sr.getLsbD 0 = true

/-- The sleep after a poll of the busy device leaves the operation where it was. -/
theorem State.Hangs.slept {op : HostOp} {d : Device} {s : State} (h : s.Hangs op d) :
    ((s.afterRdsr op 5 d).sleep op 5).Hangs op d.released := by
  obtain ⟨x, opens⟩ := h.opens
  exact {
    phase := rfl
    waits := h.waits
    handler := h.handler
    inputs := h.inputs
    opens := ⟨x, opens.next rfl rfl rfl rfl rfl opens.present⟩
    busy := h.busy }

/-- A step of a hanging operation polls, sleeps and hangs on (R228). -/
theorem State.Hangs.step {op : HostOp} {d : Device} {s : State} (h : s.Hangs op d) :
    step s = .next ((s.afterRdsr op 5 d).sleep op 5) := by
  obtain ⟨x, opens⟩ := h.opens
  have turn : s.wholeTurn := fun n rest e => by rw [h.inputs] at e; cases e
  have run := runOp_wait_busy h.phase opens (segment_waitsFirst h.waits) h.busy
    (by simp [h.inputs]) 4294967290
  simp only [Machine.step, h.inputs]
  unfold State.proceed
  rw [turn.burst, turn.popRun, h.handler]
  exact congrArg _ run

/-- However long it runs, a hanging operation does not end. -/
theorem State.Hangs.run {op : HostOp} {d : Device} {s : State} (h : s.Hangs op d) (n : Nat) :
    ∃ u, Host.Core.run core n s = .next u ∧ State.phase u ≠ .idle := by
  induction n generalizing s d with
  | zero => exact ⟨s, rfl, by rw [h.phase]; exact nofun⟩
  | succ n ih =>
    obtain ⟨u, hu, running⟩ := ih h.slept
    exact ⟨u, (run_succ h.step n).trans hu, running⟩

/-- Settles O24: after its first poll the operation hangs, and every step polls and sleeps again. -/
theorem waitHangsWithoutFinish : Obligations.WaitHangsWithoutFinish := by
  intro ins r d s hreq hw h accepts busy hin
  have run := exec_accepted hreq h.handler h.phase accepts h.turn
  rw [runOp_accept_busy hw h busy (by simp [hin])] at run
  have hangs : (s.accept r).Hangs r.op d := {
    phase := State.accept_phase s r
    waits := hw
    handler := by simpa using h.handler
    inputs := by simpa using hin
    opens := ⟨_, h.accept_canOpen⟩
    busy := busy }
  exact ⟨_, run, fun n => hangs.slept.run n⟩

/-! ## `writeStatus`, `writeEnable` and the identity (R129 to R132) -/

/-- Settles O25: the wait is one poll, the command carries the byte as given, and the operation returns without waiting. -/
theorem writeStatus : Obligations.WriteStatus := by
  intro i v d s h idle
  let r : Request := { op := .writeStatus, i := i, status := v }
  let s1 := (s.accept r).afterRdsr .writeStatus 6 d
  have segWait : Segment .writeStatus 0 waiting := by decide
  have segCmd : Segment .writeStatus 6 (transaction [.send .wrsr]) := by decide
  have wait : Steps 6 (s.accept r) s1 :=
    Steps.waited (State.accept_phase s r) h.accept_canOpen segWait idle
  have opens : s1.CanOpen s1.cur (s.inst i) d.released :=
    (State.Ready.accept_canOpen (r := r) h).next rfl rfl rfl rfl rfl h.present
  let q := d.released.select.answers (s1.draws + 2) [0x01, v]
  have sent : Steps 5 s1 _ :=
    Steps.txn (w := .wrsr v) (rx := q) rfl opens segCmd rfl rfl rfl fun _ _ => rfl
  have run := exec_returns (ins := .writeStatus i v) (r := r) (k := 11) h rfl
    (h.refusalOf_eq_none rfl rfl rfl) (wait.trans sent) rfl rfl (by decide)
  obtain ⟨frame, device⟩ := h.controlFrame (e := (d.released.act (.wrsr v)).released)
    (t := State.returnOp .writeStatus (s1.afterTxn .writeStatus 11 (d.released.act (.wrsr v)).released
      (s1.loadFrame .wrsr) [.x (some [0x01, v]) q] (s1.draws + 2 * 2)))
    rfl ⟨rfl, rfl, rfl, rfl, rfl⟩ rfl (List.set_set ..) rfl ⟨rfl, rfl, rfl, rfl⟩ rfl rfl
  have job := Device.act_released_of_startedJob (d := d.released) (w := .wrsr v) rfl
  exact ⟨_, Config.freeByte (s.draws + 2), q, run, frame, 
    device.trans (congrArg some (job.trans (ite_congr (propext (and_iff_right idle)) (fun _ => rfl) fun _ => rfl))), rfl, rfl, rfl, rfl⟩

/-- Settles O26: one `WREN` and the delay. -/
theorem writeEnable : Obligations.WriteEnable := by
  intro i d s h
  let r : Request := { op := .writeEnable, i := i }
  have seg : Segment .writeEnable 0 enabling := by decide
  have enabled := Steps.enabled (State.accept_phase s r) h.accept_canOpen seg
  have run := exec_returns (ins := .writeEnable i) (r := r) (k := 6) h rfl
    (h.refusalOf_eq_none rfl rfl rfl) enabled rfl rfl (by decide)
  obtain ⟨frame, device⟩ := h.controlFrame (e := if d.sr.getLsbD 0 then d.released else d.enabled)
    (t := ((s.accept r).afterEnable .writeEnable 6 d).returnOp .writeEnable)
    rfl ⟨rfl, rfl, rfl, rfl, rfl⟩ rfl rfl rfl ⟨rfl, rfl, rfl, rfl⟩ rfl rfl
  exact ⟨_, d.select.miso (s.draws + 1), run, frame, device, rfl, rfl, rfl, rfl⟩

/-- The operations that are one `JEDECID` transaction and a return (R131, R132). -/
def isIdentOp (op : HostOp) : Prop := op = .jedecIdRead ∨ op = .isValidChip

/-- The state in which an identity operation on instance `i` has returned, `r` the byte in the opcode's position and `id` the three after it. -/
def State.afterIdentOp (op : HostOp) (i : Nat) (d : Device) (r : Byte) (id : Ident) (s : State) : State :=
  { s with
    cur := i
    held := { status := 0, cb := none, ctx := 0 }
    f := ⟨Config.opJEDECID, Config.dummyTx, Config.dummyTx, Config.dummyTx⟩
    ident := id
    busCfg := .ours
    phase := .idle
    devs := s.devs.set i d.released
    draws := s.draws + 8
    trace := s.trace ++ s.openingEvents i ++ [.cs i .asserted,
      .x (some [Config.opJEDECID, Config.dummyTx, Config.dummyTx, Config.dummyTx])
        [r, id.mfr, id.dev1, id.dev2], .cs i .deasserted] ++
      [.ret op ({ s with ident := id }.result op)] }

section
variable {op : HostOp} {i : Nat} {d : Device} {s : State}

/-- An identity operation runs its transaction, captures the three bytes and returns (R131, R132). -/
theorem exec_identOp {ins : Instr} (h : s.Ready i d) (hop : isIdentOp op)
    (hreq : hostRequest ins = some { op := op, i := i }) :
    ∃ r id, (d.sr.getLsbD 0 = false → id = d.ident) ∧
      exec ins s = .next (s.afterIdentOp op i d r id) := by
  let req : Request := { op := op, i := i }
  obtain ⟨r, id, answer, ident⟩ := Device.answers_jedecid_ident h.present (s.draws + 4)
    Config.dummyTx Config.dummyTx Config.dummyTx
  refine ⟨r, id, ident, ?_⟩
  have accepts : s.refusalOf req = none := by rcases hop with rfl | rfl <;> exact h.refusalOf_eq_none rfl rfl rfl
  have seg : Segment op 0 (transaction [.send .jedecid]) := by rcases hop with rfl | rfl <;> decide
  have last : microAt op 5 = some .ret := by rcases hop with rfl | rfl <;> rfl
  have sent := Steps.command (w := .jedecid Config.dummyTx Config.dummyTx Config.dummyTx)
    (State.accept_phase s req) h.accept_canOpen (seg.at 0 rfl) (seg.at 1 rfl) (seg.at 2 rfl)
    (seg.at 3 rfl) (seg.at 4 rfl) rfl rfl ((State.accept_draws s req).symm ▸ answer)
  rw [exec_returns (r := req) (k := 5) h hreq accepts sent rfl last (by decide)]
  rcases hop with rfl | rfl <;> rfl

theorem State.Ready.controlFrame_identOp (h : s.Ready i d) (r : Byte) (id : Ident) :
    s.ControlFrame i (s.afterIdentOp op i d r id) ∧
      (s.afterIdentOp op i d r id).devs[i]? = some d.released :=
  h.controlFrame rfl ⟨rfl, rfl, rfl, rfl, rfl⟩ rfl rfl rfl ⟨rfl, rfl, rfl, rfl⟩ rfl rfl

end

/-- Settles O27: the identity operation that returns the three bytes. -/
theorem jedecIdRead : Obligations.JedecIdRead := by
  intro i d s h
  obtain ⟨r, id, ident, run⟩ := exec_identOp (ins := .jedecIdRead i) h (.inl rfl) rfl
  obtain ⟨frame, device⟩ := h.controlFrame_identOp (op := .jedecIdRead) r id
  exact ⟨_, r, id, run, frame, device, ident, rfl, rfl, rfl, by
    simp [State.afterIdentOp, State.txnEvents]; exact ⟨rfl, rfl⟩⟩

/-- The signature test compares all three bytes (R132, D22). -/
theorem signatureMatches_eq (id : Ident) :
    signatureMatches id = decide (id = ⟨0x9D, 0x13, 0x44⟩) := by
  obtain ⟨m, d1, d2⟩ := id
  rw [Bool.eq_iff_iff]
  simp [signatureMatches, Config.sigMfr, Config.sigDev1, Config.sigDev2, and_assoc]
  exact and_congr decide_eq_true_iff (and_congr decide_eq_true_iff decide_eq_true_iff)

/-- Settles O28: the identity operation that returns the comparison. -/
theorem isValidChip : Obligations.IsValidChip := by
  intro i d s h
  obtain ⟨r, id, ident, run⟩ := exec_identOp (ins := .isValidChip i) h (.inr rfl) rfl
  obtain ⟨frame, device⟩ := h.controlFrame_identOp (op := .isValidChip) r id
  refine ⟨_, r, id, run, frame, device, ident, rfl, rfl, rfl, ?_⟩
  rw [← signatureMatches_eq]
  simp [State.afterIdentOp, State.txnEvents]
  exact ⟨rfl, rfl⟩

end Sys2Proof.Machine
end

section
/-! PROOFS. Page reads (43_page_transfer.md R141, R142): one `READ` transaction into the host's buffer, and the transaction that stays open. -/

namespace Sys2Proof.Machine

/-- The wire address of a flash address, as a number (R55, R121). -/
theorem toNat_setWidth_eq_flashAddr (a : Addr) : (a.setWidth 24 : WireAddr).toNat = flashAddr a :=
  BitVec.toNat_setWidth ..

/-- The state after a blocking read of the running operation: `rx` is in the host's buffer, PHASE is at step `k` (R141). -/
def State.afterRead (op : HostOp) (k : Nat) (d : Device) (rx0 rx : List Byte) (s : State) : State :=
  { s with
    f := buildFrame Config.opREAD s.addr, phase := .busy op k, busCfg := .ours
    devs := s.devs.set s.cur d.released, ram := memWrite s.ram s.ptr rx
    draws := s.draws + 8 + 3 * s.cnt.toNat
    trace := s.trace ++ s.txnEvents s.cur
      [.x (some (buildFrame Config.opREAD s.addr).bytes) rx0, .x none rx] }

/-- The bytes `rx` are what device `d` answers for `n` addresses from flash address `a` on, where the spec gives its answer (R201, R206). -/
def Device.Reads (d : Device) (a : Addr) (n : Nat) (rx : List Byte) : Prop :=
  rx.length = n ∧ (d.sr.getLsbD 0 = false → ∀ j < n, d.answersAt (flashAddr a + j) →
    rx[j]? = some (d.mem.read ((flashAddr a + j) % 1048576)))

/-- What an idle device that has received the frame of a `READ` answers (R201). -/
theorem Device.reads_answers {d : Device} (present : d.present = true) (a : Addr) {n k : Nat} {tx : List Byte}
    (hl : tx.length = n) :
    d.Reads a n ((d.select.receive (buildFrame Config.opREAD a).bytes).answers k tx) := by
  refine ⟨(Device.answers_length _ _ _).trans hl, fun idle j hj ha => ?_⟩
  rw [← toNat_setWidth_eq_flashAddr] at ha ⊢
  rw [buildFrame_bytes]
  exact Device.answers_data present idle _ k (by omega) ha

section
variable {s : State} {op : HostOp} {k : Nat} {x : Inst} {d : Device}

/-- A blocking read from the addressed device into the buffer (R141). -/
theorem Steps.read (hp : s.phase = .busy op k) (ho : s.CanOpen s.cur x d)
    (seg : Segment op k (transaction [.send .read, .dataIn])) (pos : 1 ≤ s.cnt.toNat) :
    ∃ rx0 rx, d.Reads s.addr s.cnt.toNat rx ∧ Steps 6 s (s.afterRead op (k + 6) d rx0 rx) := by
  refine ⟨d.select.answers (s.draws + 4) (buildFrame Config.opREAD s.addr).bytes,
    (d.select.receive (buildFrame Config.opREAD s.addr).bytes).answers
      (s.draws + 8 + s.cnt.toNat + s.cnt.toNat) (freeBytes (s.draws + 8) s.cnt.toNat),
    Device.reads_answers ho.present s.addr (freeBytes_length _ _), ?_⟩
  refine (Steps.readIn hp ho (seg.at 0 rfl) (seg.at 1 rfl) (seg.at 2 rfl) (seg.at 3 rfl) (seg.at 4 rfl)
    (seg.at 5 rfl) rfl pos rfl (buildFrame_bytes _ _) rfl rfl rfl).of_eq ?_
  simp [State.afterRead, State.txnEvents]

/-- The bytes of a read are in the buffer, and no other byte of the memory has changed (R141). -/
theorem Device.Reads.memory {m : Memory} (hm : m.wf = true) {a : Addr} {p : Ptr} {n : Nat} {rx : List Byte}
    (hn : n ≤ 4294967296) (h : d.Reads a n rx) :
    (∀ j < n, rx[j]? = some ((memWrite m p rx).read (ptrAt p j))) ∧
      (∀ b, (∀ j < n, ptrAt p j ≠ b) → (memWrite m p rx).read b = m.read b) ∧
      (d.sr.getLsbD 0 = false → ∀ j < n, d.answersAt (flashAddr a + j) →
        (memWrite m p rx).read (ptrAt p j) = d.mem.read ((flashAddr a + j) % 1048576)) := by
  obtain ⟨length, bytes⟩ := h
  refine ⟨fun j hj => ?_, fun b hb => memWrite_read_outside hm p rx b (length ▸ hb), fun idle j hj ha => ?_⟩
  · have byte := List.getElem?_eq_getElem (l := rx) (i := j) (by omega)
    rw [memWrite_read hm p rx (by omega) byte]
    exact byte
  · exact memWrite_read hm p rx (by omega) (bytes idle j hj ha)

end

section
variable {s : State} {d : Device} {r : Request}

/-- A page operation of a ready instance with a good length, and a callback where it needs one, is accepted (R223). -/
theorem State.Ready.accepts_page (h : s.Ready r.i d) (lo : 1 ≤ r.len.toNat) (hi : r.len.toNat ≤ 256)
    (hcb : isAsync r.op = true → r.cb ≠ none) : s.refusalOf r = none :=
  State.refusalOf_eq_none_iff.2 ⟨h.exists_, h.slot, fun _ => h.begun, fun _ => ⟨lo, hi⟩, hcb⟩

end

/-- Settles O29: one read transaction and the return. -/
theorem pageReadSync : Obligations.PageReadSync := by
  intro i a p len d s h hm lo hi
  let r : Request := { op := .pageReadSync, i := i, addr := a, p := p, len := len }
  have seg : Segment .pageReadSync 0 (transaction [.send .read, .dataIn]) := by decide
  obtain ⟨rx0, rx, reads, run⟩ := Steps.read (s := s.accept r) (State.accept_phase s r) h.accept_canOpen seg lo
  obtain ⟨inside, outside, content⟩ := reads.memory (p := p) hm.1 (show len.toNat ≤ _ by omega)
  have done := exec_returns (ins := .pageReadSync i a p len) (r := r) (k := 6) h rfl
    (h.accepts_page lo hi nofun) run rfl rfl (by decide)
  refine ⟨((s.accept r).afterRead .pageReadSync 6 d rx0 rx).returnOp .pageReadSync, rx0, rx, done,
    h.syncFrame rfl rfl rfl rfl rfl rfl rfl rfl, ⟨rfl, rfl, rfl, rfl, rfl, rfl⟩, rfl,
    List.getElem?_set_self h.lt, rfl, rfl, reads.1, rfl, inside, outside, content⟩

end Sys2Proof.Machine
end

section
/-! PROOFS. Writes and erases (42_status_control.md, 43_page_transfer.md R143, 45_erase.md R165): the wait and `WREN` that prepare the command, what the command does to the prepared device, and the trailing wait on a device that finishes during the first sleep; and the commands all this puts on the wire. -/

namespace Sys2Proof.Machine

/-! ## The commands of one transaction (R92) -/

section
variable {s : State} {i : Nat} {op : Byte} {bs rx : List Byte} {es xs : List Event}

/-- The opening of a transaction sends nothing. -/
theorem scanTrace_openingEvents (es : List Event) :
    (scanTrace (es ++ s.openingEvents i)).2 = (scanTrace es).2 := by
  rw [scanTrace_append, State.openingEvents]
  split <;> rfl

/-- A transaction of one exchange sends the exchange's first byte. -/
theorem wireCmds_txn (es : List Event) :
    wireCmds i (es ++ s.txnEvents i [.x (some (op :: bs)) rx]) = wireCmds i es ++ [op] := by
  have sent : (scanTrace (es ++ s.txnEvents i [.x (some (op :: bs)) rx])).2 =
      (scanTrace es).2 ++ [(i, op)] := by
    rw [State.txnEvents, ← List.append_assoc, scanTrace_append, ← scanTrace_openingEvents (s := s) (i := i)]
    rfl
  rw [wireCmds_sent sent, if_pos rfl]

/-- Nor does a data phase, blocking or sent, send a further command: the chip select waits for no opcode. -/
theorem wireCmds_txn_data (es : List Event) (data : Option (List Byte)) (rx' : List Byte) :
    wireCmds i (es ++ s.txnEvents i [.x (some (op :: bs)) rx, .x data rx']) = wireCmds i es ++ [op] := by
  have sent : (scanTrace (es ++ s.txnEvents i [.x (some (op :: bs)) rx, .x data rx'])).2 =
      (scanTrace es).2 ++ [(i, op)] := by
    rw [State.txnEvents, ← List.append_assoc, scanTrace_append, ← scanTrace_openingEvents (s := s) (i := i)]
    rcases data with - | - | ⟨b, bs'⟩ <;> rfl
  rw [wireCmds_sent sent, if_pos rfl]

theorem wireCmds_poll (es : List Event) (r v : Byte) :
    wireCmds i (es ++ s.pollEvents i r v) = wireCmds i es ++ [0x05] := wireCmds_txn es

theorem wireCmds_enable (es : List Event) (r : Byte) :
    wireCmds i (es ++ s.enableEvents i r) = wireCmds i es ++ [0x06] := by
  rw [State.enableEvents, ← List.append_assoc, ← wireCmds_txn (s := s) es]
  exact wireCmds_congr (by rw [scanTrace_append]; rfl) i

/-- Sleeps and the moves of the devices are no commands. -/
theorem wireCmds_slept (es : List Event) (j : Nat) :
    wireCmds i (es ++ [.sms Config.tPollMs, .fin j]) = wireCmds i es :=
  wireCmds_congr (by rw [scanTrace_append]; rfl) i

end

/-! ## The wait and the `WREN` before the command -/

/-- The state after the wait and the `WREN` of a write or erase, on the idle device `d` (R143, R165). -/
def State.prepared (op : HostOp) (k : Nat) (d : Device) (s : State) : State :=
  { s with
    f := { s.f with b0 := Config.opWREN, b1 := Config.dummyTx }, st := d.sr, phase := .busy op k
    busCfg := .ours, devs := s.devs.set s.cur d.enabled, draws := s.draws + 6
    trace := s.trace ++ s.pollEvents s.cur (Config.freeByte (s.draws + 2)) d.sr ++
      s.enableEvents s.cur (d.select.miso (s.draws + 5)) }

section
variable {s : State} {op : HostOp} {k : Nat} {x : Inst} {d : Device}

/-- A write or erase prepares its device: one poll, the `WREN` and the delay (R143, R165). -/
theorem Steps.prepared (hp : s.phase = .busy op k) (ho : s.CanOpen s.cur x d)
    (seg : Segment op k (waiting ++ enabling)) (idle : d.sr.getLsbD 0 = false) :
    Steps 12 s (s.prepared op (k + 12) d) := by
  have opens : (s.afterRdsr op (k + 6) d).CanOpen (s.afterRdsr op (k + 6) d).cur x d.released :=
    ho.next rfl rfl rfl rfl rfl ho.present
  refine ((Steps.waited hp ho seg.left idle).trans
    (Steps.enabled (s := s.afterRdsr op (k + 6) d) rfl opens seg.right)).of_eq ?_
  have idle' : d.released.sr.getLsbD 0 = false := idle
  unfold State.afterEnable
  rw [if_neg (by rw [idle']; exact Bool.false_ne_true)]
  simp [State.prepared, State.afterRdsr, State.enableEvents]
  exact ⟨rfl, rfl⟩

/-- The prepared device has its latch set and is idle. -/
theorem Device.enabled_status (idle : d.sr.getLsbD 0 = false) :
    d.enabled.sr.getLsbD 0 = false ∧ d.enabled.sr.getLsbD 1 = true := by
  have bits : ∀ v : Byte, v.getLsbD 0 = false →
      (v ||| 0x02).getLsbD 0 = false ∧ (v ||| 0x02).getLsbD 1 = true := by decide
  exact bits d.sr idle

/-- The device of a job that has begun (R194, R199). -/
def Device.started (d : Device) (j : Job) : Device := { d with job := some j, sr := d.sr ||| 0x03, rxq := [] }

/-- A write or erase starts its job on the prepared device unless protection refuses it (R194; log 43). -/
theorem Device.act_enabled {w : Wire} {j : Job} (hj : startedJob w = some j)
    (idle : d.sr.getLsbD 0 = false) :
    (d.enabled.act w).released = if d.enabled.protects w = true then d.enabled else d.started j := by
  obtain ⟨idle', latched⟩ := Device.enabled_status idle
  have flags : d.sr ||| 0x02 ||| 0x01 = d.sr ||| 0x03 := BitVec.or_assoc ..
  rw [Device.act_released_of_startedJob hj]
  cases hq : d.enabled.protects w with
  | false =>
    rw [if_pos ⟨idle', latched, rfl⟩, if_neg Bool.false_ne_true]
    unfold Device.started Device.enabled
    rw [← flags]
  | true => rw [if_neg fun e => absurd e.2.2 (by decide), if_pos rfl]; rfl

/-- While the job runs the device is busy. -/
theorem Device.started_busy (j : Job) : (d.started j).sr.getLsbD 0 = true := by
  have bit : ∀ v : Byte, (v ||| 0x03).getLsbD 0 = true := by decide
  exact bit d.sr

/-- The array after a job of the device (R195). -/
def Device.memAfter (d : Device) (k : Nat) (j : Job) : Memory := (d.applyJob k j).mem

/-- The device of a program or erase that has finished: the array is changed, WIP and WEL are clear (R195). -/
theorem Device.finish_started {j : Job} (k : Nat) (hj : ∀ v, j ≠ .writeSR v) :
    (d.started j).finish k =
      { d with mem := d.memAfter k j, sr := d.sr &&& 0xFC, job := none, rxq := [] } := by
  have bits : ∀ v : Byte, clearWipWel (v ||| 0x03) = v &&& 0xFC := by decide
  rw [← bits d.sr]
  cases j with
  | writeSR v => exact absurd rfl (hj v)
  | _ => rfl

/-! ## The command and the trailing wait -/

/-- A page program of the host's bytes, sent to the device `d` (R143). -/
theorem Steps.programs (hp : s.phase = .busy op k) (ho : s.CanOpen s.cur x d)
    (seg : Segment op k (transaction [.send .pp, .dataOut])) (pos : 1 ≤ s.cnt.toNat) :
    ∃ q q', Steps 6 s (s.afterTxn op (k + 6)
      (d.act (.pp (s.addr.setWidth 24) (memRead s.ram s.ptr s.cnt.toNat))).released
      (buildFrame Config.opPP s.addr)
      [.x (some (buildFrame Config.opPP s.addr).bytes) q, .x (some (memRead s.ram s.ptr s.cnt.toNat)) q']
      (s.draws + 8 + 2 * s.cnt.toNat)) := by
  refine ⟨d.select.answers (s.draws + 4) (buildFrame Config.opPP s.addr).bytes,
    (d.select.receive (buildFrame Config.opPP s.addr).bytes).answers (s.draws + 8 + s.cnt.toNat)
      (memRead s.ram s.ptr s.cnt.toNat), ?_⟩
  refine (Steps.programOut hp ho (seg.at 0 rfl) (seg.at 1 rfl) (seg.at 2 rfl) (seg.at 3 rfl)
    (seg.at 4 rfl) (seg.at 5 rfl) rfl pos rfl (buildFrame_bytes _ _) rfl rfl rfl).of_eq ?_
  simp [State.afterTxn, State.txnEvents]

/-- The device after a program or erase that made its array `m`. -/
def Device.rewritten (d : Device) (m : Memory) : Device :=
  { d with mem := m, sr := d.sr &&& 0xFC, job := none, rxq := [] }

/-- A rewritten device is idle. -/
theorem Device.rewritten_idle (m : Memory) : (d.rewritten m).sr.getLsbD 0 = false := by
  have bit : ∀ v : Byte, (v &&& 0xFC).getLsbD 0 = false := by decide
  exact bit d.sr

/-- The state after the trailing wait, on a device that finished during its first sleep (R128, R195). -/
def State.finished (op : HostOp) (k : Nat) (d : Device) (m : Memory) (rest : List Input) (s : State) : State :=
  { s with
    f := { s.f with b0 := Config.opRDSR, b1 := Config.dummyTx }, st := d.sr &&& 0xFC
    phase := .busy op k, busCfg := .ours, devs := s.devs.set s.cur (d.rewritten m)
    draws := s.draws + 9, inputs := rest
    trace := s.trace ++ s.pollEvents s.cur (Config.freeByte (s.draws + 2)) (d.sr ||| 0x03) ++
      [.sms Config.tPollMs, .fin s.cur] ++
      s.pollEvents s.cur (Config.freeByte (s.draws + 7)) (d.sr &&& 0xFC) }

/-- A device with a job takes its step `finish` (R195). -/
theorem State.finish_of_job {i : Nat} (hd : s.devs[i]? = some d) (hj : d.job ≠ none) :
    s.finish i = { s with
      draws := s.draws + 1, devs := s.devs.set i (d.finish s.draws), trace := s.trace ++ [.fin i] } := by
  simp [State.finish, hd, hj, State.modDev, State.emit, modify_of_getElem? hd]

/-- The trailing wait of a write or erase whose device finishes during the first sleep. -/
theorem Steps.finished {j : Job} {rest : List Input} (hp : s.phase = .busy op k)
    (ho : s.CanOpen s.cur x (d.started j)) (seg : Segment op k waiting) (hj : ∀ v, j ≠ .writeSR v)
    (hi : s.inputs = .env (.finish s.cur) :: rest) :
    Steps 12 s (s.finished op (k + 6) d (d.memAfter (s.draws + 4) j) rest) := by
  let asleep : State := { (s.afterRdsr op (k + 5) (d.started j)).sleep op (k + 5) with inputs := rest }
  have device : asleep.devs[s.cur]? = some (d.started j) :=
    List.getElem?_set_self (List.getElem?_eq_some_iff.1 ho.device).1
  have woken : asleep.finish s.cur = _ := State.finish_of_job device nofun
  rw [Device.finish_started _ hj] at woken
  have opens : (asleep.finish s.cur).CanOpen (asleep.finish s.cur).cur x
      (d.rewritten (d.memAfter (s.draws + 4) j)) := by
    rw [woken]
    exact ho.next rfl rfl rfl rfl (List.set_set ..) ho.present
  have slept := Steps.slept hp ho seg (Device.started_busy j) hi
  have waited := Steps.waited (s := asleep.finish s.cur) (by rw [woken]; rfl) opens seg
    (Device.rewritten_idle _)
  refine (slept.trans waited).of_eq ?_
  rw [woken]
  simp [asleep, State.finished, State.afterRdsr, State.sleep, State.emit, State.goto, Device.rewritten]
  exact ⟨rfl, rfl⟩

/-- The state after a whole write or erase whose command's exchanges were `xs`, on a device that was idle and finished during the first sleep: `n` values were drawn up to the command, `r` are the bytes in the opcodes' positions (R143, R165). -/
def State.written (op : HostOp) (k : Nat) (d : Device) (m : Memory) (f : Frame) (xs : List Event)
    (r : Fin 4 → Byte) (n : Nat) (rest : List Input) (s : State) : State :=
  { s with
    f := { f with b0 := Config.opRDSR, b1 := Config.dummyTx }, st := d.sr &&& 0xFC
    phase := .busy op k, busCfg := .ours, devs := s.devs.set s.cur (d.rewritten m)
    draws := n + 9, inputs := rest
    trace := s.trace ++ s.writeEvents s.cur xs r d.sr (d.sr ||| 0x03) (d.sr &&& 0xFC) }

/-- The bytes in the opcodes' positions of a write or erase. -/
def State.opcodeBytes (d : Device) (n : Nat) (s : State) : Fin 4 → Byte :=
  List.get [Config.freeByte (s.draws + 2), d.select.miso (s.draws + 5), Config.freeByte (n + 2),
    Config.freeByte (n + 7)]

/-- After the `WREN` the command's transaction opens as the poll's did. -/
theorem State.CanOpen.prepared (ho : s.CanOpen s.cur x d) :
    (s.prepared op k d).CanOpen (s.prepared op k d).cur x d.enabled :=
  ho.next rfl rfl rfl rfl rfl ho.present

/-- A whole write or erase (R143, R165): prepared, commanded, and waited for. -/
theorem Steps.written {c n : Nat} {f : Frame} {xs : List Event} {w : Wire} {j : Job} {rest : List Input}
    (hp : s.phase = .busy op k) (ho : s.CanOpen s.cur x d) (before : Segment op k (waiting ++ enabling))
    (after : Segment op (k + 12 + c) waiting) (hw : startedJob w = some j) (hj : ∀ v, j ≠ .writeSR v)
    (idle : d.sr.getLsbD 0 = false) (accepts : d.enabled.protects w = false)
    (hi : s.inputs = .env (.finish s.cur) :: rest)
    (command : Steps c (s.prepared op (k + 12) d) ((s.prepared op (k + 12) d).afterTxn op (k + 12 + c)
      (d.enabled.act w).released f xs n)) :
    Steps (12 + c + 12) s (s.written op (k + 12 + c + 6) d (d.memAfter (n + 4) j) f xs
      (s.opcodeBytes d n) n rest) := by
  have device := Device.act_enabled hw idle
  rw [accepts, if_neg Bool.false_ne_true] at device
  rw [device] at command
  let sent := (s.prepared op (k + 12) d).afterTxn op (k + 12 + c) (d.started j) f xs n
  have opens : sent.CanOpen sent.cur x (d.started j) :=
    ho.next rfl rfl rfl rfl (List.set_set ..) ho.present
  refine (((Steps.prepared hp ho before idle).trans command).trans
    (Steps.finished (s := sent) rfl opens after hj hi)).of_eq ?_
  simp [sent, State.finished, State.afterTxn, State.prepared, State.written, State.writeEvents]
  exact rfl

end

end Sys2Proof.Machine
end

section
/-! PROOFS. Page writes and erases of the host (43_page_transfer.md R143, 45_erase.md R165 to R168): what the array holds afterwards, the whole operations, and what protection does to them (log 43). -/

namespace Sys2Proof.Machine

/-! ## What the array holds afterwards (R203, R207 to R209) -/

/-- The writes of a page program of the host's bytes (R203). -/
theorem progWrites_memRead (a : Nat) (ram : Memory) (p : Ptr) {n : Nat} (hn : n ≤ 256) :
    progWrites a (memRead ram p n) = (List.range n).map fun k => (progTarget a k, ram.read (ptrAt p k)) := by
  have all : n - Config.pageSize = 0 := Nat.sub_eq_zero_of_le hn
  refine List.ext_getElem (by simp [progWrites_length, memRead_length, hn]) fun k _ _ => ?_
  simp [progWrites, all, memRead]

theorem mem_progWrites_memRead {a : Nat} {ram : Memory} {p : Ptr} {n : Nat} (hn : n ≤ 256) {w : Nat × Byte} :
    w ∈ progWrites a (memRead ram p n) ↔ ∃ k < n, (progTarget a k, ram.read (ptrAt p k)) = w := by
  rw [progWrites_memRead a ram p hn]
  simp only [List.mem_map, List.mem_range]

/-- Inside the array a program's target counts on inside the page (R203, R206). -/
theorem progTarget_mod (a k : Nat) : progTarget a k % 1048576 =
    a % 1048576 - a % 1048576 % 256 + (a % 1048576 % 256 + k) % 256 := by
  simp only [progTarget, pageStart, pageOffset, Config.pageSize]
  omega

/-- A program stays in the page of its address, so all its targets are answered as the address is (R206). -/
theorem Device.answersAt_progTarget {d : Device} {a : Nat} (h : d.answersAt a) (k : Nat) :
    d.answersAt (progTarget a k) := by
  refine h.imp_left fun lt => ?_
  simp only [progTarget, pageStart, pageOffset, Config.pageSize, Config.capacity] at lt ⊢
  omega

section
variable {d : Device} {k : Nat}

theorem Device.memAfter_prog (ws : List (Nat × Byte)) :
    d.memAfter k (.prog ws) = ws.foldl (d.programByte k) d.mem := rfl

/-- A page program of the host's bytes, byte by byte (R203, R204). -/
theorem Device.programmed_memAfter (wf : d.mem.wf = true) (ram : Memory) {a : Addr} {p : Ptr} {len : Len}
    (hn : len.toNat ≤ 256) (ha : d.answersAt (flashAddr a)) :
    d.programmed ram a p len
      (d.memAfter k (.prog (progWrites (flashAddr a) (memRead ram p len.toNat)))) := by
  have distinct : ((progWrites (flashAddr a) (memRead ram p len.toNat)).map fun w => w.1 % 1048576).Nodup := by
    rw [progWrites_memRead _ _ _ hn, List.map_map]
    refine List.pairwise_map.2 (List.nodup_range.imp_of_mem fun hx hy ne e => ne ?_)
    simp only [Function.comp, progTarget_mod] at e
    rw [List.mem_range] at hx hy
    omega
  have answered : ∀ w ∈ progWrites (flashAddr a) (memRead ram p len.toNat), d.answersAt w.1 := by
    intro w hw
    obtain ⟨j, -, rfl⟩ := (mem_progWrites_memRead hn).1 hw
    exact Device.answersAt_progTarget ha j
  obtain ⟨inside, outside⟩ := Device.read_programmed (k := k) wf distinct answered
  rw [Device.memAfter_prog]
  refine ⟨fun j hj => ?_, fun b hb => outside b fun w hw => ?_⟩
  · have byte := inside _ ((mem_progWrites_memRead hn).2 ⟨j, hj, rfl⟩)
    rw [progTarget_mod] at byte
    exact byte
  · obtain ⟨j, hj, rfl⟩ := (mem_progWrites_memRead hn).1 hw
    rw [progTarget_mod]
    exact hb j hj

/-- Erasing the unit that holds an address, inside the array or wrapped into it (R206 to R208). -/
theorem Device.read_eraseUnit_at (ok : d.ok) {size a : Nat} (hs : size = 4096 ∨ size = 65536)
    (ha : d.answersAt a) (b : Nat) : (d.eraseUnit k size (a / size)).read b =
      if b / size = a % 1048576 / size then 0xFF else d.mem.read b := by
  obtain ⟨wf, -, -⟩ := ok
  have unit : a / size % (1048576 / size) = a % 1048576 / size := by rcases hs with rfl | rfl <;> omega
  have inside : a < 1048576 → a / size * size < 1048576 := by rcases hs with rfl | rfl <;> omega
  rw [Device.read_eraseUnit wf (ha.imp_left inside) (by rcases hs with rfl | rfl <;> omega), unit]

end

/-! ## The whole operations -/

/-- The command of an erase (R166 to R168). -/
def eraseCmd : HostOp → Option Cmd
  | .sectorErase => some .se
  | .blockErase => some .be
  | .chipErase => some .ce
  | _ => none

/-- The stretches of an erase (R165). -/
theorem segments_erase {op : HostOp} {c : Cmd} (h : eraseCmd op = some c) :
    Segment op 0 (waiting ++ enabling) ∧ Segment op 12 (transaction [.send c]) ∧
      Segment op 17 waiting ∧ microAt op 23 = some .ret := by
  cases op <;> cases h <;> decide

/-- The stretches of a page write (R143). -/
theorem segments_pageWriteSync :
    Segment .pageWriteSync 0 (waiting ++ enabling) ∧
      Segment .pageWriteSync 12 (transaction [.send .pp, .dataOut]) ∧
      Segment .pageWriteSync 18 waiting ∧ microAt .pageWriteSync 24 = some .ret := by
  decide

section
variable {s : State} {d : Device} {r : Request} {w : Wire} {c : Cmd} {rest : List Input}

/-- The frame an accepted erase builds is that of its wire command (R166 to R168). -/
theorem sent_erase (hc : eraseCmd r.op = some c) (hw : writeCommand s.ram r = some w) {f : Frame} :
    w.wellFormed = true ∧
      c.sent (State.loadFrame c { s.accept r with f := f }) = encodeFrame w := by
  cases hop : r.op <;> rw [hop] at hc <;> cases hc <;> simp only [writeCommand, hop] at hw <;> cases hw
  · exact ⟨rfl, by simp [Cmd.sent, State.loadFrame, State.accept, State.enter, hop, buildFrame_bytes]; rfl⟩
  · exact ⟨rfl, by simp [Cmd.sent, State.loadFrame, State.accept, State.enter, hop, buildFrame_bytes]; rfl⟩
  · exact ⟨rfl, rfl⟩

/-- A program or erase is no write of the status register. -/
theorem startedJob_of_writeCommand {j : Job} (hw : writeCommand s.ram r = some w)
    (hj : startedJob w = some j) (v : Byte) : j ≠ .writeSR v := by
  cases hop : r.op <;> simp only [writeCommand, hop] at hw <;> cases hw <;> cases hj <;> exact nofun

/-- The command transaction of an accepted erase on its prepared device. -/
theorem Steps.erase (h : s.Ready r.i d) (hc : eraseCmd r.op = some c) (hw : writeCommand s.ram r = some w) :
    ∃ q, q.length = (encodeFrame w).length ∧
      Steps 5 ((s.accept r).prepared r.op 12 d) (((s.accept r).prepared r.op 12 d).afterTxn r.op 17
        (d.enabled.act w).released (((s.accept r).prepared r.op 12 d).loadFrame c)
        [.x (some (encodeFrame w)) q] ((s.accept r).draws + 6 + 2 * (encodeFrame w).length)) := by
  obtain ⟨fits, sent⟩ := sent_erase hc hw (f := ((s.accept r).prepared r.op 12 d).f)
  obtain ⟨-, command, -, -⟩ := segments_erase hc
  have captures : ∀ rx t, State.capture c rx t = t := fun _ _ => by
    cases hop : r.op <;> rw [hop] at hc <;> cases hc <;> rfl
  exact ⟨_, Device.answers_length _ _ _, Steps.txn (s := (s.accept r).prepared r.op 12 d) rfl
    h.accept_canOpen.prepared command fits sent rfl captures⟩

/-- A whole erase on an idle device that takes it and finishes during the first sleep (R165). -/
theorem exec_erase {ins : Instr} {j : Job} (h : s.Ready r.i d) (hreq : hostRequest ins = some r)
    (hc : eraseCmd r.op = some c) (hw : writeCommand s.ram r = some w) (hj : startedJob w = some j)
    (idle : d.sr.getLsbD 0 = false) (accepts : d.enabled.protects w = false)
    (hi : s.inputs = .env (.finish r.i) :: rest) :
    ∃ q n, q.length = (encodeFrame w).length ∧
      exec ins s = .next (((s.accept r).written r.op 23 d (d.memAfter (n + 4) j)
        (((s.accept r).prepared r.op 12 d).loadFrame c) [.x (some (encodeFrame w)) q]
        ((s.accept r).opcodeBytes d n) n rest).returnOp r.op) := by
  obtain ⟨before, -, after, ret⟩ := segments_erase hc
  obtain ⟨q, length, command⟩ := Steps.erase h hc hw
  have accepted : s.refusalOf r = none := by
    refine h.refusalOf_eq_none rfl ?_ ?_ <;> cases hop : r.op <;> rw [hop] at hc <;> cases hc <;> rfl
  have run := Steps.written (State.accept_phase s r) h.accept_canOpen before after hj
    (startedJob_of_writeCommand hw hj) idle accepts (by simpa using hi) command
  exact ⟨q, _, length, exec_returns h hreq accepted run rfl ret (by decide)⟩

end

/-- Settles O44: the erase runs as R165 says, and the job it starts erases the sector. -/
theorem sectorErase : Obligations.SectorErase := by
  intro i a d s rest h ok idle accepts hi
  let r : Request := { op := .sectorErase, i := i, addr := a }
  obtain ⟨q, n, -, run⟩ := exec_erase (ins := .sectorErase i a) (r := r) h rfl rfl rfl rfl idle accepts hi
  refine ⟨_, d.memAfter (n + 4) (.eraseSector ((a.setWidth 24 : WireAddr).toNat / 4096)),
    (s.accept r).opcodeBytes d n, q, run, h.syncFrame rfl rfl rfl rfl rfl rfl rfl rfl,
    rfl, rfl, rfl, rfl, rfl, rfl, rfl, rfl, List.getElem?_set_self h.lt, rfl, rfl, ?trace, fun ha b => ?array⟩
  case trace => rw [buildFrame_bytes]; rfl
  case array =>
    rw [toNat_setWidth_eq_flashAddr]
    exact Device.read_eraseUnit_at ok (.inl rfl) ha b

/-- Settles O45: the erase runs as R165 says, and the job it starts erases the block. -/
theorem blockErase : Obligations.BlockErase := by
  intro i a d s rest h ok idle accepts hi
  let r : Request := { op := .blockErase, i := i, addr := a }
  obtain ⟨q, n, -, run⟩ := exec_erase (ins := .blockErase i a) (r := r) h rfl rfl rfl rfl idle accepts hi
  refine ⟨_, d.memAfter (n + 4) (.eraseBlock ((a.setWidth 24 : WireAddr).toNat / 65536)),
    (s.accept r).opcodeBytes d n, q, run, h.syncFrame rfl rfl rfl rfl rfl rfl rfl rfl,
    rfl, rfl, rfl, rfl, rfl, rfl, rfl, rfl, List.getElem?_set_self h.lt, rfl, rfl, ?trace, fun ha b => ?array⟩
  case trace => rw [buildFrame_bytes]; rfl
  case array =>
    rw [toNat_setWidth_eq_flashAddr]
    exact Device.read_eraseUnit_at ok (.inr rfl) ha b

/-- Settles O46: the erase whose command is one byte, and the job it starts erases every byte. -/
theorem chipErase : Obligations.ChipErase := by
  intro i d s rest h ok idle accepts hi
  let r : Request := { op := .chipErase, i := i }
  obtain ⟨q, n, length, run⟩ := exec_erase (ins := .chipErase i) (r := r) h rfl rfl rfl rfl idle accepts hi
  obtain ⟨b, rfl⟩ := List.length_eq_one_iff.1 length
  refine ⟨_, d.memAfter (n + 4) .eraseChip, (s.accept r).opcodeBytes d n, b, run,
    h.syncFrame rfl rfl rfl rfl rfl rfl rfl rfl, rfl, ⟨rfl, rfl, rfl, rfl⟩, rfl, rfl, rfl,
    List.getElem?_set_self h.lt, rfl, rfl, rfl, fun b => ?_⟩
  obtain ⟨wf, -, -⟩ := ok
  exact Memory.read_erase (fun _ => true) wf b

/-- A whole page write of the running operation (R143), from any of its steps on. -/
theorem Steps.pageWritten {s : State} {op : HostOp} {k : Nat} {x : Inst} {d : Device} {rest : List Input}
    (hp : s.phase = .busy op k) (ho : s.CanOpen s.cur x d) (seg : Segment op k pageWriting) (pos : 1 ≤ s.cnt.toNat)
    (idle : d.sr.getLsbD 0 = false)
    (accepts : d.enabled.protects (.pp (s.addr.setWidth 24) (memRead s.ram s.ptr s.cnt.toNat)) = false)
    (hi : s.inputs = .env (.finish s.cur) :: rest) : ∃ j q q' r n,
      Steps 30 s (s.written op (k + 24) d
        (d.memAfter j (.prog (progWrites (flashAddr s.addr) (memRead s.ram s.ptr s.cnt.toNat))))
        (buildFrame Config.opPP s.addr)
        [.x (some (buildFrame Config.opPP s.addr).bytes) q, .x (some (memRead s.ram s.ptr s.cnt.toNat)) q']
        r n rest) := by
  have before : Segment op k (waiting ++ enabling) := seg.left.left
  have command : Segment op (k + 12) (transaction [.send .pp, .dataOut]) := seg.left.right
  have after : Segment op (k + 18) waiting := seg.right
  obtain ⟨q, q', sent⟩ := Steps.programs (s := s.prepared op (k + 12) d) rfl ho.prepared command pos
  have written := Steps.written hp ho before after rfl (fun v e => by cases e) idle accepts hi sent
  rw [toNat_setWidth_eq_flashAddr] at written
  exact ⟨_, q, q', _, _, written⟩

/-- Settles O31: accepted, the operation is one page write and the return. -/
theorem pageWriteSync : Obligations.PageWriteSync := by
  intro i a p len d s rest h ok idle lo hi accepts hin
  let r : Request := { op := .pageWriteSync, i := i, addr := a, p := p, len := len }
  have seg : Segment .pageWriteSync 0 pageWriting := by decide
  obtain ⟨j, q, q', bytes, n, written⟩ := Steps.pageWritten (s := s.accept r) (State.accept_phase s r)
    h.accept_canOpen seg lo idle accepts hin
  have run := exec_returns (ins := .pageWriteSync i a p len) (r := r) (k := 24) h rfl (h.accepts_page lo hi nofun)
    written rfl rfl (by decide)
  exact ⟨_, _, bytes, q, q', run, h.syncFrame rfl rfl rfl rfl rfl rfl rfl rfl, ⟨rfl, rfl, rfl, rfl, rfl, rfl⟩, rfl,
    rfl, List.getElem?_set_self h.lt, rfl, rfl, rfl, Device.programmed_memAfter ok.1 s.ram hi⟩

/-! ## Protection is silent (R221, R266; log 43) -/

section
variable {s : State} {d : Device} {r : Request} {w : Wire}

/-- The command of an accepted page write or erase on its prepared device, with the stretches around it: `n` steps that send the one command (R143, R165). -/
structure State.Commands (r : Request) (d : Device) (w : Wire) (n : Nat) (f : Frame) (xs : List Event) (m : Nat)
    (s : State) : Prop where
  before : Segment r.op 0 (waiting ++ enabling)
  after : Segment r.op (12 + n) waiting
  ret : microAt r.op (18 + n) = some .ret
  short : n ≤ 6
  sends : ∀ es, wireCmds r.i (es ++ s.txnEvents r.i xs) = wireCmds r.i es ++ (encodeFrame w).take 1
  steps : Steps n ((s.accept r).prepared r.op 12 d) (((s.accept r).prepared r.op 12 d).afterTxn r.op (12 + n)
    (d.enabled.act w).released f xs m)

/-- The operations with such a command are the erases and the page write. -/
theorem op_of_writeCommand (hw : writeCommand s.ram r = some w) :
    (∃ c, eraseCmd r.op = some c) ∨ r.op = .pageWriteSync := by
  unfold writeCommand at hw
  split at hw
  · next hop => exact .inr hop
  · next hop => exact .inl ⟨.se, by rw [hop]; rfl⟩
  · next hop => exact .inl ⟨.be, by rw [hop]; rfl⟩
  · next hop => exact .inl ⟨.ce, by rw [hop]; rfl⟩
  · cases hw

/-- Such an operation has no result (R91). -/
theorem result_of_writeCommand (hw : writeCommand s.ram r = some w) (t : State) :
    t.result r.op = .nothing := by
  rcases op_of_writeCommand hw with ⟨c, hc⟩ | hop
  · cases hop : r.op <;> rw [hop] at hc <;> cases hc <;> rfl
  · rw [hop]; rfl

theorem State.Ready.commands (h : s.Ready r.i d) (hw : writeCommand s.ram r = some w)
    (accepts : s.refusalOf r = none) : ∃ n f xs m, s.Commands r d w n f xs m := by
  rcases op_of_writeCommand hw with ⟨c, hc⟩ | hop
  · obtain ⟨before, -, after, ret⟩ := segments_erase hc
    obtain ⟨q, -, steps⟩ := Steps.erase h hc hw
    obtain ⟨b, bs, bytes⟩ : ∃ b bs, encodeFrame w = b :: bs := by cases w <;> exact ⟨_, _, rfl⟩
    refine ⟨5, _, _, _, before, after, ret, by decide, fun es => ?_, steps⟩
    rw [bytes]
    exact wireCmds_txn es
  · obtain ⟨op, i, a, len, p, v, cb, ctx⟩ := r
    obtain rfl : op = .pageWriteSync := hop
    cases hw
    obtain ⟨before, command, after, ret⟩ := segments_pageWriteSync
    obtain ⟨-, -, -, length, -⟩ := State.refusalOf_eq_none_iff.1 accepts
    obtain ⟨q, q', sent⟩ := Steps.programs
      (s := (s.accept ⟨.pageWriteSync, i, a, len, p, v, cb, ctx⟩).prepared .pageWriteSync 12 d) rfl
      h.accept_canOpen.prepared command (length rfl).1
    exact ⟨6, _, _, _, before, after, ret, by decide, fun es => wireCmds_txn_data es _ _, sent⟩

end

section
variable {s : State} {d : Device} {r : Request} {w : Wire} {n m : Nat} {f : Frame} {xs : List Event}

/-- The state after the last poll of a page write or erase, whose device the command left as `e`, PHASE at step `k`. -/
def State.polledAfter (r : Request) (d e : Device) (n k : Nat) (f : Frame) (xs : List Event) (m : Nat)
    (s : State) : State :=
  (((s.accept r).prepared r.op 12 d).afterTxn r.op (12 + n) e f xs m).afterRdsr r.op k e

/-- The events up to the last poll, which returns `v`. -/
def State.silentEvents (r : Request) (d : Device) (xs : List Event) (m : Nat) (v : Byte) (s : State) : List Event :=
  s.pollEvents r.i (Config.freeByte (s.draws + 2)) d.sr ++
    s.enableEvents r.i (d.select.miso (s.draws + 5)) ++ s.txnEvents r.i xs ++
    s.pollEvents r.i (Config.freeByte (m + 2)) v

theorem State.polledAfter_trace (e : Device) (k : Nat) : (s.polledAfter r d e n k f xs m).trace =
    s.trace ++ s.silentEvents r d xs m e.sr := by
  have insts : (s.accept r).insts = s.insts := State.accept_insts s r
  simp [State.polledAfter, State.afterRdsr, State.afterTxn, State.prepared, State.silentEvents,
    State.enableEvents, State.pollEvents, State.txnEvents_congr (s := s) (t := _) insts]
  rfl

/-- Up to the last poll nothing but its registers, its device, the bus and the trace has changed. -/
theorem State.polledAfter_frame (e : Device) (k : Nat) :
    let t := s.polledAfter r d e n k f xs m
    t.insts = s.insts ∧ t.csAsserted = s.csAsserted ∧ t.slot = s.slot ∧ t.eng = s.eng ∧ t.ram = s.ram ∧
      t.ident = s.ident ∧ t.inputs = s.inputs ∧ t.cur = r.i ∧ t.st = e.sr ∧
      t.devs = s.devs.set r.i e.released := by
  simp [State.polledAfter, State.afterRdsr, State.afterTxn, State.prepared]

/-- They send the status read, the `WREN`, the one command and the status read. -/
theorem State.Commands.wireCmds_silent (h : s.Commands r d w n f xs m) (v : Byte) :
    wireCmds r.i (s.trace ++ s.silentEvents r d xs m v) =
      wireCmds r.i s.trace ++ [0x05, 0x06] ++ (encodeFrame w).take 1 ++ [0x05] := by
  simp only [State.silentEvents, ← List.append_assoc]
  rw [wireCmds_poll, h.sends, wireCmds_enable, wireCmds_poll]
  simp

end

/-- Settles O60: prepared and commanded, the operation polls the device it left: idle where protection refused the command, busy where it did not. -/
theorem protectionIsSilent : Obligations.ProtectionIsSilent := by
  intro ins r w j d s hreq hw hj h accepts idle hi
  obtain ⟨n, f, xs, m, command⟩ := h.commands hw accepts
  have short := command.short
  have steps := command.steps
  rw [Device.act_enabled hj idle] at steps
  have run := (Steps.prepared (State.accept_phase s r) h.accept_canOpen command.before idle).trans steps
  cases hq : d.enabled.protects w with
  | true =>
    rw [if_pos hq] at run
    have opens := h.accept_canOpen.next
      (t := ((s.accept r).prepared r.op 12 d).afterTxn r.op (12 + n) d.enabled f xs m)
      rfl rfl rfl rfl (List.set_set ..) h.present
    have whole := run.trans (Steps.waited rfl opens command.after (Device.enabled_status idle).1)
    have done := exec_returns h hreq accepts whole rfl
      (by rw [← command.ret, show 12 + n + 6 = 18 + n by omega]) (by unfold Config.maxSteps; omega)
    obtain ⟨insts, cs, slot, eng, ram, ident, inputs, cur, st, devs⟩ :=
      s.polledAfter_frame (r := r) (d := d) (n := n) (f := f) (xs := xs) (m := m) d.enabled (12 + n + 6)
    refine ⟨(s.polledAfter r d d.enabled n (12 + n + 6) f xs m).returnOp r.op,
      s.silentEvents r d xs m d.enabled.sr, done, insts, cs.trans h.chipSelects, slot, eng, ram, ident, inputs,
      cur, command.wireCmds_silent _, fun _ => ⟨rfl, devs, st, ?_⟩, nofun⟩
    simp [State.returnOp, State.polledAfter_trace, result_of_writeCommand hw]
  | false =>
    rw [hq, if_neg Bool.false_ne_true] at run
    have opens := h.accept_canOpen.next
      (t := ((s.accept r).prepared r.op 12 d).afterTxn r.op (12 + n) (d.started j) f xs m)
      rfl rfl rfl rfl (List.set_set ..) h.present
    obtain ⟨b, budget⟩ : ∃ b, Config.maxSteps = b + 6 + (12 + n) :=
      ⟨Config.maxSteps - (18 + n), by unfold Config.maxSteps; omega⟩
    have turn := exec_accepted hreq h.handler h.phase accepts h.turn
    have due : ∀ e rest, (s.accept r).inputs ≠ .env e :: rest := by simpa using hi
    rw [budget, run, runOp_wait_busy rfl opens command.after (Device.started_busy j) due b] at turn
    obtain ⟨insts, cs, slot, eng, ram, ident, inputs, cur, st, devs⟩ :=
      s.polledAfter_frame (r := r) (d := d) (n := n) (f := f) (xs := xs) (m := m) (d.started j) (12 + n + 5)
    refine ⟨(s.polledAfter r d (d.started j) n (12 + n + 5) f xs m).sleep r.op (12 + n + 5),
      s.silentEvents r d xs m (d.started j).sr, turn, insts, cs.trans h.chipSelects, slot, eng, ram, ident, inputs,
      cur, command.wireCmds_silent _, nofun, fun _ => ⟨⟨_, rfl⟩, devs, st, ?_⟩⟩
    rw [State.sleep_trace, State.polledAfter_trace]

end Sys2Proof.Machine
end

section
/-! PROOFS. The asynchronous page operations (43_page_transfer.md R142, R144): from the request to the submission, and their life to the callback (46_async_dispatcher.md R177 to R181, 20_memory.md R68). -/

namespace Sys2Proof.Machine

/-- The state after the frame `fr` of an open transaction and the submission of its data phase: PHASE is at step `k` (R142, R176). -/
def State.submitted (op : HostOp) (k : Nat) (fr : Frame) (d : Device) (r0 : List Byte) (tx rxp : Option Ptr)
    (s : State) : State :=
  { s with
    f := fr, phase := .busy op k
    insts := s.insts.modify s.cur fun x => { x with txnOpen := true }
    csAsserted := [(s.inst s.cur).csId], busCfg := .ours
    devs := s.devs.set s.cur { d with rxq := fr.bytes }, draws := s.draws + 8
    slot := { tag := .pending, owner := some s.cur, cb := s.held.cb, ctx := s.held.ctx }
    eng := some { tx := tx, rxp := rxp, n := s.cnt.toNat, performed := false }
    trace := s.trace ++ s.openingEvents s.cur ++
      [.cs s.cur .asserted, .x (some fr.bytes) r0, .xa tx rxp s.cnt.toNat] }

section
variable {s t : State} {op : HostOp} {k i : Nat} {x : Inst} {d : Device} {cb : Option Callback} {ctx : Ctx}

/-- An open transaction, its frame and the submission: five steps (R142, R144). -/
theorem Steps.submits {c : Cmd} {m : Micro} {fr : Frame} {tx rxp : Option Ptr} (hp : s.phase = .busy op k)
    (ho : s.CanOpen s.cur x d) (seg : Segment op k (Machine.opening ++ [.send c, m])) (hc : c = .read ∨ c = .pp)
    (hf : s.loadFrame c = fr) (hs : m ≠ .poll)
    (hm : ∀ t : State, t.ptr = s.ptr → opStep op (k + 4) m t =
      (t.submit t.cur t.held.cb t.held.ctx tx rxp t.cnt.toNat).goto op (k + 5)) :
    ∃ r0, Steps 5 s (s.submitted op (k + 5) fr d r0 tx rxp) := by
  have sent : c.sent (s.loadFrame c) = fr.bytes := by rcases hc with rfl | rfl <;> rw [hf] <;> rfl
  refine ⟨d.select.answers (s.draws + 4) fr.bytes, ?_⟩
  obtain ⟨frame, -⟩ := Steps.frame hp ho (seg.at 0 rfl) (seg.at 1 rfl) (seg.at 2 rfl) (seg.at 3 rfl) sent rfl
  have ptr : (s.afterFrame c op (k + 4) x d fr.bytes (d.select.answers (s.draws + 4) fr.bytes)).ptr = s.ptr := by
    rcases hc with rfl | rfl <;> rfl
  refine (frame.trans (Steps.one (by rcases hc with rfl | rfl <;> rfl) (seg.at 4 rfl) fun e => hs e.1)).of_eq ?_
  have inst := ho.inst_eq
  have opened := modify_of_getElem? ho.inst fun x => { x with txnOpen := true }
  refine (hm _ ptr).trans ?_
  rcases hc with rfl | rfl <;>
    simp [State.afterFrame, State.submitted, State.capture, State.submit, State.emit, State.goto,
      Device.receive, Device.select, hf, inst, opened, Frame.bytes]

end

/-- What a submission on a ready instance leaves once the operation has returned (R142, R181). -/
theorem State.Ready.leftPending {s t : State} {i : Nat} {d e : Device} {cb : Option Callback} {ctx : Ctx}
    (h : s.Ready i d) (phase : t.phase = .idle) (handler : t.handler = s.handler)
    (insts : t.insts = s.insts.modify i fun x => { x with txnOpen := true })
    (cs : t.csAsserted = [(s.inst i).csId]) (bus : t.busCfg = .ours)
    (slot : t.slot = { tag := .pending, owner := some i, cb := cb, ctx := ctx }) (ram : t.ram = s.ram)
    (devs : t.devs = s.devs.set i e) : s.LeftPending i cb ctx t where
  phase := phase
  handler := handler.trans h.handler
  insts := insts
  chipSelects := cs
  bus := bus
  slot := slot
  ram := ram
  others _ hj := by rw [devs]; exact List.getElem?_set_ne hj.symm
  count := by rw [devs]; exact List.length_set

/-- Settles O30: the frame is sent, the data phase submitted, and the operation returns. -/
theorem pageReadAsync : Obligations.PageReadAsync := by
  intro i a p len cb ctx d s h lo hi
  let r : Request := { op := .pageReadAsync, i := i, addr := a, p := p, len := len, cb := some cb, ctx := ctx }
  have seg : Segment .pageReadAsync 0 (opening ++ [.send .read, .submitIn]) := by decide
  obtain ⟨r0, run⟩ := Steps.submits (s := s.accept r) (tx := none) (rxp := some p) (State.accept_phase s r)
    h.accept_canOpen seg (.inl rfl) rfl nofun fun t ht => by rw [← show t.ptr = p from ht]; rfl
  have done := exec_returns (ins := .pageReadAsync i a p len (some cb) ctx) (r := r) h rfl
    (h.accepts_page lo hi nofun) run rfl rfl (by decide)
  exact ⟨_, r0, done, h.leftPending rfl rfl rfl rfl rfl rfl rfl rfl, ⟨rfl, rfl, rfl, rfl, rfl, rfl⟩, rfl, rfl,
    List.getElem?_set_self h.lt, rfl, rfl, List.append_assoc ..⟩

/-- Settles O32: prepared as a page write is, the frame is sent and the data phase submitted. -/
theorem pageWriteAsync : Obligations.PageWriteAsync := by
  intro i a p len cb ctx d s h idle lo hi
  let r : Request := { op := .pageWriteAsync, i := i, addr := a, p := p, len := len, cb := some cb, ctx := ctx }
  have before : Segment .pageWriteAsync 0 (waiting ++ enabling) := by decide
  have seg : Segment .pageWriteAsync 12 (opening ++ [.send .pp, .submitOut]) := by decide
  obtain ⟨r0, run⟩ := Steps.submits (s := (s.accept r).prepared r.op 12 d) (tx := some p) (rxp := none) rfl
    h.accept_canOpen.prepared seg (.inr rfl) rfl nofun fun t ht => by rw [← show t.ptr = p from ht]; rfl
  have done := exec_returns (ins := .pageWriteAsync i a p len (some cb) ctx) (r := r) h rfl
    (h.accepts_page lo hi nofun)
    ((Steps.prepared (State.accept_phase s r) h.accept_canOpen before idle).trans run) rfl rfl (by decide)
  exact ⟨_, _, _, r0, done, h.leftPending rfl rfl rfl rfl rfl rfl rfl (List.set_set ..),
    ⟨rfl, rfl, rfl, rfl, rfl, rfl⟩, rfl, rfl,
    (congrArg (·[i]?) (List.set_set ..)).trans (List.getElem?_set_self h.lt), rfl, rfl, List.append_assoc ..⟩

/-! ## From the submission to the callback (R177, R178) -/

section
variable {s t : State} {i : Nat} {d e : Device} {y : Transfer} {cb : Option Callback} {ctx : Ctx}
  {rest : List Input}

/-- The state after the engine has performed the exchange `y` in flight with the device `e` (R178). -/
def State.performedWith (i : Nat) (e : Device) (y : Transfer) (inputs : List Input) (t : State) : State :=
  { t with
    inputs := inputs, draws := t.draws + 3 * y.n, eng := some { y with performed := true }
    devs := t.devs.set i (e.receive (t.engineTx y))
    ram := y.rxp.elim t.ram fun p => memWrite t.ram p (e.answers (t.draws + y.n + y.n) (t.engineTx y))
    trace := t.trace ++ [.xp (t.engineTx y) (e.answers (t.draws + y.n + y.n) (t.engineTx y))] }

/-- A transaction left open has its owner's chip selected alone on a bus that is ours (R30, R114). -/
theorem State.LeftPending.selected (left : s.LeftPending i cb ctx t) (h : s.Ready i d)
    (hd : t.devs[i]? = some e) : t.Selected i { s.inst i with txnOpen := true } e where
  alone := left.chipSelects
  inst := by
    rw [left.insts, List.getElem?_modify_eq, State.inst_getElem h.exists_, List.getElem?_eq_getElem h.exists_]
    rfl
  distinct := by
    have same := map_modify_of_eq (f := fun x : Inst => x.csId) (g := fun x => { x with txnOpen := true })
      (fun _ => rfl) s.insts i
    rw [left.insts, same]
    exact h.csDistinct
  bus := left.bus
  device := hd

/-- The engine performs and its completion runs, one step each. -/
theorem State.LeftPending.exchanged (left : s.LeftPending i cb ctx t) (h : s.Ready i d) (he : t.eng = some y)
    (hy : y.performed = false) (hd : t.devs[i]? = some e)
    (hi : t.inputs = .env .perform :: .packet .completion :: rest)
    (turn : State.wholeTurn { s with inputs := rest }) :
    ∃ u, step t = .next u ∧ step u = .next ((t.performedWith i e y rest).completed i) := by
  let due : List Input := .packet .completion :: rest
  have selected := left.selected h hd
  have ready : ({ t with inputs := due } : State).Selected i { s.inst i with txnOpen := true } e :=
    ⟨selected.alone, selected.inst, selected.distinct, selected.bus, selected.device⟩
  have performed : State.perform { t with inputs := due } = t.performedWith i e y due :=
    ready.perform he hy rfl rfl
  have free : (t.performedWith i e y due).packetWaits .completion = false := decide_eq_false fun e => e left.handler
  refine ⟨t.performedWith i e y due, by simp [step, hi, State.envMove, due, ← performed], ?_⟩
  rw [step_packet (rest := rest) (i := .completion) rfl free rfl]
  refine exec_completion (s := t.performedWith i e y rest)
    (State.completionEnabled_iff.2 ⟨?_, ⟨_, rfl, rfl⟩, left.handler⟩) ?_ turn
  · exact congrArg (fun x => x.tag) left.slot
  · exact congrArg (fun x => x.owner) left.slot

/-- Opened and closed again, the instance is as it was before. -/
theorem State.Ready.closed_again (h : s.Ready i d) :
    ((s.insts.modify i fun x => { x with txnOpen := true }).modify i fun x => { x with txnOpen := false }) =
      s.insts := by
  obtain ⟨x, hx⟩ : ∃ x, s.insts[i]? = some x := ⟨_, List.getElem?_eq_getElem h.exists_⟩
  have closed : ({ x with txnOpen := false } : Inst) = x := by
    have e : x.txnOpen = false := by simpa [State.inst, hx] using h.closed
    rw [← e]
  rw [List.modify_modify_eq, modify_of_getElem? hx]
  exact (congrArg _ closed).trans (by rw [← (List.getElem?_eq_some_iff.1 hx).2, List.set_getElem_self])

/-- The completion leaves the instance as it was before the request, and the device with the whole frame committed. -/
theorem State.LeftPending.completed_frame (left : s.LeftPending i cb ctx t) (h : s.Ready i d)
    (hd : t.devs[i]? = some e) :
    let v := (t.performedWith i e y rest).completed i
    v.insts = s.insts ∧ v.csAsserted = [] ∧ v.devs[i]? = some (e.receive (t.engineTx y)).commit ∧
      v.slot = { tag := .idle, owner := none, cb := none, ctx := ctx } ∧
      v.trace = t.trace ++ [.xp (t.engineTx y) (e.answers (t.draws + y.n + y.n) (t.engineTx y)),
        .cs i .deasserted, .cb cb ctx] := by
  have line : ((t.performedWith i e y rest).inst i).csId = (s.inst i).csId := by
    simp [State.performedWith, State.inst, left.insts, h.exists_]
  have lt : i < t.devs.length := (List.getElem?_eq_some_iff.1 hd).1
  refine ⟨?_, ?_, ?_, ?_, ?_⟩
  · rw [← h.closed_again, ← left.insts]; rfl
  · simp only [State.completed, line]
    simp [State.performedWith, left.chipSelects]
  · simp [State.completed, State.performedWith, lt]
  · simp [State.completed, State.performedWith, left.slot]
  · simp [State.completed, State.performedWith, left.slot]

end

/-- Pending, the owner's transaction is open and its chip select asserted (R181). -/
theorem State.LeftPending.open_selected {s t : State} {i : Nat} {d : Device} {cb : Option Callback} {ctx : Ctx}
    (left : s.LeftPending i cb ctx t) (h : s.Ready i d) :
    t.slot.tag = .pending ∧ t.slot.owner = some i ∧ (t.inst i).txnOpen = true ∧
      t.cs (s.inst i).csId = .asserted := by
  refine ⟨by rw [left.slot], by rw [left.slot], ?_, by simp [State.cs, left.chipSelects]⟩
  simp [State.inst, left.insts, h.exists_]

/-- A device commits the frame it received in two parts as the whole command (R191). -/
theorem Device.commit_received {d : Device} (hp : d.present = true) {w : Wire} (fits : w.wellFormed = true)
    {fr data : List Byte} (bytes : fr ++ data = encodeFrame w) :
    (Device.receive { d with rxq := fr } data).commit = (d.act w).released :=
  (Device.commit_frame (d := Device.receive { d with rxq := fr } data) hp fits bytes).trans (d.act_released _ w)

/-- Settles O36: submitted, performed with the device's bytes going into the buffer, and completed. -/
theorem asyncReadLifecycle : Obligations.AsyncReadLifecycle := by
  intro i a p len cb ctx d s rest h hm idle lo hi hin turn
  obtain ⟨t, r0, run, left, -, inputs, eng, device, -⟩ := pageReadAsync i a p len cb ctx d s h lo hi
  obtain ⟨pending, owner, opened, selected⟩ := left.open_selected h
  obtain ⟨u, performs, completes⟩ := left.exchanged h eng rfl device (inputs.trans hin) turn
  obtain ⟨insts, cs, committed, slot, trace⟩ := left.completed_frame (rest := rest) h device
    (y := { tx := none, rxp := some p, n := len.toNat, performed := false })
  have length := t.engineTx_length { tx := none, rxp := some p, n := len.toNat, performed := false }
  have reads := Device.reads_answers (k := t.draws + len.toNat + len.toNat) h.present a length
  obtain ⟨-, outside, content⟩ := reads.memory (p := p) hm.1 (show len.toNat ≤ _ by omega)
  rw [← left.ram] at outside content
  have fits : (Wire.read (a.setWidth 24)
      (t.engineTx { tx := none, rxp := some p, n := len.toNat, performed := false })).wellFormed = true := by
    simp [Wire.wellFormed, dataFits, length, lo]
  refine ⟨t, u, _, _, _, run, pending, owner, opened, selected, left.ram, performs, completes, slot, rfl, insts, cs,
    left.phase, left.handler, committed.trans ?_, rfl, trace, content idle, fun b hb =>
      (outside b hb).trans (by rw [left.ram])⟩
  exact congrArg some (Device.commit_received h.present fits (by rw [buildFrame_bytes]; rfl))

/-- Settles O37: submitted, performed from the buffer, and completed: the deassertion starts the write cycle. -/
theorem asyncWriteLifecycle : Obligations.AsyncWriteLifecycle := by
  intro i a p len cb ctx d s rest h idle lo hi hin turn
  obtain ⟨t, -, -, r0, run, left, -, inputs, eng, device, -⟩ := pageWriteAsync i a p len cb ctx d s h idle lo hi
  obtain ⟨pending, owner, opened, selected⟩ := left.open_selected h
  obtain ⟨u, performs, completes⟩ := left.exchanged h eng rfl device (inputs.trans hin) turn
  obtain ⟨insts, cs, committed, slot, trace⟩ := left.completed_frame (rest := rest) h device
    (y := { tx := some p, rxp := none, n := len.toNat, performed := false })
  have data : t.engineTx { tx := some p, rxp := none, n := len.toNat, performed := false } =
      memRead s.ram p len.toNat := congrArg (memRead · p len.toNat) left.ram
  rw [data] at committed trace
  have fits : (Wire.pp (a.setWidth 24) (memRead s.ram p len.toNat)).wellFormed = true := by
    simp [Wire.wellFormed, dataFits, memRead_length, lo]
  refine ⟨t, u, _, _, run, pending, owner, opened, selected, performs, completes, slot, rfl, insts, cs,
    left.phase, left.handler, left.ram, rfl, trace, committed.trans ?_⟩
  have acted := Device.act_enabled (w := .pp (a.setWidth 24) (memRead s.ram p len.toNat)) rfl idle
  rw [toNat_setWidth_eq_flashAddr] at acted
  exact congrArg some
    ((Device.commit_received (d := d.enabled) h.present fits (by rw [buildFrame_bytes]; rfl)).trans acted)

end Sys2Proof.Machine
end

section
/-! PROOFS. A wait on a busy device while other agents move (42_status_control.md R128, 47_wire_commands.md R195): one poll and one sleep for each move, and the last poll after the device has finished. -/

namespace Sys2Proof.Machine

section
variable {s : State} {i : Nat} {x : Inst} {d : Device}

/-- What a move of another agent does while no exchange is in flight: it may change the bus settings when some instance is shared, and one device that finishes and says so (R20, R27, R195). -/
theorem State.exists_envMove {e : EnvMove} (he : s.eng = none) (hi : e ≠ .finish i) :
    ∃ b l n es, s.envMove e = { s with busCfg := b, devs := l, draws := n, trace := s.trace ++ es } ∧
      (b = s.busCfg ∨ s.anyShared = true) ∧ l.length = s.devs.length ∧
      (∀ j, e ≠ .finish j → l[j]? = s.devs[j]?) ∧ (es = [] ∨ ∃ j, j ≠ i ∧ es = [.fin j]) := by
  have nothing : s = { s with trace := s.trace ++ [] } := by simp
  cases e with
  | perform =>
    refine ⟨s.busCfg, s.devs, s.draws, [], Eq.trans ?_ nothing, .inl rfl, rfl, fun _ _ => rfl, .inl rfl⟩
    simp [State.envMove, State.perform, he]
  | finish j =>
    have ne : j ≠ i := fun e => hi (congrArg _ e)
    by_cases rests : s.finish j = s
    · exact ⟨s.busCfg, s.devs, s.draws, [], rests.trans nothing, .inl rfl, rfl, fun _ _ => rfl, .inl rfl⟩
    · refine ⟨s.busCfg, s.devs.modify j fun d => d.finish s.draws, s.draws + 1, [.fin j], ?_, .inl rfl,
        List.length_modify .., fun k hk => ?_, .inr ⟨j, ne, rfl⟩⟩
      case refine_2 => exact List.getElem?_modify_ne _ _ fun e => hk (congrArg _ e)
      show s.finish j = _
      unfold State.finish at rests ⊢
      split at rests
      · exact absurd rfl rests
      · split at rests
        · exact absurd rfl rests
        · next hj => simp [hj, State.modDev, State.emit]
  | _ =>
    by_cases enabled : s.foreignEnabled = true
    · refine ⟨.foreign, s.devs, s.draws, [], ?_, .inr (s.foreignEnabled_iff.1 enabled).1, rfl,
        fun _ _ => rfl, .inl rfl⟩
      simp [State.envMove, State.foreignMove, enabled]
    · refine ⟨s.busCfg, s.devs, s.draws, [], Eq.trans ?_ nothing, .inl rfl, rfl, fun _ _ => rfl, .inl rfl⟩
      simp [State.envMove, State.foreignMove, enabled]

/-- The state after a wait that ended at its last poll with status `v`, `dl` the devices and `es` the events since (R128). -/
def State.afterWait (v : Byte) (dl : List Device) (n : Nat) (rest : List Input) (es : List Event) (s : State) :
    State :=
  { s with
    f := { s.f with b0 := Config.opRDSR, b1 := Config.dummyTx }, st := v
    phase := .busy .waitForWriteComplete 6, busCfg := .ours, devs := dl, draws := n, inputs := rest
    trace := s.trace ++ es }

/-- What a wait on instance `i`, whose busy device was `d`, leaves after the moves `l` of other agents and the device's own: the devices `dl` and the events `es` (R128, R195). -/
structure State.Waited (i : Nat) (d : Device) (l : List EnvMove) (k : Nat) (dl : List Device) (es : List Event)
    (s : State) : Prop where
  count : dl.length = s.devs.length
  others : ∀ j, j ≠ i → .finish j ∉ l → dl[j]? = s.devs[j]?
  device : dl[i]? = some (d.released.finish k)
  polls : ∀ es₀, wireCmds i (es₀ ++ es) = wireCmds i es₀ ++ List.replicate (l.length + 2) 0x05
  sleeps : es.count (.sms Config.tPollMs) = l.length + 1
  finishes : es.count (.fin i) = 1
  once : l = [] → ∃ r q, es = s.pollEvents i r d.sr ++ [.sms Config.tPollMs, .fin i] ++
    s.pollEvents i q (d.released.finish k).sr

/-- A poll neither sleeps nor finishes a device. -/
theorem count_pollEvents (r v : Byte) (j : Nat) : (s.pollEvents i r v).count (.sms Config.tPollMs) = 0 ∧
    (s.pollEvents i r v).count (.fin j) = 0 := by
  simp only [State.pollEvents, State.txnEvents, State.openingEvents]
  split <;> exact ⟨rfl, rfl⟩

/-- A device that finishes with a job is idle afterwards (R195). -/
theorem Device.finish_idle (hj : d.job ≠ none) (k : Nat) : (d.finish k).sr.getLsbD 0 = false := by
  obtain ⟨j, hj⟩ := Option.ne_none_iff_exists'.1 hj
  rw [← wip_eq_getLsbD]
  simp [Device.finish, hj, wip_clearWipWel]

/-- Finishing gives the device no bytes to hold. -/
theorem Device.finish_released (d : Device) (k : Nat) : (d.released.finish k).released = d.released.finish k := by
  unfold Device.finish
  split
  · rfl
  · next j _ => cases j <;> rfl

/-- The wait ends when the device finishes during the sleep. -/
theorem Steps.waits_once {rest : List Input} (hp : s.phase = .busy .waitForWriteComplete 0)
    (ho : s.CanOpen s.cur x d) (busy : d.sr.getLsbD 0 = true) (hj : d.job ≠ none)
    (hi : s.inputs = .env (.finish s.cur) :: rest) :
    ∃ k dl n es, Steps 12 s (s.afterWait (d.released.finish k).sr dl n rest es) ∧
      s.Waited s.cur d [] k dl es := by
  have seg : Segment .waitForWriteComplete 0 waiting := by decide
  have lt : s.cur < s.devs.length := (List.getElem?_eq_some_iff.1 ho.device).1
  let asleep : State := { (s.afterRdsr .waitForWriteComplete 5 d).sleep .waitForWriteComplete 5 with inputs := rest }
  have woken : asleep.finish s.cur = _ := State.finish_of_job (List.getElem?_set_self lt) hj
  have opens : (asleep.finish s.cur).CanOpen (asleep.finish s.cur).cur x (d.released.finish (s.draws + 4)) := by
    rw [woken]
    exact ho.next rfl rfl rfl rfl (List.set_set ..)
      ((congrArg Prod.fst (d.released.finish_params (s.draws + 4))).trans ho.present)
  have waited := Steps.waited (s := asleep.finish s.cur) (by rw [woken]; rfl) opens seg
    (Device.finish_idle (d := d.released) hj _)
  refine ⟨s.draws + 4, s.devs.set s.cur (d.released.finish (s.draws + 4)).released, s.draws + 9,
    s.pollEvents s.cur (Config.freeByte (s.draws + 2)) d.sr ++ [.sms Config.tPollMs, .fin s.cur] ++
      s.pollEvents s.cur (Config.freeByte (s.draws + 7)) (d.released.finish (s.draws + 4)).sr,
    ((Steps.slept hp ho seg busy hi).trans waited).of_eq ?_, List.length_set,
    fun j hj _ => List.getElem?_set_ne hj.symm,
    ?_, fun es₀ => ?_, ?_, ?_, fun _ => ⟨_, _, rfl⟩⟩
  · rw [woken]
    simp [asleep, State.afterRdsr, State.sleep, State.emit, State.goto, State.afterWait]
    exact rfl
  · rw [Device.finish_released, List.getElem?_set_self lt]
  · rw [← List.append_assoc, ← List.append_assoc, wireCmds_poll, wireCmds_slept, wireCmds_poll]
    simp
  · simp [(count_pollEvents _ _ s.cur).1]
  · simp [(count_pollEvents _ _ s.cur).2]

/-- The events of one poll and one sleep with another agent's move send one more status read. -/
theorem wireCmds_polled_slept {es' : List Event} (h : es' = [] ∨ ∃ j, j ≠ i ∧ es' = [.fin j])
    (es : List Event) (r v : Byte) :
    wireCmds i (es ++ (s.pollEvents i r v ++ .sms Config.tPollMs :: es')) = wireCmds i es ++ [0x05] := by
  rw [← List.append_assoc, ← wireCmds_poll (s := s) es r v]
  refine wireCmds_congr ?_ i
  rw [scanTrace_append]
  rcases h with rfl | ⟨j, -, rfl⟩ <;> rfl

/-- Each further move of another agent costs one more poll and one more sleep (R128). -/
theorem Steps.waits {rest : List Input} : ∀ (l : List EnvMove) {s : State} {d : Device},
    s.phase = .busy .waitForWriteComplete 0 → s.CanOpen s.cur x d → (x.shared = true ∨ s.anyShared = false) →
    s.eng = none → d.sr.getLsbD 0 = true → d.job ≠ none → .finish s.cur ∉ l →
    s.inputs = l.map Input.env ++ .env (.finish s.cur) :: rest →
    ∃ k dl n es, Steps (6 * l.length + 12) s (s.afterWait (d.released.finish k).sr dl n rest es) ∧
      s.Waited s.cur d l k dl es
  | [], s, d, hp, ho, _, _, busy, hj, _, hi => Steps.waits_once hp ho busy hj hi
  | e :: l, s, d, hp, ho, hs, he, busy, hj, hl, hi => by
    rw [List.mem_cons, not_or] at hl
    obtain ⟨moves, kept⟩ := hl
    have lt : s.cur < s.devs.length := (List.getElem?_eq_some_iff.1 ho.device).1
    have seg : Segment .waitForWriteComplete 0 waiting := by decide
    let due : List Input := l.map Input.env ++ .env (.finish s.cur) :: rest
    let asleep : State := { (s.afterRdsr .waitForWriteComplete 5 d).sleep .waitForWriteComplete 5 with inputs := due }
    obtain ⟨b, dl', n', es', moved, bus, count, others, events⟩ :=
      State.exists_envMove (s := asleep) he (Ne.symm moves)
    let t : State := { asleep with busCfg := b, devs := dl', draws := n', trace := asleep.trace ++ es' }
    have slept : Steps 6 s t := (Steps.slept hp ho seg busy hi).of_eq moved
    have device : dl'[s.cur]? = some d.released :=
      (others s.cur (Ne.symm moves)).trans (List.getElem?_set_self lt)
    have shared : x.shared = true ∨ b = .ours := by
      rcases hs with hs | hs
      · exact .inl hs
      · exact .inr (bus.resolve_right fun e => Bool.false_ne_true (hs.symm.trans e))
    have opens : t.CanOpen t.cur x d.released :=
      ⟨ho.free, ho.inst, ho.closed, ho.distinct, shared, device, ho.present⟩
    obtain ⟨k, dl, n, es, run, waited⟩ : ∃ k dl n es,
        Steps (6 * l.length + 12) t (t.afterWait (d.released.finish k).sr dl n rest es) ∧
          t.Waited s.cur d.released l k dl es := Steps.waits l rfl opens hs he busy hj kept rfl
    refine ⟨k, dl, n, s.pollEvents s.cur (Config.freeByte (s.draws + 2)) d.sr ++ .sms Config.tPollMs :: es' ++ es,
      ?steps, ?count, ?others, waited.device, ?polls, ?sleeps, ?finishes, nofun⟩
    case steps =>
      rw [show 6 * (e :: l).length + 12 = 6 + (6 * l.length + 12) by rw [List.length_cons]; omega]
      refine (slept.trans run).of_eq ?_
      simp [t, asleep, State.afterWait, State.afterRdsr, State.sleep, State.emit, State.goto]
    case count => exact waited.count.trans (count.trans List.length_set)
    case others =>
      intro j hj hk
      rw [List.mem_cons, not_or] at hk
      rw [waited.others j hj hk.2]
      exact (others j (Ne.symm hk.1)).trans (List.getElem?_set_ne hj.symm)
    case polls =>
      intro es₀
      rw [← List.append_assoc, waited.polls, wireCmds_polled_slept events, List.append_assoc]
      rfl
    case sleeps =>
      have none_slept : es'.count (.sms Config.tPollMs) = 0 := by rcases events with rfl | ⟨j, -, rfl⟩ <;> rfl
      simp [List.count_append, (count_pollEvents _ _ s.cur).1, waited.sleeps, none_slept]
    case finishes =>
      have none_finished : es'.count (.fin s.cur) = 0 := by
        rcases events with rfl | ⟨j, hj, rfl⟩
        · rfl
        · simp [hj]
      simp [List.count_append, (count_pollEvents _ _ s.cur).2, waited.finishes, none_finished]

end

/-- Settles O22: the polls and sleeps of the wait, and the return. -/
theorem waitEndsWhenTheDeviceFinishes : Obligations.WaitEndsWhenTheDeviceFinishes := by
  intro i d s l rest h busy hj he hs hl budget hi
  let r : Request := { op := .waitForWriteComplete, i := i }
  obtain ⟨k, dl, n, es, run, waited⟩ := Steps.waits l (s := s.accept r) (State.accept_phase s r)
    h.accept_canOpen hs he busy hj hl hi
  have done := exec_returns (ins := .waitForWriteComplete i) (r := r) (k := 6) h rfl
    (h.refusalOf_eq_none rfl rfl rfl) run rfl rfl (by omega)
  refine ⟨_, es, k, done, rfl, h.handler, rfl, h.chipSelects, rfl, he, rfl, rfl, ⟨rfl, rfl, rfl, rfl⟩, rfl,
    rfl, rfl, waited.count, waited.others, waited.device, Device.finish_idle (d := d.released) hj k, rfl, rfl, rfl,
    ?_, waited.sleeps, waited.finishes, waited.once⟩
  have returned : wireCmds i (s.trace ++ es ++ [.ret .waitForWriteComplete .nothing]) = wireCmds i (s.trace ++ es) :=
    wireCmds_congr (by rw [scanTrace_append]; rfl) i
  exact returned.trans (waited.polls s.trace)

end Sys2Proof.Machine
end

section
/-! PROOFS. Ranges (44_range_chunking.md R156 to R160): the chunk loop as an induction over the chunks of a range, reading and writing them one page piece at a time. -/

namespace Sys2Proof.Machine

/-! ## The chunks of a range -/

theorem ptrAt_eq (p : Ptr) (k : Nat) : ptrAt p k = (p.toNat + k) % 4294967296 := by
  simp [ptrAt, BitVec.toNat_add]

/-- Counting on from an advanced pointer. -/
theorem ptrAt_add (p c : Ptr) (k : Nat) : ptrAt (p + c) k = ptrAt p (c.toNat + k) := by
  rw [ptrAt_eq, ptrAt_eq, BitVec.toNat_add]
  omega

/-- A chunk and the rest of a range add up to the range (R160). -/
theorem add_add_sub_word (a c r : BitVec 32) : a + c + (r - c) = a + r := by
  rw [BitVec.add_assoc, BitVec.add_comm c, BitVec.sub_add_cancel]

/-- Two offsets of less than the address space are two addresses. -/
theorem ptrAt_ne (p : Ptr) {j k : Nat} (hj : j < 4294967296) (hk : k < 4294967296) (h : j ≠ k) :
    ptrAt p j ≠ ptrAt p k := by
  rw [ptrAt_eq, ptrAt_eq]
  omega

section
variable {a : Addr} {rem : Len}

/-- After its first chunk a range goes on with the rest of its length (R158, R160). -/
theorem toNat_sub_chunkLen (a : Addr) (rem : Len) :
    (rem - chunkLen a rem).toNat = rem.toNat - (chunkLen a rem).toNat := by
  have le : (chunkLen a rem).toNat ≤ rem.toNat := by rw [chunkLen_toNat]; exact Nat.min_le_left ..
  rw [BitVec.toNat_sub]
  have := rem.isLt
  omega

theorem chunkLen_add_rest (a : Addr) (rem : Len) :
    (chunkLen a rem).toNat + (rem - chunkLen a rem).toNat = rem.toNat := by
  have len := chunkLen_toNat a rem
  rw [toNat_sub_chunkLen]
  omega

/-- The chunks of a range are its first one and those of the rest (R158). -/
theorem chunkCount_eq (h : rem ≠ 0) :
    chunkCount a rem = chunkCount (a + chunkLen a rem) (rem - chunkLen a rem) + 1 := by
  have pos : rem.toNat ≠ 0 := fun e => h (BitVec.eq_of_toNat_eq e)
  have len := chunkLen_toNat a rem
  have left := toNat_sub_chunkLen a rem
  have next := BitVec.toNat_add a (chunkLen a rem)
  have small := rem.isLt
  rw [chunkCount, if_neg h, chunkCount]
  split
  · next e =>
    rw [e] at left
    have : (0 : Len).toNat = 0 := rfl
    omega
  · next e =>
    have : (rem - chunkLen a rem).toNat ≠ 0 := fun z => e (BitVec.eq_of_toNat_eq z)
    omega

/-- A range has few enough chunks for one turn of the execution unit (log 12). -/
theorem chunkCount_le (a : Addr) (rem : Len) : chunkCount a rem ≤ 16777217 := by
  have := rem.isLt
  unfold chunkCount
  split <;> omega

/-- Induction over the chunks of a range: nothing remains, or a chunk and then the rest (R156, R157). -/
theorem chunk_induction {P : Addr → Ptr → Len → Prop} (nil : ∀ a p, P a p 0)
    (chunk : ∀ a p len, len ≠ 0 → P (a + chunkLen a len) (p + chunkLen a len) (len - chunkLen a len) →
      P a p len)
    (a : Addr) (p : Ptr) (len : Len) : P a p len := by
  induction hn : len.toNat using Nat.strongRecOn generalizing a p len with
  | ind n ih =>
    by_cases zero : len = 0
    · exact zero ▸ nil a p
    · obtain ⟨pos, -⟩ := chunkArithmetic a len zero
      have left := toNat_sub_chunkLen a len
      have : len.toNat ≠ 0 := fun e => zero (BitVec.eq_of_toNat_eq e)
      exact chunk a p len zero (ih _ (by omega) _ _ _ rfl)

end

/-! ## What is read -/

/-- The memory `m` is `ram` with the `n` bytes of device `d` from flash address `a` on in the buffer at `p`, where the spec gives them (R158, R201). -/
structure Device.ReadRange (d : Device) (a : Addr) (p : Ptr) (n : Nat) (ram m : Memory) : Prop where
  wf : m.wf = true
  outside : ∀ b, (∀ k < n, ptrAt p k ≠ b) → m.read b = ram.read b
  content : d.sr.getLsbD 0 = false → ∀ k < n, d.answersAt ((a.toNat + k) % 16777216) →
    m.read (ptrAt p k) = d.mem.read ((a.toNat + k) % 1048576)

section
variable {d : Device} {a : Addr} {p : Ptr} {n : Nat} {ram m m' : Memory}

theorem Device.ReadRange.nil (h : m.wf = true) : d.ReadRange a p 0 m m :=
  ⟨h, fun _ _ => rfl, fun _ _ hk => absurd hk (Nat.not_lt_zero _)⟩

/-- What a device reads does not depend on the bytes it holds. -/
theorem Device.ReadRange.of_released {e : Device} (he : e.released = d.released) (h : e.ReadRange a p n ram m) :
    d.ReadRange a p n ram m := by
  have status : e.sr = d.sr := show e.released.sr = _ by rw [he]; rfl
  have map : e.addrMap = d.addrMap := show e.released.addrMap = _ by rw [he]; rfl
  have mem : e.mem = d.mem := show e.released.mem = _ by rw [he]; rfl
  refine ⟨h.wf, h.outside, ?_⟩
  unfold Device.answersAt
  rw [← status, ← map, ← mem]
  exact h.content

/-- One read inside a page (R158). -/
theorem Device.Reads.readRange {rx : List Byte} (wf : ram.wf = true) (h : d.Reads a n rx)
    (page : a.toNat % 256 + n ≤ 256) : d.ReadRange a p n ram (memWrite ram p rx) := by
  obtain ⟨-, outside, content⟩ := h.memory (p := p) wf (by omega)
  refine ⟨memWrite_wf wf p rx, outside, fun idle k hk ha => ?_⟩
  have wire : (a.toNat + k) % 16777216 = flashAddr a + k := by unfold flashAddr; omega
  rw [wire] at ha
  rw [content idle k hk ha, ← wire]
  exact congrArg _ (by omega)

/-- A read and then one that goes on where it ended. -/
theorem Device.ReadRange.append {c : Len} (h : d.ReadRange a p c.toNat ram m)
    (h' : d.ReadRange (a + c) (p + c) n m m') (small : c.toNat + n ≤ 4294967296) :
    d.ReadRange a p (c.toNat + n) ram m' := by
  have address (k : Nat) : (a + c).toNat + k = (a.toNat + c.toNat) % 4294967296 + k :=
    congrArg (· + k) (BitVec.toNat_add ..)
  refine ⟨h'.wf, fun b hb => ?_, fun idle k hk ha => ?_⟩
  · rw [h'.outside b fun k hk => ptrAt_add p c k ▸ hb _ (by omega), h.outside b fun k hk => hb k (by omega)]
  · by_cases first : k < c.toNat
    · rw [h'.outside _ fun j hj => ptrAt_add p c j ▸ ptrAt_ne p (by omega) (by omega) (by omega)]
      exact h.content idle k first ha
    · have last := h'.content idle (k - c.toNat) (by omega)
      rw [ptrAt_add, address, show c.toNat + (k - c.toNat) = k by omega,
        show ((a.toNat + c.toNat) % 4294967296 + (k - c.toNat)) % 16777216 = (a.toNat + k) % 16777216 by omega,
        show ((a.toNat + c.toNat) % 4294967296 + (k - c.toNat)) % 1048576 = (a.toNat + k) % 1048576 by omega] at last
      exact last ha

end

/-! ## The read loop -/

/-- The state after chunks of `rangeRead` that used up the first `c` bytes of the range, PHASE at step `k` (R156, R160). -/
def State.afterReads (k : Nat) (c : Len) (d : Device) (f : Frame) (cnt : Len) (m : Memory) (n : Nat)
    (es : List Event) (s : State) : State :=
  { s with
    f := f, addr := s.addr + c, ptr := s.ptr + c, rem := s.rem - c, cnt := cnt, phase := .busy .rangeRead k
    busCfg := .ours, devs := s.devs.set s.cur d.released, ram := m, draws := n, trace := s.trace ++ es }

section
variable {s : State} {x : Inst} {d : Device}

/-- One chunk of `rangeRead`: its length, the read and the advance (R156). -/
theorem Steps.readChunk (hp : s.phase = .busy .rangeRead 0) (ho : s.CanOpen s.cur x d) (wf : s.ram.wf = true)
    (hr : s.rem ≠ 0) : ∃ f m n es,
      Steps 8 s (s.afterReads 0 (chunkLen s.addr s.rem) d f (chunkLen s.addr s.rem) m n es) ∧
      d.ReadRange s.addr s.ptr (chunkLen s.addr s.rem).toNat s.ram m ∧
      ∀ es₀, wireCmds s.cur (es₀ ++ es) = wireCmds s.cur es₀ ++ [0x03] := by
  have seg : Segment .rangeRead 1 (transaction [.send .read, .dataIn]) := by decide
  obtain ⟨pos, -, -, page, -⟩ := chunkArithmetic s.addr s.rem hr
  let taken : State := { s with cnt := chunkLen s.addr s.rem, phase := .busy .rangeRead 1 }
  have take : Steps 1 s taken := (Steps.one hp (m := .chunk 8) rfl nofun).of_eq (if_neg hr)
  have opens : taken.CanOpen taken.cur x d :=
    ⟨ho.free, ho.inst, ho.closed, ho.distinct, ho.bus, ho.device, ho.present⟩
  obtain ⟨rx0, rx, reads, read⟩ := Steps.read (s := taken) rfl opens seg pos
  have advance := Steps.one (s := taken.afterRead .rangeRead 7 d rx0 rx) (m := .advance) rfl rfl nofun
  exact ⟨_, _, _, _, (take.trans read).trans advance, reads.readRange wf page,
    fun es₀ => wireCmds_txn_data es₀ _ _⟩

/-- The run of `rangeRead` from `s` on: the chunks of `len` bytes, and the exit of the loop (R156, R158). -/
def State.ReadsChunks (d : Device) (len : Len) (s : State) : Prop :=
  ∃ f cnt m n es, Steps (8 * chunkCount s.addr len + 1) s (s.afterReads 8 len d f cnt m n es) ∧
    d.ReadRange s.addr s.ptr len.toNat s.ram m ∧
    ∀ es₀, wireCmds s.cur (es₀ ++ es) = wireCmds s.cur es₀ ++ List.replicate (chunkCount s.addr len) 0x03

/-- The state is at the head of the loop, the bus ours and nothing held by the device. -/
structure State.AtReadLoop (x : Inst) (d : Device) (a : Addr) (p : Ptr) (len : Len) (s : State) : Prop where
  addr : s.addr = a
  ptr : s.ptr = p
  rem : s.rem = len
  phase : s.phase = .busy .rangeRead 0
  bus : s.busCfg = .ours
  opens : s.CanOpen s.cur x d.released
  wf : s.ram.wf = true

/-- A first chunk, and then the rest as `rest` says. -/
theorem State.ReadsChunks.of_rest {e : Device} (he : e.released = d.released)
    (hp : s.phase = .busy .rangeRead 0) (ho : s.CanOpen s.cur x e) (wf : s.ram.wf = true) (hr : s.rem ≠ 0)
    (rest : ∀ t : State, t.AtReadLoop x d (s.addr + chunkLen s.addr s.rem) (s.ptr + chunkLen s.addr s.rem)
      (s.rem - chunkLen s.addr s.rem) → t.ReadsChunks d t.rem) : s.ReadsChunks d s.rem := by
  obtain ⟨f, m, n, es, first, range, cmds⟩ := Steps.readChunk hp ho wf hr
  let t := s.afterReads 0 (chunkLen s.addr s.rem) e f (chunkLen s.addr s.rem) m n es
  obtain ⟨f', cnt', m', n', es', loop, range', cmds'⟩ := rest t
    ⟨rfl, rfl, rfl, rfl, rfl, he ▸ ho.next rfl rfl rfl rfl rfl ho.present, range.wf⟩
  have total := chunkLen_add_rest s.addr s.rem
  refine ⟨f', cnt', m', n', es ++ es', ?_,
    total ▸ (range.of_released he).append range' (total ▸ Nat.le_of_lt s.rem.isLt), fun es₀ => ?_⟩
  · rw [chunkCount_eq hr, show ∀ c, 8 * (c + 1) + 1 = 8 + (8 * c + 1) by omega]
    refine (first.trans loop).of_eq ?_
    simp only [t, State.afterReads, add_add_sub_word, BitVec.sub_self, List.set_set, List.append_assoc]
  · have sent : wireCmds s.cur (es₀ ++ es ++ es') = wireCmds s.cur (es₀ ++ es) ++ _ := cmds' (es₀ ++ es)
    rw [← List.append_assoc, sent, cmds, chunkCount_eq hr, List.append_assoc]
    rfl

/-- The loop runs to its exit (R156, R158). -/
theorem State.AtReadLoop.readsChunks (a : Addr) (p : Ptr) (len : Len) :
    ∀ s : State, s.AtReadLoop x d a p len → s.ReadsChunks d s.rem := by
  induction a, p, len using chunk_induction with
  | nil a p =>
    intro s h
    have same : s.devs.set s.cur d.released = s.devs := by
      obtain ⟨lt, e⟩ := List.getElem?_eq_some_iff.1 h.opens.device
      rw [← e, List.set_getElem_self]
    have leave := Steps.one h.phase (m := .chunk 8) rfl nofun
    rw [h.rem]
    refine ⟨s.f, s.cnt, s.ram, s.draws, [], leave.of_eq ?_, .nil h.wf, fun es₀ => by simp [chunkCount]⟩
    simp [opStep, h.rem, State.afterReads, State.goto, h.bus, same]
  | chunk a p len hne ih =>
    rintro s ⟨rfl, rfl, rfl, hp, -, ho, wf⟩
    exact .of_rest (e := d.released) rfl hp ho wf hne ih

end

/-- Settles O42: the first chunk, the loop over the rest, and the return. -/
theorem rangeReadIsLinear : Obligations.RangeReadIsLinear := by
  intro i a p len d s h hm hne
  let r : Request := { op := .rangeRead, i := i, addr := a, p := p, len := len }
  obtain ⟨f, cnt, m, n, es, run, range, cmds⟩ := State.ReadsChunks.of_rest (s := s.accept r) (d := d) rfl
    (State.accept_phase s r) h.accept_canOpen hm.1 hne (State.AtReadLoop.readsChunks _ _ _)
  have few := chunkCount_le a len
  have budget : 8 * chunkCount a len + 1 < Config.maxSteps := by unfold Config.maxSteps; omega
  have done := exec_returns (ins := .rangeRead i a p len) (r := r) h rfl (h.refusalOf_eq_none rfl rfl rfl)
    run rfl rfl budget
  have returned : wireCmds i (s.trace ++ es ++ [.ret .rangeRead .nothing]) = wireCmds i (s.trace ++ es) :=
    wireCmds_congr (by rw [scanTrace_append]; rfl) i
  exact ⟨_, done, h.syncFrame (e := d.released) rfl rfl rfl rfl rfl rfl rfl rfl, rfl, rfl, rfl, rfl,
    List.getElem?_set_self h.lt, rfl, rfl, BitVec.sub_self _, returned.trans (cmds s.trace), range.outside,
    range.content⟩

end Sys2Proof.Machine
end

section
/-! PROOFS. Range writes (44_range_chunking.md R157 to R160): one complete page write for each chunk, and the array they leave. -/

namespace Sys2Proof.Machine

/-! ## What is written -/

/-- The range of `n` bytes from flash address `a` on lies in the array, or wraps into it without meeting itself (R206). -/
def Device.holds (d : Device) (a : Addr) (n : Nat) : Prop :=
  flashAddr a + n ≤ 1048576 ∨ (d.addrMap = .wrap ∧ n ≤ 1048576)

/-- The array `m` is `m₀` with the host's `n` bytes at `p` programmed linearly from flash address `a` on (R158, R159, R204). -/
structure Device.WroteRange (d : Device) (ram : Memory) (a : Addr) (p : Ptr) (n : Nat) (m₀ m : Memory) : Prop where
  wf : m.wf = true ∧ m.below Config.capacity = true
  inside : d.holds a n → ∀ k < n, m.read ((a.toNat + k) % 1048576) =
    mergeByte d.merge (m₀.read ((a.toNat + k) % 1048576)) (ram.read (ptrAt p k))
  outside : d.holds a n → ∀ b, (∀ k < n, (a.toNat + k) % 1048576 ≠ b) → m.read b = m₀.read b

section
variable {d : Device} {ram m₀ m m' : Memory} {a : Addr} {p : Ptr} {n : Nat}

theorem Device.WroteRange.nil (h : m.wf = true ∧ m.below Config.capacity = true) : d.WroteRange ram a p 0 m m :=
  ⟨h, fun _ _ hk => absurd hk (Nat.not_lt_zero _), fun _ _ _ => rfl⟩

/-- A page program that does not reach the page's end is linear (R159, R203). -/
theorem Device.programmed.wroteRange {len : Len} (h : d.answersAt (flashAddr a) → d.programmed ram a p len m)
    (wf : m.wf = true ∧ m.below Config.capacity = true) (pos : 1 ≤ len.toNat)
    (page : a.toNat % 256 + len.toNat ≤ 256) : d.WroteRange ram a p len.toNat d.mem m := by
  have answered (fits : d.holds a len.toNat) : d.answersAt (flashAddr a) :=
    fits.imp (fun lt => show flashAddr a < 1048576 by omega) fun wrap => wrap.1
  have target (k : Nat) (hk : k < len.toNat) : flashAddr a % 1048576 - flashAddr a % 1048576 % 256 +
      (flashAddr a % 1048576 % 256 + k) % 256 = (a.toNat + k) % 1048576 := by
    unfold flashAddr; omega
  refine ⟨wf, fun fits k hk => ?_, fun fits b hb => ?_⟩
  · rw [← target k hk]
    exact (h (answered fits)).1 k hk
  · exact (h (answered fits)).2 b fun k hk => target k hk ▸ hb k hk

/-- The parts of a range lie in the array where the range does. -/
theorem Device.holds.split {c : Len} (h : d.holds a (c.toNat + n)) : d.holds a c.toNat ∧ d.holds (a + c) n := by
  have address : (a + c).toNat = (a.toNat + c.toNat) % 4294967296 := BitVec.toNat_add ..
  unfold Device.holds flashAddr at *
  rcases h with inside | ⟨wrap, short⟩
  · exact ⟨.inl (by omega), .inl (by omega)⟩
  · exact ⟨.inr ⟨wrap, by omega⟩, .inr ⟨wrap, by omega⟩⟩

/-- A write and then one that goes on where it ended. -/
theorem Device.WroteRange.append {c : Len} (h : d.WroteRange ram a p c.toNat m₀ m)
    (h' : d.WroteRange ram (a + c) (p + c) n m m') : d.WroteRange ram a p (c.toNat + n) m₀ m' := by
  have address (k : Nat) : ((a + c).toNat + k) % 1048576 = (a.toNat + (c.toNat + k)) % 1048576 := by
    rw [BitVec.toNat_add]; omega
  refine ⟨h'.wf, fun fits k hk => ?_, fun fits b hb => ?_⟩
  · obtain ⟨one, two⟩ := fits.split
    have short : c.toNat + n ≤ 1048576 := fits.elim (fun lt => by omega) fun wrap => wrap.2
    by_cases first : k < c.toNat
    · rw [h'.outside two _ fun j hj => by rw [address]; omega]
      exact h.inside one k first
    · have last := h'.inside two (k - c.toNat) (by omega)
      rw [address, ptrAt_add, show c.toNat + (k - c.toNat) = k by omega] at last
      rw [last, h.outside one _ fun j hj => by omega]
  · obtain ⟨one, two⟩ := fits.split
    rw [h'.outside two b fun k hk => address k ▸ hb _ (by omega), h.outside one b fun k hk => hb k (by omega)]

end

/-! ## The devices of the loop -/

/-- A device in the loop of a range write to `d`: idle, refusing nothing, and `d` but for its array, its latch and what it holds. -/
structure Device.Writes (d e : Device) : Prop where
  rewritten : ∀ m, e.rewritten m = d.rewritten m
  idle : e.sr.getLsbD 0 = false
  accepts : ∀ w, e.enabled.protects w = false
  wf : e.mem.wf = true ∧ e.mem.below Config.capacity = true

section
variable {d e : Device} {m : Memory}

/-- Each chunk leaves such a device again. -/
theorem Device.Writes.again (h : d.Writes e) (wf : m.wf = true ∧ m.below Config.capacity = true) :
    d.Writes (d.rewritten m) := by
  have clear : ∀ v : Byte, v &&& 0xFC &&& 0xFC = v &&& 0xFC := by decide
  have latch : ∀ v : Byte, v.getLsbD 0 = false → v &&& 0xFC ||| 0x02 = v ||| 0x02 := by decide
  refine ⟨fun m' => ?_, Device.rewritten_idle m, fun w => ?_, wf⟩
  · simp only [Device.rewritten, clear]
  · rw [← h.rewritten m, ← h.accepts w]
    unfold Device.protects Device.enabled Device.rewritten
    rw [latch e.sr h.idle]

/-- What is written does not depend on the array. -/
theorem Device.Writes.wroteRange {ram m₀ : Memory} {a : Addr} {p : Ptr} {n : Nat} (h : d.Writes e)
    (range : e.WroteRange ram a p n m₀ m) : d.WroteRange ram a p n m₀ m := by
  have merge : e.merge = d.merge := congrArg (fun x => x.merge) (h.rewritten m)
  have map : e.addrMap = d.addrMap := congrArg (fun x => x.addrMap) (h.rewritten m)
  have same : d.holds a n = e.holds a n := by unfold Device.holds; rw [map]
  exact ⟨range.wf, by rw [same, ← merge]; exact range.inside, by rw [same]; exact range.outside⟩

end

/-! ## The write loop -/

/-- The state after chunks of `rangeWrite` that used up the first `c` bytes of the range and left its device as `e`, PHASE at step `k` (R157, R160). -/
def State.afterWrites (k : Nat) (c : Len) (e : Device) (f : Frame) (cnt : Len) (v : Byte) (n : Nat)
    (rest : List Input) (es : List Event) (s : State) : State :=
  { s with
    f := f, addr := s.addr + c, ptr := s.ptr + c, rem := s.rem - c, cnt := cnt, st := v
    phase := .busy .rangeWrite k, busCfg := .ours, devs := s.devs.set s.cur e, draws := n, inputs := rest
    trace := s.trace ++ es }

/-- The commands of one complete page write (R143, R159). -/
def writeCmds : List Byte := [0x05, 0x06, 0x02, 0x05, 0x05]

theorem wireCmds_write {s : State} {i : Nat} {bs q q' : List Byte} {data : List Byte} (es : List Event)
    (r : Fin 4 → Byte) (v b w : Byte) :
    wireCmds i (es ++ s.writeEvents i [.x (some (0x02 :: bs)) q, .x (some data) q'] r v b w) =
      wireCmds i es ++ writeCmds := by
  simp only [State.writeEvents, ← List.append_assoc]
  rw [wireCmds_poll, wireCmds_slept, wireCmds_poll, wireCmds_txn_data, wireCmds_enable, wireCmds_poll]
  simp [writeCmds]

section
variable {s : State} {x : Inst} {d e : Device} {rest : List Input}

/-- One chunk of `rangeWrite`: its length, a complete page write and the advance (R157, R159). -/
theorem Steps.writeChunk (hp : s.phase = .busy .rangeWrite 0) (ho : s.CanOpen s.cur x e) (he : d.Writes e)
    (hr : s.rem ≠ 0) (hi : s.inputs = .env (.finish s.cur) :: rest) : ∃ f m v n es,
      Steps 32 s (s.afterWrites 0 (chunkLen s.addr s.rem) (d.rewritten m) f (chunkLen s.addr s.rem) v n rest es) ∧
      d.WroteRange s.ram s.addr s.ptr (chunkLen s.addr s.rem).toNat e.mem m ∧
      ∀ es₀, wireCmds s.cur (es₀ ++ es) = wireCmds s.cur es₀ ++ writeCmds := by
  have seg : Segment .rangeWrite 1 pageWriting := by decide
  obtain ⟨pos, short, -, page, -⟩ := chunkArithmetic s.addr s.rem hr
  let taken : State := { s with cnt := chunkLen s.addr s.rem, phase := .busy .rangeWrite 1 }
  have take : Steps 1 s taken := (Steps.one hp (m := .chunk 26) rfl nofun).of_eq (if_neg hr)
  have opens : taken.CanOpen taken.cur x e :=
    ⟨ho.free, ho.inst, ho.closed, ho.distinct, ho.bus, ho.device, ho.present⟩
  obtain ⟨j, q, q', r, n, written⟩ := Steps.pageWritten (s := taken) rfl opens seg pos he.idle (he.accepts _) hi
  let m := e.memAfter j (.prog (progWrites (flashAddr s.addr)
    (memRead s.ram s.ptr (chunkLen s.addr s.rem).toNat)))
  have range : e.WroteRange s.ram s.addr s.ptr (chunkLen s.addr s.rem).toNat e.mem m :=
    Device.programmed.wroteRange (Device.programmed_memAfter he.wf.1 s.ram short)
      (Device.applyJob_wf _ _ he.wf) pos page
  rw [State.written, he.rewritten] at written
  have chunk := (take.trans written).trans (Steps.one (m := .advance) rfl rfl nofun)
  exact ⟨_, m, _, _, _, chunk, he.wroteRange range,
    fun es₀ => wireCmds_write es₀ r e.sr (e.sr ||| 0x03) (e.sr &&& 0xFC)⟩

/-- The run of `rangeWrite` from `s` on, with the device's array `m₀`: the chunks of `len` bytes, and the exit of the loop (R157 to R159). -/
def State.WritesChunks (d : Device) (m₀ : Memory) (len : Len) (rest : List Input) (s : State) : Prop :=
  ∃ f cnt m v n es, Steps (32 * chunkCount s.addr len + 1) s
      (s.afterWrites 26 len (d.rewritten m) f cnt v n rest es) ∧
    d.WroteRange s.ram s.addr s.ptr len.toNat m₀ m ∧
    ∀ es₀, wireCmds s.cur (es₀ ++ es) =
      wireCmds s.cur es₀ ++ (List.replicate (chunkCount s.addr len) writeCmds).flatten

/-- The state is at the head of the loop, the bus ours, the array `m₀` and one `finish` due for each chunk. -/
structure State.AtWriteLoop (x : Inst) (d : Device) (m₀ : Memory) (a : Addr) (p : Ptr) (len : Len)
    (rest : List Input) (s : State) : Prop where
  addr : s.addr = a
  ptr : s.ptr = p
  rem : s.rem = len
  phase : s.phase = .busy .rangeWrite 0
  bus : s.busCfg = .ours
  opens : s.CanOpen s.cur x (d.rewritten m₀)
  writes : d.Writes (d.rewritten m₀)
  inputs : s.inputs = List.replicate (chunkCount a len) (.env (.finish s.cur)) ++ rest

/-- A first chunk, and then the rest as `loop` says. -/
theorem State.WritesChunks.of_rest (hp : s.phase = .busy .rangeWrite 0) (ho : s.CanOpen s.cur x e)
    (he : d.Writes e) (hr : s.rem ≠ 0)
    (hi : s.inputs = List.replicate (chunkCount s.addr s.rem) (.env (.finish s.cur)) ++ rest)
    (loop : ∀ m₁, ∀ t : State, t.AtWriteLoop x d m₁ (s.addr + chunkLen s.addr s.rem)
      (s.ptr + chunkLen s.addr s.rem) (s.rem - chunkLen s.addr s.rem) rest → t.WritesChunks d m₁ t.rem rest) :
    s.WritesChunks d e.mem s.rem rest := by
  rw [chunkCount_eq hr, List.replicate_succ, List.cons_append] at hi
  obtain ⟨f, m, v, n, es, first, range, cmds⟩ := Steps.writeChunk hp ho he hr hi
  let due : List Input := List.replicate
    (chunkCount (s.addr + chunkLen s.addr s.rem) (s.rem - chunkLen s.addr s.rem)) (.env (.finish s.cur)) ++ rest
  let t := s.afterWrites 0 (chunkLen s.addr s.rem) (d.rewritten m) f (chunkLen s.addr s.rem) v n due es
  have present : (d.rewritten m).present = true :=
    (congrArg (fun e => e.present) (he.rewritten m)).symm.trans ho.present
  obtain ⟨f', cnt', m', v', n', es', run, range', cmds'⟩ := loop m t
    ⟨rfl, rfl, rfl, rfl, rfl, ho.next rfl rfl rfl rfl rfl present, he.again range.wf, rfl⟩
  have total := chunkLen_add_rest s.addr s.rem
  refine ⟨f', cnt', m', v', n', es ++ es', ?_, total ▸ range.append range', fun es₀ => ?_⟩
  · rw [chunkCount_eq hr, show ∀ c, 32 * (c + 1) + 1 = 32 + (32 * c + 1) by omega]
    refine (first.trans run).of_eq ?_
    simp only [t, State.afterWrites, add_add_sub_word, BitVec.sub_self, List.set_set, List.append_assoc]
  · have sent : wireCmds s.cur (es₀ ++ es ++ es') = wireCmds s.cur (es₀ ++ es) ++ _ := cmds' (es₀ ++ es)
    rw [← List.append_assoc, sent, cmds, chunkCount_eq hr, List.append_assoc]
    rfl

/-- The loop runs to its exit (R157, R158). -/
theorem State.AtWriteLoop.writesChunks (a : Addr) (p : Ptr) (len : Len) :
    ∀ m₀, ∀ s : State, s.AtWriteLoop x d m₀ a p len rest → s.WritesChunks d m₀ s.rem rest := by
  induction a, p, len using chunk_induction with
  | nil a p =>
    intro m₀ s h
    have same : s.devs.set s.cur (d.rewritten m₀) = s.devs := by
      obtain ⟨lt, e⟩ := List.getElem?_eq_some_iff.1 h.opens.device
      rw [← e, List.set_getElem_self]
    have due : s.inputs = rest := h.inputs
    have leave := Steps.one h.phase (m := .chunk 26) rfl nofun
    rw [h.rem]
    refine ⟨s.f, s.cnt, m₀, s.st, s.draws, [], leave.of_eq ?_, .nil h.writes.wf,
      fun es₀ => by simp [chunkCount]⟩
    simp [opStep, h.rem, State.afterWrites, State.goto, h.bus, same, due]
  | chunk a p len hne ih =>
    rintro m₀ s ⟨rfl, rfl, rfl, hp, -, ho, writes, hi⟩
    exact .of_rest (e := d.rewritten m₀) hp ho writes hne hi ih

end

/-- Settles O43: the first chunk, the loop over the rest, and the return. -/
theorem rangeWriteIsLinear : Obligations.RangeWriteIsLinear := by
  intro i a p len d s rest h ok idle accepts hne hi
  let r : Request := { op := .rangeWrite, i := i, addr := a, p := p, len := len }
  obtain ⟨wf, below, -⟩ := ok
  obtain ⟨f, cnt, m, v, n, es, run, range, cmds⟩ := State.WritesChunks.of_rest (s := s.accept r) (d := d)
    (State.accept_phase s r) h.accept_canOpen ⟨fun _ => rfl, idle, accepts, wf, below⟩ hne hi
    (State.AtWriteLoop.writesChunks _ _ _)
  have few := chunkCount_le a len
  have budget : 32 * chunkCount a len + 1 < Config.maxSteps := by unfold Config.maxSteps; omega
  have done := exec_returns (ins := .rangeWrite i a p len) (r := r) h rfl (h.refusalOf_eq_none rfl rfl rfl)
    run rfl rfl budget
  have returned : wireCmds i (s.trace ++ es ++ [.ret .rangeWrite .nothing]) = wireCmds i (s.trace ++ es) :=
    wireCmds_congr (by rw [scanTrace_append]; rfl) i
  exact ⟨_, m, done, h.syncFrame (e := d.rewritten m) rfl rfl rfl rfl rfl rfl rfl rfl, rfl, rfl, rfl, rfl, rfl, rfl,
    BitVec.sub_self _, List.getElem?_set_self h.lt, returned.trans (cmds s.trace),
    fun fits => ⟨range.inside fits, range.outside fits⟩⟩

end Sys2Proof.Machine
end
